-- ==== Sys2Proof/Word.lean ====
section
/-! DEFINITION. The two word types of MJDEC: the stream and buffer byte, and the 32-bit host word
(spec 00 R11, 10 R22). -/

namespace Sys2Proof

/-- A byte of the stream, of a buffer or of a table (00 R11: "A byte is 8 bits"). -/
abbrev Byte := BitVec 8

/-- A host bus word: a CSR, a 4-byte buffer access, a host address (10 R22, 20 R55). -/
abbrev Word := BitVec 32

end Sys2Proof
end

