-- ==== Sys2Proof/Config.lean ====
section
/-! DEFINITION. The implementation parameters of spec 00 R6, R7, R9 and the free values the spec leaves open.
A free value is an opaque constant: nothing can evaluate it, so a statement about it holds whatever it is. -/

namespace Sys2Proof

/-- The function the inverse DCT applies to a block with AC energy (00 R9, 44 R164): the default of 44 R163, or
any other conforming realisation, named by a number (log 5). -/
inductive IdctGeneral where
  | standard
  | variant (n : Nat)
deriving DecidableEq, Repr, Inhabited

/-- The three model arguments of 93 I-P1 to I-P3. They are configuration, not state (10 R21): `State` carries
them in a field that no step changes, so that every statement is about every machine of the family (log 4). -/
structure Params where
  inAddrBits  : Nat
  outAddrBits : Nat
  idctGeneral : IdctGeneral
deriving DecidableEq, Repr

namespace Params

/-- The defaults of 00 R6, R7, R9. -/
def default : Params := ⟨20, 22, .standard⟩

/-- `IN_MAX = 2^IN_ADDR_BITS` (00 R6). -/
def inMax (p : Params) : Nat := 2 ^ p.inAddrBits

/-- `OUT_MAX = 2^OUT_ADDR_BITS` (00 R7). -/
def outMax (p : Params) : Nat := 2 ^ p.outAddrBits

/-- The legal ranges 12..24 of 00 R6 and R7. -/
abbrev legal (p : Params) : Prop :=
  12 ≤ p.inAddrBits ∧ p.inAddrBits ≤ 24 ∧ 12 ≤ p.outAddrBits ∧ p.outAddrBits ≤ 24

end Params

/-- FREE VALUE (10 R44, 93 I-U3; log 6): what byte `i` of IN_BUF holds after the `epoch`-th hardware reset, until
the host writes it. -/
opaque Config.powerOnIn : (epoch : Nat) → (i : Nat) → Byte

/-- FREE VALUE (10 R44, 93 I-U3; log 6): what byte `i` of OUT_BUF holds after the `epoch`-th hardware reset, until
it is written. -/
opaque Config.powerOnOut : (epoch : Nat) → (i : Nat) → Byte

/-- FREE VALUE (20 R65(c), 93 I-U4; log 7): whether the `n`-th free draw, a host read of OUT_BUF while BUSY = 1,
sees byte `i` as it was before the decode. -/
opaque Config.busyReadSeesOld : (n : Nat) → (i : Nat) → Bool

/-- FREE VALUE (45 R182, 93 I-U2; log 8): whether after the `n`-th free draw, a failure in phase 2, OUT_BUF byte `i`
holds its value before the decode. -/
opaque Config.failureKeepsOld : (n : Nat) → (i : Nat) → Bool

/-- FREE VALUE (44 R164, 93 I-U8; log 5): how realisation `n` of IDCT_GENERAL differs from rule R163 on a block, at
sample `i`: 0, 1 and 2 stand for one level below, the same, one level above. It is a function of the 64
coefficients alone, as R164 asks. -/
opaque Config.idctDeviation : (n : Nat) → (coef : List Int) → (i : Nat) → Fin 3

end Sys2Proof
end

