-- ==== Sys2Proof/Syntax.lean ====
section
/-! DEFINITION. The encoded items MJDEC decodes (spec 30 R70): markers, Huffman symbols and host accesses. One
constructor per mnemonic of spec/opcode_table.json; the rows of one mnemonic differ in an operand only. -/

namespace Sys2Proof

/-- The formats of opcode_table.json (30 R70). -/
inductive Format where
  | marker
  | dcsym
  | acsym
  | hostacc
deriving DecidableEq, Repr

/-- The direction of a host access (30 R85). -/
inductive Dir where
  | read
  | write
deriving DecidableEq, Repr

/-- The width of a host access in bytes, 1, 2 or 4 (30 R85). -/
inductive Width where
  | one
  | two
  | four
deriving DecidableEq, Repr

/-- What a host access carries beside its address (30 R85); `data` is the write data `v`. -/
structure Access where
  width : Width
  dir   : Dir
  data  : Word
deriving DecidableEq, Repr

/-- An encoded item with its operands taken out of the encoding. -/
inductive Instr where
  -- MARKER (30 R71 to R73)
  | stuff00
  | tem
  | res (code : BitVec 8)
  | sof0
  | sof1
  | sof2
  | sof3
  | dht
  | sof5
  | sof6
  | sof7
  | jpg
  | sof9
  | sof10
  | sof11
  | dac
  | sof13
  | sof14
  | sof15
  | rstm (m : BitVec 3)
  | soi
  | eoi
  | sos
  | dqt
  | dnl
  | dri
  | dhp
  | exp
  | appn (n : BitVec 4)
  | jpgn (n : BitVec 4)
  | com
  | fill
  -- DCSYM (30 R82): the raw bits follow in the scan data
  | dcZero
  | dcDiff (size : BitVec 4)
  | dcBad (sym : BitVec 8)
  -- ACSYM (30 R83)
  | eob
  | zrl
  | acR0 (run : BitVec 4)
  | acRs (run : BitVec 4) (size : BitVec 4)
  -- HOSTACC (30 R85): `lane` is addr[1:0] of a CSR access
  | csrId (lane : BitVec 2) (a : Access)
  | csrCtrl (lane : BitVec 2) (a : Access)
  | csrStatus (lane : BitVec 2) (a : Access)
  | csrInLen (lane : BitVec 2) (a : Access)
  | csrErrOffset (lane : BitVec 2) (a : Access)
  | csrErrMarker (lane : BitVec 2) (a : Access)
  | csrImgWidth (lane : BitVec 2) (a : Access)
  | csrImgHeight (lane : BitVec 2) (a : Access)
  | csrImgChannels (lane : BitVec 2) (a : Access)
  | csrOutLen (lane : BitVec 2) (a : Access)
  | csrRsvd (offset : BitVec 12) (a : Access)
  | inbuf (i : BitVec 24) (a : Access)
  | outbuf (i : BitVec 24) (a : Access)
  | unmapped (addr : BitVec 32) (a : Access)
deriving DecidableEq, Repr

end Sys2Proof
end

