-- ==== Sys2Proof/WellFormed.lean ====
section
/-! DEFINITION. Which operand values an encoding admits: exactly the terms a word of the opcode table decodes to. -/

namespace Sys2Proof

/-- A host address that 20 R58 maps to nothing, under parameters `p`. -/
abbrev Params.isUnmapped (p : Params) (addr : Word) : Prop :=
  0x1000 ≤ addr.toNat ∧
  ¬ (0x01000000 ≤ addr.toNat ∧ addr.toNat < 0x01000000 + p.inMax) ∧
  ¬ (0x02000000 ≤ addr.toNat ∧ addr.toNat < 0x02000000 + p.outMax)

/-- The operand ranges of the rows of opcode_table.json: RES codes 0x02..0xBF and JPGn 0..13 (30 R73), DC sizes
1..11 and illegal DC symbols 12..255 (30 R82, 43 R151), AC runs and sizes (30 R83, 43 R154), reserved CSR offsets
from 0x028 (10 R22), buffer indexes below the buffer sizes and unmapped addresses (20 R58). -/
def Instr.wf (p : Params) : Instr → Bool
  | .res code => decide (0x02 ≤ code.toNat ∧ code.toNat ≤ 0xBF)
  | .jpgn n => decide (n.toNat ≤ 13)
  | .dcDiff size => decide (1 ≤ size.toNat ∧ size.toNat ≤ 11)
  | .dcBad sym => decide (12 ≤ sym.toNat)
  | .acR0 run => decide (1 ≤ run.toNat ∧ run.toNat ≤ 14)
  | .acRs _ size => decide (1 ≤ size.toNat)
  | .csrRsvd offset _ => decide (0x028 ≤ offset.toNat)
  | .inbuf i _ => decide (i.toNat < p.inMax)
  | .outbuf i _ => decide (i.toNat < p.outMax)
  | .unmapped addr _ => decide (p.isUnmapped addr)
  | .stuff00 | .tem | .sof0 | .sof1 | .sof2 | .sof3 | .dht | .sof5 | .sof6 | .sof7 | .jpg
  | .sof9 | .sof10 | .sof11 | .dac | .sof13 | .sof14 | .sof15 | .rstm _ | .soi | .eoi | .sos
  | .dqt | .dnl | .dri | .dhp | .exp | .appn _ | .com | .fill => true
  | .dcZero | .eob | .zrl => true
  | .csrId _ _ | .csrCtrl _ _ | .csrStatus _ _ | .csrInLen _ _ | .csrErrOffset _ _ | .csrErrMarker _ _
  | .csrImgWidth _ _ | .csrImgHeight _ _ | .csrImgChannels _ _ | .csrOutLen _ _ => true

end Sys2Proof
end

