-- ==== Sys2Proof/Decode.lean ====
section
/-! DEFINITION. The decoders of the four formats of spec 30 R70, each total on its words and rejecting by name, the
decoder of a host access laid out as bytes, and the encoder, written from the same tables. -/

namespace Sys2Proof

/-- Why a byte string is no item of its format. -/
inductive DecodeError where
  /-- The first byte of a marker is not 0xFF (30 R71). -/
  | notMarker
  /-- The byte string does not have its format's length. -/
  | badLength
  /-- The control byte of a host access names no width of 30 R85 or has a reserved bit set (log 14). -/
  | badControl
deriving DecidableEq, Repr

/-- The marker of a code byte: the table of 30 R73. -/
def decodeMarkerCode (c : Byte) : Instr :=
  match c.toNat with
  | 0x00 => .stuff00
  | 0x01 => .tem
  | 0xC0 => .sof0
  | 0xC1 => .sof1
  | 0xC2 => .sof2
  | 0xC3 => .sof3
  | 0xC4 => .dht
  | 0xC5 => .sof5
  | 0xC6 => .sof6
  | 0xC7 => .sof7
  | 0xC8 => .jpg
  | 0xC9 => .sof9
  | 0xCA => .sof10
  | 0xCB => .sof11
  | 0xCC => .dac
  | 0xCD => .sof13
  | 0xCE => .sof14
  | 0xCF => .sof15
  | 0xD8 => .soi
  | 0xD9 => .eoi
  | 0xDA => .sos
  | 0xDB => .dqt
  | 0xDC => .dnl
  | 0xDD => .dri
  | 0xDE => .dhp
  | 0xDF => .exp
  | 0xFE => .com
  | 0xFF => .fill
  | n =>
    if n ≤ 0xBF then .res c
    else if n ≤ 0xD7 then .rstm (c.setWidth 3)
    else if n ≤ 0xEF then .appn (c.setWidth 4)
    else .jpgn (c.setWidth 4)

/-- Format MARKER (30 R71): the 16-bit value `0xFF00 | code`. -/
def decodeMarker (w : BitVec 16) : Except DecodeError Instr :=
  if w.extractLsb' 8 8 = 0xFF then .ok (decodeMarkerCode (w.setWidth 8)) else .error .notMarker

/-- Format DCSYM (30 R82): legal sizes 0..11, every other symbol illegal. -/
def decodeDcSym (sym : Byte) : Instr :=
  if sym.toNat = 0 then .dcZero
  else if sym.toNat ≤ 11 then .dcDiff (sym.setWidth 4)
  else .dcBad sym

/-- Format ACSYM (30 R83): `RRRR = symbol[7:4]`, `SSSS = symbol[3:0]`. -/
def decodeAcSym (sym : Byte) : Instr :=
  let run := sym.extractLsb' 4 4
  let size := sym.setWidth 4
  if sym.toNat = 0x00 then .eob
  else if sym.toNat = 0xF0 then .zrl
  else if size.toNat = 0 then .acR0 run
  else .acRs run size

/-- The CSR at byte offset `offset` of the CSR window (10 R22); bits 1:0 are the lane. -/
def decodeCsr (offset : BitVec 12) (a : Access) : Instr :=
  let lane := offset.setWidth 2
  match offset.toNat / 4 with
  | 0 => .csrId lane a
  | 1 => .csrCtrl lane a
  | 2 => .csrStatus lane a
  | 3 => .csrInLen lane a
  | 4 => .csrErrOffset lane a
  | 5 => .csrErrMarker lane a
  | 6 => .csrImgWidth lane a
  | 7 => .csrImgHeight lane a
  | 8 => .csrImgChannels lane a
  | 9 => .csrOutLen lane a
  | _ => .csrRsvd offset a

/-- Format HOSTACC (30 R85): the host address map of 20 R58, which moves with the parameters. -/
def decodeHost (p : Params) (addr : Word) (a : Access) : Instr :=
  if addr.toNat < 0x1000 then decodeCsr (addr.setWidth 12) a
  else if 0x01000000 ≤ addr.toNat ∧ addr.toNat < 0x01000000 + p.inMax then
    .inbuf ((addr - 0x01000000).setWidth 24) a
  else if 0x02000000 ≤ addr.toNat ∧ addr.toNat < 0x02000000 + p.outMax then
    .outbuf ((addr - 0x02000000).setWidth 24) a
  else .unmapped addr a

/-- The width and direction of a host access as one control byte (the model's layout, log 14): bits 1:0 are 0 for
4 bytes, 1 for 1 byte, 2 for 2 bytes; bit 2 is 1 for a write; the rest must be 0. -/
def decodeControl (b : Byte) : Option (Width × Dir) :=
  match b.toNat with
  | 0 => some (.four, .read)
  | 1 => some (.one, .read)
  | 2 => some (.two, .read)
  | 4 => some (.four, .write)
  | 5 => some (.one, .write)
  | 6 => some (.two, .write)
  | _ => none

/-- A 32-bit word from its four bytes, least significant first (20 R60). -/
def wordOfBytes (b0 b1 b2 b3 : Byte) : Word := b3 ++ b2 ++ b1 ++ b0

/-- The decoder of a byte string in a format: a marker in stream order, a symbol as one byte, a host access as
address, control byte and data (log 14). -/
def decode (p : Params) : Format → List Byte → Except DecodeError Instr
  | .marker, [hi, lo] => decodeMarker (hi ++ lo)
  | .dcsym, [sym] => .ok (decodeDcSym sym)
  | .acsym, [sym] => .ok (decodeAcSym sym)
  | .hostacc, [a0, a1, a2, a3, c, d0, d1, d2, d3] =>
    match decodeControl c with
    | some (w, d) => .ok (decodeHost p (wordOfBytes a0 a1 a2 a3) ⟨w, d, wordOfBytes d0 d1 d2 d3⟩)
    | none => .error .badControl
  | .marker, _ => .error .badLength
  | .dcsym, _ => .error .badLength
  | .acsym, _ => .error .badLength
  | .hostacc, _ => .error .badLength

/-! The encoder. -/

/-- The format an item belongs to (30 R70). -/
def Instr.format : Instr → Format
  | .stuff00 | .tem | .res _ | .sof0 | .sof1 | .sof2 | .sof3 | .dht | .sof5 | .sof6 | .sof7 | .jpg
  | .sof9 | .sof10 | .sof11 | .dac | .sof13 | .sof14 | .sof15 | .rstm _ | .soi | .eoi | .sos
  | .dqt | .dnl | .dri | .dhp | .exp | .appn _ | .jpgn _ | .com | .fill => .marker
  | .dcZero | .dcDiff _ | .dcBad _ => .dcsym
  | .eob | .zrl | .acR0 _ | .acRs _ _ => .acsym
  | .csrId _ _ | .csrCtrl _ _ | .csrStatus _ _ | .csrInLen _ _ | .csrErrOffset _ _ | .csrErrMarker _ _
  | .csrImgWidth _ _ | .csrImgHeight _ _ | .csrImgChannels _ _ | .csrOutLen _ _ | .csrRsvd _ _
  | .inbuf _ _ | .outbuf _ _ | .unmapped _ _ => .hostacc

/-- The four bytes of a word, least significant first (20 R60). -/
def bytesOfWord (w : Word) : List Byte :=
  [w.setWidth 8, w.extractLsb' 8 8, w.extractLsb' 16 8, w.extractLsb' 24 8]

/-- The control byte of a host access (log 14). -/
def controlOf (a : Access) : Byte :=
  match a.width, a.dir with
  | .four, .read => 0
  | .one, .read => 1
  | .two, .read => 2
  | .four, .write => 4
  | .one, .write => 5
  | .two, .write => 6

/-- A host access as bytes: address, control byte, write data (log 14). -/
def encodeHost (addr : Word) (a : Access) : List Byte :=
  bytesOfWord addr ++ controlOf a :: bytesOfWord a.data

/-- The address of a CSR: its word offset and the lane. -/
def csrAddr (index : BitVec 4) (lane : BitVec 2) : Word := (index ++ lane).setWidth 32

/-- The bytes of an item: a marker in stream order (30 R71), a symbol as one byte (30 R82, R83), a host access by
`encodeHost`. -/
def encode : Instr → List Byte
  | .stuff00 => [0xFF, 0x00]
  | .tem => [0xFF, 0x01]
  | .res code => [0xFF, code]
  | .sof0 => [0xFF, 0xC0]
  | .sof1 => [0xFF, 0xC1]
  | .sof2 => [0xFF, 0xC2]
  | .sof3 => [0xFF, 0xC3]
  | .dht => [0xFF, 0xC4]
  | .sof5 => [0xFF, 0xC5]
  | .sof6 => [0xFF, 0xC6]
  | .sof7 => [0xFF, 0xC7]
  | .jpg => [0xFF, 0xC8]
  | .sof9 => [0xFF, 0xC9]
  | .sof10 => [0xFF, 0xCA]
  | .sof11 => [0xFF, 0xCB]
  | .dac => [0xFF, 0xCC]
  | .sof13 => [0xFF, 0xCD]
  | .sof14 => [0xFF, 0xCE]
  | .sof15 => [0xFF, 0xCF]
  | .rstm m => [0xFF, 0b11010#5 ++ m]
  | .soi => [0xFF, 0xD8]
  | .eoi => [0xFF, 0xD9]
  | .sos => [0xFF, 0xDA]
  | .dqt => [0xFF, 0xDB]
  | .dnl => [0xFF, 0xDC]
  | .dri => [0xFF, 0xDD]
  | .dhp => [0xFF, 0xDE]
  | .exp => [0xFF, 0xDF]
  | .appn n => [0xFF, 0xE#4 ++ n]
  | .jpgn n => [0xFF, 0xF#4 ++ n]
  | .com => [0xFF, 0xFE]
  | .fill => [0xFF, 0xFF]
  | .dcZero => [0x00]
  | .dcDiff size => [size.setWidth 8]
  | .dcBad sym => [sym]
  | .eob => [0x00]
  | .zrl => [0xF0]
  | .acR0 run => [run ++ 0#4]
  | .acRs run size => [run ++ size]
  | .csrId lane a => encodeHost (csrAddr 0 lane) a
  | .csrCtrl lane a => encodeHost (csrAddr 1 lane) a
  | .csrStatus lane a => encodeHost (csrAddr 2 lane) a
  | .csrInLen lane a => encodeHost (csrAddr 3 lane) a
  | .csrErrOffset lane a => encodeHost (csrAddr 4 lane) a
  | .csrErrMarker lane a => encodeHost (csrAddr 5 lane) a
  | .csrImgWidth lane a => encodeHost (csrAddr 6 lane) a
  | .csrImgHeight lane a => encodeHost (csrAddr 7 lane) a
  | .csrImgChannels lane a => encodeHost (csrAddr 8 lane) a
  | .csrOutLen lane a => encodeHost (csrAddr 9 lane) a
  | .csrRsvd offset a => encodeHost (offset.setWidth 32) a
  | .inbuf i a => encodeHost (0x01000000 + i.setWidth 32) a
  | .outbuf i a => encodeHost (0x02000000 + i.setWidth 32) a
  | .unmapped addr a => encodeHost addr a

/-! The opcode table's words. -/

/-- Whether an 8-bit word of the opcode table is read as DCSYM. Both symbol formats use all 256 values and the word
alone does not say which is meant (in the machine the place in the block does): the model reads a word with at most
one bit set as DCSYM and every other word as ACSYM (log 15). -/
def tableByteIsDc (b : Byte) : Bool := b &&& (b - 1) = 0

/-- The instruction of an opcode-table word `w` of `nbits` bits: 16 bits a MARKER, 32 bits a HOSTACC address with a
zero control byte and zero data, 8 bits a symbol (log 15). -/
def decodeTableWord (nbits w : Nat) : Option Instr :=
  let b (k : Nat) : Byte := BitVec.ofNat 8 (w / 2 ^ (8 * k))
  if nbits = 16 then (decode .default .marker [b 1, b 0]).toOption
  else if nbits = 32 then (decode .default .hostacc [b 0, b 1, b 2, b 3, 0, 0, 0, 0, 0]).toOption
  else if nbits = 8 then
    (decode .default (if tableByteIsDc (b 0) then .dcsym else .acsym) [b 0]).toOption
  else none

end Sys2Proof
end

