-- ==== Sys2Proof/Machine/State.lean ====
section
/-! DEFINITION. The whole state of MJDEC as plain data (spec 10 R20 to R45, 20 R55 to R57), the model's own fields
beside it (the host's accesses still to come, loop variables, free-value counters), the reasons a step can stop, and
the state after reset. -/

namespace Sys2Proof.Machine

/-- A buffer: (index, byte) pairs, indexes strictly rising. An index that is not listed holds a byte nothing has
written since reset (log 6). -/
abbrev Memory := List Host.Cell

/-- What an unlisted index of a buffer reads as: no written value. The state's accessors answer such a read with a
free value (log 6). -/
def Memory.unlisted : Option Byte := none

/-- The canonical form: indexes strictly rising. No entry can equal what an unlisted index reads as, since that is no
byte at all. -/
abbrev Memory.wf (m : Memory) : Prop := m.Pairwise (fun a b => a.1 < b.1)

/-- The error kinds of 60 R210. -/
inductive ErrKind where
  | none
  | malformedContainer
  | invalidHuffmanTable
  | malformedEntropyStream
  | corruptBlock
  | unsupportedColorModel
  | unsupportedFeature
deriving DecidableEq, Repr

/-- Where phase 1 stands (41 R100; log 2): at the SOI check, at the next marker, or past an accepted SOS at the
marker that ends the scan data. -/
inductive ParseAt where
  | soi
  | marker
  | term
deriving DecidableEq, Repr

/-- Where phase 2 stands (43 R157, R158; log 2): at its start, before a block's DC symbol, before an AC symbol, at
a finished block, at a finished MCU, or at the end. -/
inductive DecodeAt where
  | start
  | dc
  | ac
  | blockDone
  | mcuDone
  | finish
deriving DecidableEq, Repr

/-- `PHASE` (10 R33), with the place inside the phase. -/
inductive Phase where
  | idle
  | parse (pt : ParseAt)
  | decode (pt : DecodeAt)
deriving DecidableEq, Repr

/-- The stored CSR fields (10 R24 to R32). `ID` is a constant and `STATUS.BUSY` is `PHASE ≠ IDLE` (log 19). -/
structure Csr where
  irqEn       : Bool
  done        : Bool
  err         : Bool
  errKind     : ErrKind
  inLen       : Nat
  errOffset   : Nat
  errMarker   : BitVec 16
  imgWidth    : BitVec 16
  imgHeight   : BitVec 16
  imgChannels : BitVec 2
  outLen      : Nat
deriving DecidableEq, Repr

/-- A quantization slot `QT[t]` (10 R34), natural order. -/
structure QuantTable where
  valid : Bool
  vals  : Vector (BitVec 16) 64
deriving DecidableEq, Repr

/-- A Huffman slot `HT[k][t]` (10 R35); code length `n` stands at index `n - 1`. -/
structure HuffTable where
  valid   : Bool
  counts  : Vector Byte 16
  syms    : Vector Byte 256
  mincode : Vector (BitVec 17) 16
  valptr  : Vector (BitVec 9) 16
deriving DecidableEq, Repr

/-- The two classes of Huffman tables (10 R35). -/
inductive HuffClass where
  | dc
  | ac
deriving DecidableEq, Repr

/-- `FC_ID[j]`, `FC_H[j]`, `FC_V[j]`, `FC_TQ[j]` (10 R36). -/
structure FrameComp where
  id : Byte
  h  : Nat
  v  : Nat
  tq : Fin 4
deriving DecidableEq, Repr, Inhabited

/-- `FR_VALID`, `FR_X`, `FR_Y`, `FR_NF` and the component registers (10 R36). -/
structure FrameRegs where
  valid : Bool
  x     : BitVec 16
  y     : BitVec 16
  nf    : Nat
  comps : Vector FrameComp 3
deriving DecidableEq, Repr

/-- `SC_TD[j]`, `SC_TA[j]` (10 R37). -/
structure ScanComp where
  td : Fin 4
  ta : Fin 4
deriving DecidableEq, Repr, Inhabited

/-- `SC_VALID`, the table selectors, `SCAN_S` and `SCAN_E` (10 R37). -/
structure ScanRegs where
  valid : Bool
  comps : Vector ScanComp 3
  first : Nat
  stop  : Nat
deriving DecidableEq, Repr

/-- `BPOS`, `BBUF`, `BCNT` (10 R39). -/
structure BitReader where
  bpos : Nat
  bbuf : Byte
  bcnt : Nat
deriving DecidableEq, Repr

/-- `HMAX`, `VMAX`, `MCUX`, `MCUY`, `MCU_IDX` (10 R40). -/
structure McuRegs where
  hmax : Nat
  vmax : Nat
  mcux : Nat
  mcuy : Nat
  idx  : Nat
deriving DecidableEq, Repr

/-- The loop variables `j`, `by`, `bx` of 43 R158 and `k` of 43 R152 (the model's own registers, log 12). -/
structure BlockPos where
  comp : Fin 3
  row  : Nat
  col  : Nat
  k    : Nat
deriving DecidableEq, Repr

/-- A host access as the bus presents it (30 R85). -/
structure HostReq where
  addr : Word
  acc  : Access
deriving DecidableEq, Repr

/-- What the host can do to the machine: a bus access (46 R190) or a pulse on the reset input (70 R230). -/
inductive HostEvent where
  | access (r : HostReq)
  | reset
deriving DecidableEq, Repr

/-- A host event and the number of core steps that run before it (70 R240; log 1). -/
structure HostSlot where
  wait  : Nat
  event : HostEvent
deriving DecidableEq, Repr

/-- The state of MJDEC. The last six fields are the model's own (logs 1, 6, 7, 8, 11). -/
structure State where
  params : Params
  csr    : Csr
  phase  : Phase
  cur    : Nat
  qt     : Vector QuantTable 4
  htDc   : Vector HuffTable 4
  htAc   : Vector HuffTable 4
  frame  : FrameRegs
  scan   : ScanRegs
  pred   : Vector Int 3
  br     : BitReader
  mcu    : McuRegs
  blk    : BlockPos
  zz     : Vector Int 64
  coef   : Vector Int 64
  plane  : Vector (Vector Byte 256) 3
  inBuf  : Memory
  outBuf : Memory
  outOld  : Memory
  host    : List HostSlot
  rdata   : Word
  freeIdx : Nat
  epoch   : Nat
deriving DecidableEq, Repr

/-- Why the machine stops. MJDEC has no bus error and no hang state (46 R197, 60 R221): no step of a run raises it. -/
inductive Fault where
  /-- Raised by a marker's meaning while `PHASE ≠ PARSE`, and by a symbol's meaning at any place but its own in
  DECODE: the spec gives the item no effect there. Safe: the sequencer never presents an item so (log 17). -/
  | outOfPhase
deriving DecidableEq, Repr

/-- Why an item has no meaning. -/
inductive Refusal where
  /-- Raised by an arm of `exec` for an item not modelled yet; safe. No arm raises it now. -/
  | notModelled (mnemonic : String)
deriving DecidableEq, Repr

/-! Reset (10 R44, 70 R230). The internal registers for which R44 says "unspecified" hold 0 (log 9). -/

/-- The CSR fields after reset (10 R22). -/
def Csr.reset : Csr := ⟨false, false, false, .none, 0, 0, 0, 0, 0, 0, 0⟩

/-- A quantization slot after reset: not valid; contents log 9. -/
def QuantTable.reset : QuantTable := ⟨false, Vector.replicate 64 0⟩

/-- A Huffman slot after reset: not valid; contents log 9. -/
def HuffTable.reset : HuffTable :=
  ⟨false, Vector.replicate 16 0, Vector.replicate 256 0, Vector.replicate 16 0, Vector.replicate 16 0⟩

/-- The frame registers after reset: not valid; contents log 9. -/
def FrameRegs.reset : FrameRegs := ⟨false, 0, 0, 0, Vector.replicate 3 ⟨0, 0, 0, 0⟩⟩

/-- The scan registers after reset: not valid; contents log 9. -/
def ScanRegs.reset : ScanRegs := ⟨false, Vector.replicate 3 ⟨0, 0⟩, 0, 0⟩

/-- The machine right after reset (10 R44), with the default parameters and no host access queued. -/
def State.reset : State where
  params := .default
  csr := .reset
  phase := .idle
  cur := 0
  qt := Vector.replicate 4 .reset
  htDc := Vector.replicate 4 .reset
  htAc := Vector.replicate 4 .reset
  frame := .reset
  scan := .reset
  pred := Vector.replicate 3 0
  br := ⟨0, 0, 0⟩
  mcu := ⟨0, 0, 0, 0, 0⟩
  blk := ⟨0, 0, 0, 0⟩
  zz := Vector.replicate 64 0
  coef := Vector.replicate 64 0
  plane := Vector.replicate 3 (Vector.replicate 256 0)
  inBuf := []
  outBuf := []
  outOld := []
  host := []
  rdata := 0
  freeIdx := 0
  epoch := 0

end Sys2Proof.Machine
end

