-- ==== Sys2Proof/Machine/Flags.lean ====
section
/-! DEFINITION. The status flags (spec 10 R25, R43), the interrupt wire (10 R42) and the words the CSRs read as
(10 R22 to R32, 46 R195). MJDEC has no arithmetic flags (10 R43). -/

namespace Sys2Proof.Machine

/-- The code of an error kind (60 R210). -/
def ErrKind.code : ErrKind → BitVec 3
  | .none => 0
  | .malformedContainer => 1
  | .invalidHuffmanTable => 2
  | .malformedEntropyStream => 3
  | .corruptBlock => 4
  | .unsupportedColorModel => 5
  | .unsupportedFeature => 6

/-- `STATUS.BUSY`: 1 while `PHASE ≠ IDLE` (10 R25). -/
def State.busy (s : State) : Bool := decide (s.phase ≠ .idle)

/-- `irq = CTRL.IRQ_EN AND (STATUS.DONE OR STATUS.ERR)` (10 R42, 46 R198). -/
def State.irq (s : State) : Bool := s.csr.irqEn && (s.csr.done || s.csr.err)

/-- A one-bit field in a word. -/
def bit (b : Bool) (n : Nat) : Nat := if b then 2 ^ n else 0

/-- `ID` (10 R23). -/
def idWord : Word := 0x4A504547

/-- `CTRL` as it reads: START reads 0, IRQ_EN at bit 1 (10 R24, 46 R195). -/
def State.ctrlWord (s : State) : Word := BitVec.ofNat 32 (bit s.csr.irqEn 1)

/-- `STATUS` as it reads: BUSY, DONE, ERR at bits 0 to 2, ERR_KIND at bits 6:4 (10 R25). -/
def State.statusWord (s : State) : Word :=
  BitVec.ofNat 32 (bit s.busy 0 + bit s.csr.done 1 + bit s.csr.err 2 + 16 * s.csr.errKind.code.toNat)

/-- A count of `w + 1` bits as it reads, the other bits 0 (10 R26, R27, R32). -/
def countWord (w n : Nat) : Word := BitVec.ofNat 32 (n % 2 ^ (w + 1))

/-- `IN_LEN` as it reads (10 R26). -/
def State.inLenWord (s : State) : Word := countWord s.params.inAddrBits s.csr.inLen

/-- `ERR_OFFSET` as it reads (10 R27). -/
def State.errOffsetWord (s : State) : Word := countWord s.params.inAddrBits s.csr.errOffset

/-- `ERR_MARKER` as it reads (10 R28). -/
def State.errMarkerWord (s : State) : Word := s.csr.errMarker.setWidth 32

/-- `IMG_WIDTH` as it reads (10 R29). -/
def State.imgWidthWord (s : State) : Word := s.csr.imgWidth.setWidth 32

/-- `IMG_HEIGHT` as it reads (10 R30). -/
def State.imgHeightWord (s : State) : Word := s.csr.imgHeight.setWidth 32

/-- `IMG_CHANNELS` as it reads (10 R31). -/
def State.imgChannelsWord (s : State) : Word := s.csr.imgChannels.setWidth 32

/-- `OUT_LEN` as it reads (10 R32). -/
def State.outLenWord (s : State) : Word := countWord s.params.outAddrBits s.csr.outLen

/-- What START does to the CSRs (46 R191): the status, error and image registers are cleared; IRQ_EN and IN_LEN stay
(10 R45). -/
def Csr.clearForStart (c : Csr) : Csr :=
  { c with
    done := false, err := false, errKind := .none, errOffset := 0, errMarker := 0,
    imgWidth := 0, imgHeight := 0, imgChannels := 0, outLen := 0 }

/-- The W1C bits of a STATUS write (46 R192). -/
def Csr.ackStatus (c : Csr) (v : Word) : Csr :=
  { c with
    done := c.done && !v.getLsbD 1
    err := c.err && !v.getLsbD 2 }

/-- What a failure records (60 R214). -/
def Csr.recordFailure (c : Csr) (kind : ErrKind) (off : Nat) (mk : BitVec 16) : Csr :=
  { c with err := true, errKind := kind, errOffset := off, errMarker := mk }

end Sys2Proof.Machine
end

