-- ==== Sys2Proof/Machine/Ops.lean ====
section
/-! DEFINITION. The named operations over the buffers and registers, and the two ways a decode ends: failure
termination, the exception entry of this machine (spec 60 R214), and completion (60 R218). There is no return from a
failure (60 R216). -/

namespace Sys2Proof.Machine

/-! Fixed-size register arrays. -/

/-- The array whose element `i` is `f i`. -/
def tabulate {α : Type} (n : Nat) (f : Nat → α) : Vector α n :=
  ⟨((List.range n).map f).toArray, by simp⟩

/-- Element `i` of a register array; `d` outside it. -/
def getAt {α : Type} {n : Nat} (v : Vector α n) (i : Nat) (d : α) : α :=
  if h : i < n then v[i] else d

/-! The buffers. -/

/-- The byte listed at index `i`. -/
def Memory.read : Memory → Nat → Option Byte
  | [], _ => Memory.unlisted
  | c :: t, i => if c.1 = i then some c.2 else Memory.read t i

/-- Write byte `b` at index `i`, keeping the canonical form. -/
def Memory.write : Memory → Nat → Byte → Memory
  | [], i, b => [(i, b)]
  | c :: t, i, b =>
    if i < c.1 then (i, b) :: c :: t
    else if i = c.1 then (i, b) :: t
    else c :: Memory.write t i b

/-- Write several bytes, first one first. -/
def Memory.writes (m : Memory) (l : List Host.Cell) : Memory :=
  l.foldl (fun m c => m.write c.1 c.2) m

/-- The buffer that holds, below index `n`, the byte of `old` where `keep` says so, and the byte of the second
buffer everywhere else (45 R182). A buffer lists every index its old version lists. -/
def Memory.settle (n : Nat) (keep : Nat → Bool) (old : Memory) : Memory → Memory
  | [] => []
  | c :: t =>
    if c.1 < n ∧ keep c.1 = true then
      match old.read c.1 with
      | some b => (c.1, b) :: Memory.settle n keep old t
      | none => Memory.settle n keep old t
    else c :: Memory.settle n keep old t

/-- `in[i]` (20 R56); a byte nothing has written since reset is a free value (log 6). -/
def State.inByte (s : State) (i : Nat) : Byte :=
  (s.inBuf.read i).getD (Config.powerOnIn s.epoch i)

/-- `out[i]` as the core's writes left it (20 R57); unwritten bytes as for `in[i]` (log 6). -/
def State.outByte (s : State) (i : Nat) : Byte :=
  (s.outBuf.read i).getD (Config.powerOnOut s.epoch i)

/-- `out[i]` as it was when the decode started. -/
def State.outByteOld (s : State) (i : Nat) : Byte :=
  (s.outOld.read i).getD (Config.powerOnOut s.epoch i)

/-- What a host read sees of `out[i]`: while busy, the value before the decode or the value written since, freely
(20 R65(c); log 7). -/
def State.outSeen (s : State) (i : Nat) : Byte :=
  if s.busy ∧ Config.busyReadSeesOld s.freeIdx i = true then s.outByteOld i else s.outByte i

/-! The Huffman store. -/

/-- `HT[k]`, the four slots of a class (10 R35). -/
def State.ht (s : State) : HuffClass → Vector HuffTable 4
  | .dc => s.htDc
  | .ac => s.htAc

/-- Replace the four slots of a class. -/
def State.setHt (s : State) (k : HuffClass) (v : Vector HuffTable 4) : State :=
  match k with
  | .dc => { s with htDc := v }
  | .ac => { s with htAc := v }

/-! Frame and scan components. -/

/-- `FC_ID[j]`, `FC_H[j]`, `FC_V[j]`, `FC_TQ[j]` (10 R36). -/
def FrameRegs.comp (f : FrameRegs) (j : Nat) : FrameComp := getAt f.comps j default

/-- `SC_TD[j]`, `SC_TA[j]` (10 R37). -/
def ScanRegs.comp (r : ScanRegs) (j : Nat) : ScanComp := getAt r.comps j default

/-! How a decode ends. -/

/-- `raise Fail(kind, off, mk)`: failure termination (60 R214), one atomic step. -/
def State.raise (s : State) (kind : ErrKind) (off : Nat) (mk : BitVec 16) : State :=
  { s with csr := s.csr.recordFailure kind off mk, phase := .idle }

/-- OUT_BUF after a failure in phase 2: each byte below OUT_LEN is the byte before the decode or the byte the decode
computed, freely (45 R182; log 8). -/
def State.settleOut (s : State) : State :=
  { s with
    outBuf := Memory.settle s.csr.outLen (Config.failureKeepsOld s.freeIdx) s.outOld s.outBuf
    freeIdx := s.freeIdx + 1 }

/-- A failure in phase 2: context `BPOS` and marker SOS (60 R215). -/
def State.failScan (s : State) (kind : ErrKind) : State :=
  s.settleOut.raise kind s.br.bpos 0xFFDA

/-- Successful completion (60 R218). -/
def State.complete (s : State) : State :=
  { s with csr := { s.csr with done := true }, phase := .idle }

/-! Starting a decode, and reset. -/

/-- Invalidate a quantization slot (46 R191). -/
def QuantTable.invalidate (t : QuantTable) : QuantTable := { t with valid := false }

/-- Invalidate a Huffman slot (46 R191). -/
def HuffTable.invalidate (t : HuffTable) : HuffTable := { t with valid := false }

/-- START (46 R191): clear the status, error and image registers and every valid bit, and enter PARSE at the SOI
check (41 R100). OUT_BUF is remembered as "before the decode" (log 7). -/
def State.startDecode (s : State) : State :=
  { s with
    csr := s.csr.clearForStart
    qt := s.qt.map QuantTable.invalidate
    htDc := s.htDc.map HuffTable.invalidate
    htAc := s.htAc.map HuffTable.invalidate
    frame := { s.frame with valid := false }
    scan := { s.scan with valid := false }
    phase := .parse .soi
    outOld := s.outBuf }

/-- Hardware reset (70 R230): every piece of state as 10 R44 says; the parameters and the host's later events stay,
the free draws go on, and the buffers' contents are fresh free values (log 10). -/
def State.hardReset (s : State) : State :=
  { State.reset with
    params := s.params
    host := s.host
    freeIdx := s.freeIdx
    epoch := s.epoch + 1 }

end Sys2Proof.Machine
end

