-- ==== Sys2Proof/Machine/Operands.lean ====
section
/-! DEFINITION. Operand forms: nibbles and 16-bit fields of a segment (spec 30 R74 to R78), the length and payload of
a segment (41 R104), the sign-forming EXTEND (42 R145), rounding and clamping (00 R12), and the access forms of the
host bus (20 R60, R61). -/

namespace Sys2Proof.Machine

/-- `b[7:4]` (00 R11). -/
def hiNibble (b : Byte) : Nat := b.toNat / 16

/-- `b[3:0]` (00 R11). -/
def loNibble (b : Byte) : Nat := b.toNat % 16

/-- A 16-bit big-endian field (00 R11, 20 R59). -/
def be16 (hi lo : Byte) : Nat := hi.toNat * 256 + lo.toNat

/-- `be16(i)` of the stream (00 R11). -/
def State.be16At (s : State) (i : Nat) : Nat := be16 (s.inByte i) (s.inByte (i + 1))

/-- The `n` stream bytes from index `i` on. -/
def State.inBytes (s : State) (i n : Nat) : List Byte := (List.range n).map (fun k => s.inByte (i + k))

/-- `Lh` of a segment whose code byte ends at `at_`, if it passes the checks of 41 R104: the length field is inside
the stream, `Lh ≥ 2`, and the segment is inside the stream. -/
def State.segLength (s : State) (start : Nat) : Option Nat :=
  if s.csr.inLen < start + 2 then none
  else
    let lh := s.be16At start
    if lh < 2 then none
    else if s.csr.inLen < start + lh then none
    else some lh

/-- The payload `p[0 .. Lh-3]` of a segment (41 R104). -/
def State.payload (s : State) (start lh : Nat) : List Byte := s.inBytes (start + 2) (lh - 2)

/-- Payload byte `i`. -/
def byteAt (p : List Byte) (i : Nat) : Byte := p.getD i 0

/-- `EXTEND(v, s)` (42 R145). -/
def extend (v s : Nat) : Int :=
  if s = 0 then 0
  else if v < 2 ^ (s - 1) then (v : Int) - 2 ^ s + 1
  else v

/-- `clamp8(v) = min(255, max(0, v))` (00 R12). -/
def clamp8 (v : Int) : Int := min 255 (max 0 v)

/-- A clamped value as a byte. -/
def clampByte (v : Int) : Byte := BitVec.ofNat 8 (clamp8 v).toNat

/-- `rhu(n, d) = (n + d div 2) div d`, round half up (00 R12). -/
def rhu (n d : Int) : Int := (n + d / 2) / d

/-- `b >> n` on an integer: floor division by `2^n` (00 R11). -/
def shr (v : Int) (n : Nat) : Int := v / 2 ^ n

/-- A CSR access is performed only as an aligned 32-bit word (20 R61). -/
abbrev csrForm (lane : BitVec 2) (a : Access) : Prop := a.width = .four ∧ lane = 0

/-- A buffer access of one byte (20 R61: any address). -/
abbrev byteForm (a : Access) : Prop := a.width = .one

/-- A buffer access of four bytes (20 R61: address a multiple of 4). -/
abbrev wordForm (i : Nat) (a : Access) : Prop := a.width = .four ∧ i % 4 = 0

/-- A 32-bit word from four buffer bytes, lowest index least significant (20 R60). -/
def leWord (b0 b1 b2 b3 : Byte) : Word := b3 ++ b2 ++ b1 ++ b0

/-- Lane `k` of a word (20 R60). -/
def laneOf (v : Word) (k : Nat) : Byte := v.extractLsb' (8 * k) 8

end Sys2Proof.Machine
end

