-- ==== Sys2Proof/Machine/Segment.lean ====
section
/-! DEFINITION. The operations every marker shares: what a marker does at each place of phase 1 (spec 41 R100, R102,
R109, R126), the segment length check (R104), the skip (R108), the end of the scan data (R125), the walk for a second
SOS (R127) and the end of phase 1 (R128). When a marker's meaning runs, `cur` is the index of the `0xFF` immediately
before its code byte, the `moff` of the spec (log 3). -/

namespace Sys2Proof.Machine

/-- The 16-bit value of a marker (30 R71). -/
def markerValue (code : Byte) : BitVec 16 := 0xFF#8 ++ code

/-- A marker at the three places of phase 1: where the SOI must stand (R102: every other marker fails there), before
the scan (`pre`), and as the terminating marker (`post`). Elsewhere the spec gives it no effect (log 17). -/
def atMarker (pre post : State → State) (s : State) : Host.Outcome State Fault Refusal :=
  match s.phase with
  | .parse .soi => .next (s.raise .malformedContainer 0 0x0000)
  | .parse .marker => .next (pre s)
  | .parse .term => .next (post s)
  | .idle => .fault .outOfPhase
  | .decode _ => .fault .outOfPhase

/-- `cur` past the marker's code byte (41 R101). -/
def State.pastMarker (s : State) : State := { s with cur := s.cur + 2 }

/-- A failure inside a stand-alone marker's rule: context `moff` and the marker (60 R215). -/
def failMarker (kind : ErrKind) (code : Byte) (s : State) : State :=
  s.pastMarker.raise kind s.cur (markerValue code)

/-- A length-bearing marker before the scan: the length check of 41 R104, then the segment's own rule on `moff`, the
payload and `segend`. -/
def segment (code : Byte) (body : (moff : Nat) → (p : List Byte) → (segend : Nat) → State → State) (s : State) :
    State :=
  match s.segLength (s.cur + 2) with
  | none => failMarker .malformedContainer code s
  | some lh => body s.cur (s.payload (s.cur + 2) lh) (s.cur + 2 + lh) s.pastMarker

/-- `cur <- segend` (41 R108, R109). -/
def State.skipTo (s : State) (segend : Nat) : State := { s with cur := segend }

/-- The skip procedure of 41 R108. -/
def skipSegment (code : Byte) : State → State := segment code (fun _ _ segend s => s.skipTo segend)

/-- An unsupported segment, 41 R300 to R314: UnsupportedFeature at `moff`, after its length check. -/
def unsupportedSegment (code : Byte) : State → State :=
  segment code (fun moff _ _ s => s.raise .unsupportedFeature moff (markerValue code))

/-! Past the scan data. -/

/-- The least index `q` from `q` on with `q + 1 < IN_LEN`, `in[q] = 0xFF` and `in[q+1] ≠ 0x00`; IN_LEN if there is
none (41 R125). `fuel` bounds the search. -/
def State.scanEndFrom (s : State) : (fuel q : Nat) → Nat
  | 0, _ => s.csr.inLen
  | fuel + 1, q =>
    if q + 1 < s.csr.inLen then
      if s.inByte q = 0xFF ∧ s.inByte (q + 1) ≠ 0x00 then q else s.scanEndFrom fuel (q + 1)
    else s.csr.inLen

/-- `SCAN_E` of the scan data that starts at `first` (41 R125). -/
def State.scanEnd (s : State) (first : Nat) : Nat := s.scanEndFrom (s.csr.inLen - first) first

/-- The walk for a second SOS from index `w` (41 R127): the index of the `0xFF` immediately before its `DA`, if the
walk finds one. A fill byte is stepped over one at a time. `fuel` bounds the walk. -/
def State.walkFrom (s : State) : (fuel w : Nat) → Option Nat
  | 0, _ => none
  | fuel + 1, w =>
    if s.csr.inLen ≤ w + 1 ∨ s.inByte w ≠ 0xFF then none
    else
      let c := (s.inByte (w + 1)).toNat
      if c = 0xFF then s.walkFrom fuel (w + 1)
      else if c = 0x00 ∨ c = 0xD8 ∨ c = 0xD9 then none
      else if (0xD0 ≤ c ∧ c ≤ 0xD7) ∨ c = 0x01 then s.walkFrom fuel (w + 2)
      else if c = 0xDA then some w
      else
        match s.segLength (w + 2) with
        | none => none
        | some l => s.walkFrom fuel (w + 2 + l)

/-- The walk of 41 R127 from index `w`. -/
def State.walk (s : State) (w : Nat) : Option Nat := s.walkFrom (s.csr.inLen - w) w

/-- `after(r, t)` of 41 R126 for the terminating marker at `cur`: where the walk starts, if it is performed. -/
def State.afterTerminator (s : State) (code : Byte) : Option Nat :=
  if code = 0x01 then some (s.cur + 2)
  else (s.segLength (s.cur + 2)).map (fun l => s.cur + 2 + l)

/-- The "otherwise" row of 41 R126: the walk, then UnsupportedFeature at the SOS it finds, or
MalformedEntropyStream at the terminating marker. -/
def walkForSos (code : Byte) (s : State) : State :=
  match (s.afterTerminator code).bind s.walk with
  | some w => s.raise .unsupportedFeature w 0xFFDA
  | none => s.raise .malformedEntropyStream s.cur (markerValue code)

/-- A failure at the terminating marker (41 R126): context `toff` and the marker. -/
def failTerminator (kind : ErrKind) (code : Byte) (s : State) : State :=
  s.raise kind s.cur (markerValue code)

/-- The end of phase 1 (41 R128): phase 2 starts with 43 R157. -/
def State.endPhase1 (s : State) : State := { s with phase := .decode .start }

/-- A fill byte (41 R101, R126): the marker's `0xFF` is the next byte. -/
def State.skipFill (s : State) : State := { s with cur := s.cur + 1 }

end Sys2Proof.Machine
end

