-- ==== Sys2Proof/Machine/Frame.lean ====
section
/-! DEFINITION. The frame header SOF0 (spec 41 R114 to R117, payload 30 R77). The checks are made in the order
written and the first failing one decides the kind (41 R129); the registers are written only after all of them. -/

namespace Sys2Proof.Machine

/-- The fields of an SOF0 payload that passed its checks. -/
structure SofFields where
  x     : BitVec 16
  y     : BitVec 16
  nf    : Nat
  comps : List FrameComp

/-- The component checks of 41 R116 for the next `n` components; `seen` are the ids before them. -/
def sofComps : (n : Nat) → (seen : List Byte) → List Byte → Except ErrKind (List FrameComp)
  | 0, _, _ => .ok []
  | n + 1, seen, c :: hv :: t :: p =>
    let h := hiNibble hv
    let v := loNibble hv
    if c ∈ seen then .error .malformedContainer
    else if h < 1 ∨ 4 < h ∨ v < 1 ∨ 4 < v then .error .malformedContainer
    else if slot : t.toNat < 4 then
      if 2 < h ∨ 2 < v then .error .unsupportedFeature
      else
        match sofComps n (c :: seen) p with
        | .error kind => .error kind
        | .ok cs => .ok (⟨c, h, v, ⟨t.toNat, slot⟩⟩ :: cs)
    else .error .malformedContainer
  | _ + 1, _, _ => .error .malformedContainer

/-- All checks of 41 R114 to R117 on payload `p`, in order. -/
def sofParse (frValid : Bool) (outMax : Nat) (p : List Byte) : Except ErrKind SofFields :=
  let precision := (byteAt p 0).toNat
  let y := be16 (byteAt p 1) (byteAt p 2)
  let x := be16 (byteAt p 3) (byteAt p 4)
  let nf := (byteAt p 5).toNat
  if frValid then .error .malformedContainer
  else if p.length < 6 then .error .malformedContainer
  else if p.length ≠ 6 + 3 * nf then .error .malformedContainer
  else if precision ≠ 8 then .error .unsupportedFeature
  else if nf ≠ 1 ∧ nf ≠ 3 then .error .unsupportedColorModel
  else if x = 0 then .error .malformedContainer
  else if y = 0 then .error .unsupportedFeature
  else
    match sofComps nf [] (p.drop 6) with
    | .error kind => .error kind
    | .ok comps =>
      if outMax < x * y * nf then .error .unsupportedFeature
      else .ok ⟨BitVec.ofNat 16 x, BitVec.ofNat 16 y, nf, comps⟩

/-- The acceptance of 41 R117: the frame registers and four CSRs. Component registers at and above `Nf` are not
written. -/
def State.acceptFrame (s : State) (f : SofFields) : State :=
  { s with
    frame :=
      { valid := true
        x := f.x
        y := f.y
        nf := f.nf
        comps := tabulate 3 (fun j =>
          if j < f.nf then f.comps.getD j default else getAt s.frame.comps j default) }
    csr :=
      { s.csr with
        imgWidth := f.x
        imgHeight := f.y
        imgChannels := BitVec.ofNat 2 f.nf
        outLen := f.x.toNat * f.y.toNat * f.nf } }

/-- SOF0 (41 R114 to R117); past the scan data the walk (R126). -/
def execSof0 (s : State) : Host.Outcome State Fault Refusal :=
  atMarker
    (segment 0xC0 (fun moff p segend s =>
      match sofParse s.frame.valid s.params.outMax p with
      | .error kind => s.raise kind moff 0xFFC0
      | .ok f => (s.acceptFrame f).skipTo segend))
    (walkForSos 0xC0) s

end Sys2Proof.Machine
end

