-- ==== Sys2Proof/Machine/HostAccess.lean ====
section
/-! DEFINITION. The host accesses (spec 46 R190 to R197, 20 R58 to R63). Every access completes; one whose width or
alignment is not allowed reads 0 and writes nothing (20 R61). The word a read returns is left in `rdata` (log 11). -/

namespace Sys2Proof.Machine

/-- The host receives `v`. -/
def State.answer (s : State) (v : Word) : State := { s with rdata := v }

/-- An access that is not performed (20 R58 RAZ/WI, R61). -/
def ignoredAccess (a : Access) (s : State) : State :=
  match a.dir with
  | .read => s.answer 0
  | .write => s

/-- A CSR access (20 R61): a read answers `rd`, a write does `wr`. -/
def csrAccess (lane : BitVec 2) (a : Access) (rd : Word) (wr : State → State) (s : State) : State :=
  if csrForm lane a then
    match a.dir with
    | .read => s.answer rd
    | .write => wr s
  else ignoredAccess a s

/-- A CSR that ignores writes (46 R197). -/
def readOnlyCsr (lane : BitVec 2) (a : Access) (rd : Word) : State → State := csrAccess lane a rd id

/-- CTRL_WR (46 R191): IRQ_EN is written by every write; START is taken only while not busy. -/
def State.writeCtrl (v : Word) (s : State) : State :=
  let s1 := { s with csr := { s.csr with irqEn := v.getLsbD 1 } }
  if v.getLsbD 0 = true ∧ s.busy = false then s1.startDecode else s1

/-- STATUS_WR (46 R192). -/
def State.writeStatus (v : Word) (s : State) : State := { s with csr := s.csr.ackStatus v }

/-- IN_LEN_WR (46 R193, 10 R26): dropped while busy. -/
def State.writeInLen (v : Word) (s : State) : State :=
  if s.busy then s else { s with csr := { s.csr with inLen := min v.toNat s.params.inMax } }

/-- The bytes a buffer write stores from index `i` on (46 R194, 20 R60); none for a form that is not allowed. -/
def storedBytes (i : Nat) (a : Access) : List Host.Cell :=
  if byteForm a then [(i, laneOf a.data 0)]
  else if wordForm i a then (List.range 4).map (fun k => (i + k, laneOf a.data k))
  else []

/-- The word a buffer read returns from the bytes `rd` (46 R196, 20 R60, R61). -/
def loadedWord (rd : Nat → Byte) (i : Nat) (a : Access) : Word :=
  if byteForm a then (rd i).setWidth 32
  else if wordForm i a then leWord (rd i) (rd (i + 1)) (rd (i + 2)) (rd (i + 3))
  else 0

/-- ID (10 R23, 46 R195, R197). -/
def execCsrId (lane : BitVec 2) (a : Access) (s : State) : Host.Outcome State Fault Refusal :=
  .next (readOnlyCsr lane a idWord s)

/-- CTRL (46 R191, R195). -/
def execCsrCtrl (lane : BitVec 2) (a : Access) (s : State) : Host.Outcome State Fault Refusal :=
  .next (csrAccess lane a s.ctrlWord (State.writeCtrl a.data) s)

/-- STATUS (46 R192, R195). -/
def execCsrStatus (lane : BitVec 2) (a : Access) (s : State) : Host.Outcome State Fault Refusal :=
  .next (csrAccess lane a s.statusWord (State.writeStatus a.data) s)

/-- IN_LEN (46 R193, R195). -/
def execCsrInLen (lane : BitVec 2) (a : Access) (s : State) : Host.Outcome State Fault Refusal :=
  .next (csrAccess lane a s.inLenWord (State.writeInLen a.data) s)

/-- ERR_OFFSET (10 R27, 46 R195, R197). -/
def execCsrErrOffset (lane : BitVec 2) (a : Access) (s : State) : Host.Outcome State Fault Refusal :=
  .next (readOnlyCsr lane a s.errOffsetWord s)

/-- ERR_MARKER (10 R28, 46 R195, R197). -/
def execCsrErrMarker (lane : BitVec 2) (a : Access) (s : State) : Host.Outcome State Fault Refusal :=
  .next (readOnlyCsr lane a s.errMarkerWord s)

/-- IMG_WIDTH (10 R29, 46 R195, R197). -/
def execCsrImgWidth (lane : BitVec 2) (a : Access) (s : State) : Host.Outcome State Fault Refusal :=
  .next (readOnlyCsr lane a s.imgWidthWord s)

/-- IMG_HEIGHT (10 R30, 46 R195, R197). -/
def execCsrImgHeight (lane : BitVec 2) (a : Access) (s : State) : Host.Outcome State Fault Refusal :=
  .next (readOnlyCsr lane a s.imgHeightWord s)

/-- IMG_CHANNELS (10 R31, 46 R195, R197). -/
def execCsrImgChannels (lane : BitVec 2) (a : Access) (s : State) : Host.Outcome State Fault Refusal :=
  .next (readOnlyCsr lane a s.imgChannelsWord s)

/-- OUT_LEN (10 R32, 46 R195, R197). -/
def execCsrOutLen (lane : BitVec 2) (a : Access) (s : State) : Host.Outcome State Fault Refusal :=
  .next (readOnlyCsr lane a s.outLenWord s)

/-- A reserved CSR offset: RAZ/WI (46 R197). -/
def execCsrRsvd (_offset : BitVec 12) (a : Access) (s : State) : Host.Outcome State Fault Refusal :=
  .next (ignoredAccess a s)

/-- IN_BUF (46 R194, R196): writes are dropped while busy. -/
def execInbuf (i : BitVec 24) (a : Access) (s : State) : Host.Outcome State Fault Refusal :=
  match a.dir with
  | .read => .next (s.answer (loadedWord s.inByte i.toNat a))
  | .write =>
    .next (if s.busy then s else { s with inBuf := s.inBuf.writes (storedBytes i.toNat a) })

/-- OUT_BUF (46 R194, R196): writes are dropped while busy; a read while busy is a race between the old and the
written byte (20 R65(c)) and uses up one free draw (log 7). -/
def execOutbuf (i : BitVec 24) (a : Access) (s : State) : Host.Outcome State Fault Refusal :=
  match a.dir with
  | .read =>
    .next
      { s.answer (loadedWord s.outSeen i.toNat a) with
        freeIdx := if s.busy ∧ (byteForm a ∨ wordForm i.toNat a) then s.freeIdx + 1 else s.freeIdx }
  | .write =>
    .next (if s.busy then s else { s with outBuf := s.outBuf.writes (storedBytes i.toNat a) })

/-- An unmapped address: RAZ/WI (20 R58). -/
def execUnmapped (_addr : BitVec 32) (a : Access) (s : State) : Host.Outcome State Fault Refusal :=
  .next (ignoredAccess a s)

end Sys2Proof.Machine
end

