-- ==== Sys2Proof/Machine/Scan.lean ====
section
/-! DEFINITION. The scan header SOS (spec 41 R120 to R125, payload 30 R78). The checks are made in the order written
(41 R129). An accepted SOS fixes the scan data range and leaves the core at the terminating marker (R126; log 3). -/

namespace Sys2Proof.Machine

/-- The component checks of 41 R121 for the next `n` scan components, from component `j` on. -/
def sosComps (f : FrameRegs) : (n j : Nat) → List Byte → Except ErrKind (List ScanComp)
  | 0, _, _ => .ok []
  | n + 1, j, cs :: t :: p =>
    if f.nf ≤ j ∨ cs ≠ (f.comp j).id then .error .malformedContainer
    else if td : hiNibble t < 4 then
      if ta : loNibble t < 4 then
        match sosComps f n (j + 1) p with
        | .error kind => .error kind
        | .ok l => .ok (⟨⟨hiNibble t, td⟩, ⟨loNibble t, ta⟩⟩ :: l)
      else .error .malformedContainer
    else .error .malformedContainer
  | _ + 1, _, _ => .error .malformedContainer

/-- The table presence check of 41 R123 for component `j` with selectors `c`. -/
def State.tablesPresent (s : State) (j : Nat) (c : ScanComp) : Bool :=
  (s.qt[(s.frame.comp j).tq.val]).valid && (s.htDc[c.td.val]).valid && (s.htAc[c.ta.val]).valid

/-- All checks of 41 R120 to R123 on payload `p`, in order. -/
def sosParse (s : State) (p : List Byte) : Except ErrKind (List ScanComp) :=
  let ns := (byteAt p 0).toNat
  if s.frame.valid = false then .error .malformedContainer
  else if p.length < 1 then .error .malformedContainer
  else if ns < 1 ∨ 4 < ns then .error .malformedContainer
  else if p.length ≠ 4 + 2 * ns then .error .malformedContainer
  else
    match sosComps s.frame ns 0 (p.drop 1) with
    | .error kind => .error kind
    | .ok comps =>
      if ns ≠ s.frame.nf then .error .unsupportedFeature
      else if (byteAt p (1 + 2 * ns)).toNat ≠ 0 ∨ (byteAt p (2 + 2 * ns)).toNat ≠ 63 ∨
          (byteAt p (3 + 2 * ns)).toNat ≠ 0 then .error .unsupportedFeature
      else if (List.range s.frame.nf).all (fun j => s.tablesPresent j (comps.getD j default)) then
        .ok comps
      else .error .malformedContainer

/-- The acceptance of 41 R124, with the scan data range of R125; `cur` goes to SCAN_E, where the terminating marker
is looked for (log 3). -/
def State.acceptScan (s : State) (comps : List ScanComp) (segend : Nat) : State :=
  { s with
    scan :=
      { valid := true
        comps := tabulate 3 (fun j =>
          if j < s.frame.nf then comps.getD j default else getAt s.scan.comps j default)
        first := segend
        stop := s.scanEnd segend }
    cur := s.scanEnd segend
    phase := .parse .term }

/-- SOS (41 R120 to R125); past the scan data a second scan, UnsupportedFeature (R126). -/
def execSos (s : State) : Host.Outcome State Fault Refusal :=
  atMarker
    (segment 0xDA (fun moff p segend s =>
      match sosParse s p with
      | .error kind => s.raise kind moff 0xFFDA
      | .ok comps => s.acceptScan comps segend))
    (failTerminator .unsupportedFeature 0xDA) s

end Sys2Proof.Machine
end

