-- ==== Sys2Proof/Machine/Skipped.lean ====
section
/-! DEFINITION. The meanings of the segments that are skipped by length before the scan (spec 41 R108, R315 to R321);
past the scan data each starts the walk (R126). -/

namespace Sys2Proof.Machine

/-- RES, codes 0x02..0xBF (41 R317). -/
def execRes (code : BitVec 8) (s : State) : Host.Outcome State Fault Refusal :=
  atMarker (skipSegment code) (walkForSos code) s

/-- JPG (41 R318). -/
def execJpg (s : State) : Host.Outcome State Fault Refusal := atMarker (skipSegment 0xC8) (walkForSos 0xC8) s

/-- DHP (41 R320). -/
def execDhp (s : State) : Host.Outcome State Fault Refusal := atMarker (skipSegment 0xDE) (walkForSos 0xDE) s

/-- EXP (41 R321). -/
def execExp (s : State) : Host.Outcome State Fault Refusal := atMarker (skipSegment 0xDF) (walkForSos 0xDF) s

/-- APPn (41 R315). -/
def execAppn (n : BitVec 4) (s : State) : Host.Outcome State Fault Refusal :=
  atMarker (skipSegment (0xE#4 ++ n)) (walkForSos (0xE#4 ++ n)) s

/-- JPGn (41 R319). -/
def execJpgn (n : BitVec 4) (s : State) : Host.Outcome State Fault Refusal :=
  atMarker (skipSegment (0xF#4 ++ n)) (walkForSos (0xF#4 ++ n)) s

/-- COM (41 R316). -/
def execCom (s : State) : Host.Outcome State Fault Refusal := atMarker (skipSegment 0xFE) (walkForSos 0xFE) s

end Sys2Proof.Machine
end

