-- ==== Sys2Proof/Machine/BitReader.lean ====
section
/-! DEFINITION. The bit reader and the bit-serial Huffman match (spec 42 R140 to R146). `rd i` is stream byte `i` and
`lim` is SCAN_E. -/

namespace Sys2Proof.Machine

/-- The result of a read from the scan data: a value and the reader after it, or a MalformedEntropyStream failure
with the reader where it was detected. -/
inductive BitRes (α : Type) where
  | ok (v : α) (br : BitReader)
  | fail (br : BitReader)
deriving Repr

/-- Load a stuffed pair `FF 00` as the data byte 0xFF (42 R140, 30 R80). -/
def BitReader.loadStuffed (b : BitReader) : BitReader := ⟨b.bpos + 2, 0xFF, 8⟩

/-- Load a plain data byte (42 R140). -/
def BitReader.loadPlain (b : BitReader) (v : Byte) : BitReader := ⟨b.bpos + 1, v, 8⟩

/-- `fill()` (42 R140); `none` is the failure, at the unchanged `BPOS`. -/
def BitReader.fill (rd : Nat → Byte) (lim : Nat) (b : BitReader) : Option BitReader :=
  if lim ≤ b.bpos then none
  else if rd b.bpos = 0xFF then
    if b.bpos + 1 < lim ∧ rd (b.bpos + 1) = 0x00 then some b.loadStuffed else none
  else some (b.loadPlain (rd b.bpos))

/-- `readBit()` (42 R141). -/
def BitReader.readBit (rd : Nat → Byte) (lim : Nat) (b : BitReader) : BitRes Nat :=
  match (if b.bcnt = 0 then b.fill rd lim else some b) with
  | none => .fail b
  | some b' => .ok (b'.bbuf.getLsbD (b'.bcnt - 1)).toNat { b' with bcnt := b'.bcnt - 1 }

/-- `readBits(n)` continued from the value `v` of the bits read so far (42 R142). -/
def BitReader.readMore (rd : Nat → Byte) (lim : Nat) : (n v : Nat) → BitReader → BitRes Nat
  | 0, v, b => .ok v b
  | n + 1, v, b =>
    match b.readBit rd lim with
    | .fail b' => .fail b'
    | .ok x b' => BitReader.readMore rd lim n (2 * v + x) b'

/-- `readBits(n)` (42 R142). -/
def BitReader.readBits (rd : Nat → Byte) (lim n : Nat) (b : BitReader) : BitRes Nat :=
  BitReader.readMore rd lim n 0 b

/-- The symbol of code `code` of length `n` in a table, if the table has that code (42 R143). -/
def HuffTable.lookup (t : HuffTable) (n code : Nat) : Option Byte :=
  let count := (getAt t.counts (n - 1) 0).toNat
  let first := (getAt t.mincode (n - 1) 0).toNat
  if 0 < count ∧ first ≤ code ∧ code < first + count then
    some (getAt t.syms ((getAt t.valptr (n - 1) 0).toNat + code - first) 0)
  else none

/-- `decodeHuffman(T)` continued at code length `n` with `rem` lengths left (42 R143). -/
def HuffTable.decodeFrom (t : HuffTable) (rd : Nat → Byte) (lim : Nat) :
    (rem n code : Nat) → BitReader → BitRes Byte
  | 0, _, _, b => .fail b
  | rem + 1, n, code, b =>
    match b.readBit rd lim with
    | .fail b' => .fail b'
    | .ok x b' =>
      match t.lookup n (2 * code + x) with
      | some sym => .ok sym b'
      | none => HuffTable.decodeFrom t rd lim rem (n + 1) (2 * code + x) b'

/-- `decodeHuffman(T)` (42 R143). -/
def HuffTable.decodeSym (t : HuffTable) (rd : Nat → Byte) (lim : Nat) (b : BitReader) : BitRes Byte :=
  t.decodeFrom rd lim 16 1 0 b

end Sys2Proof.Machine
end

