-- ==== Sys2Proof/Machine/StandAlone.lean ====
section
/-! DEFINITION. The meanings of the stand-alone markers and of the two codes that are no markers: STUFF00, FILL, TEM,
RSTm, SOI, EOI (spec 30 R73, 41 R101 to R107, R126). -/

namespace Sys2Proof.Machine

/-- STUFF00 (30 R73): at a marker position a MalformedContainer failure (41 R101); after fill bytes past the scan
data MalformedEntropyStream (41 R126); in scan data the stuffed data byte 0xFF, which the bit reader loads when it
holds no bit (30 R80, 42 R140; log 18). -/
def execStuff00 (s : State) : Host.Outcome State Fault Refusal :=
  match s.phase with
  | .decode .dc => if s.br.bcnt = 0 then .next { s with br := s.br.loadStuffed } else .fault .outOfPhase
  | .decode .ac => if s.br.bcnt = 0 then .next { s with br := s.br.loadStuffed } else .fault .outOfPhase
  | _ =>
    atMarker (fun s => s.raise .malformedContainer s.cur 0xFF00)
      (failTerminator .malformedEntropyStream 0x00) s

/-- FILL (41 R101, R126): a fill byte is skipped; at the start of the stream it is no SOI (41 R102). -/
def execFill (s : State) : Host.Outcome State Fault Refusal := atMarker State.skipFill State.skipFill s

/-- TEM (41 R107): ignored before the scan; past it, the walk (41 R126). -/
def execTem (s : State) : Host.Outcome State Fault Refusal := atMarker State.pastMarker (walkForSos 0x01) s

/-- RSTm (41 R106, R126). -/
def execRstm (m : BitVec 3) (s : State) : Host.Outcome State Fault Refusal :=
  atMarker (failMarker .malformedContainer (0b11010#5 ++ m))
    (failTerminator .unsupportedFeature (0b11010#5 ++ m)) s

/-- SOI: at the start of the stream `cur <- 2` (41 R100, R102); inside the header MalformedContainer (R105); as the
terminating marker MalformedEntropyStream (R126). -/
def execSoi (s : State) : Host.Outcome State Fault Refusal :=
  match s.phase with
  | .parse .soi => .next { s with cur := 2, phase := .parse .marker }
  | _ => atMarker (failMarker .malformedContainer 0xD8) (failTerminator .malformedEntropyStream 0xD8) s

/-- EOI: inside the header MalformedContainer (41 R105); as the terminating marker the end of phase 1 (R126, R128). -/
def execEoi (s : State) : Host.Outcome State Fault Refusal :=
  atMarker (failMarker .malformedContainer 0xD9) State.endPhase1 s

end Sys2Proof.Machine
end

