-- ==== Sys2Proof/Machine/Symbols.lean ====
section
/-! DEFINITION. The meanings of the DC and AC symbols (spec 43 R150 to R155). When a symbol's meaning runs, the bit
reader stands just past the symbol's Huffman code; the meaning reads the raw bits. The block position `k` is
`blk.k`. -/

namespace Sys2Proof.Machine

/-- A DC symbol's place: the beginning of a block (43 R150). Elsewhere the spec gives it no effect (log 17). -/
def atDc (f : State → State) (s : State) : Host.Outcome State Fault Refusal :=
  match s.phase with
  | .decode .dc => .next (f s)
  | _ => .fault .outOfPhase

/-- An AC symbol's place: inside a block (43 R152). Elsewhere the spec gives it no effect (log 17). -/
def atAc (f : State → State) (s : State) : Host.Outcome State Fault Refusal :=
  match s.phase with
  | .decode .ac => .next (f s)
  | _ => .fault .outOfPhase

/-- Read `n` raw bits (42 R142) and go on with their value; a failure is MalformedEntropyStream (42 R140). -/
def State.withRaw (s : State) (n : Nat) (f : Nat → State → State) : State :=
  match s.br.readBits s.inByte s.scan.stop n with
  | .fail br => State.failScan { s with br := br } .malformedEntropyStream
  | .ok v br => f v { s with br := br }

/-- `ZZ[0..63] <- 0`, the first line of `decode_block` (43 R150). -/
def State.clearZz (s : State) : State := { s with zz := Vector.replicate 64 0 }

/-- The DC part once the difference is known (43 R150): update the predictor, clear the block and set its DC
coefficient, and enter the AC loop at `k = 1` (R152). -/
def State.setDc (diff : Int) (s : State) : State :=
  let p := s.pred[s.blk.comp.val] + diff
  { s with
    pred := s.pred.set s.blk.comp.val p
    zz := (Vector.replicate 64 0).set 0 p
    blk := { s.blk with k := 1 }
    phase := .decode .ac }

/-- The AC loop at position `k` (43 R152): it ends when `k` reaches 64. -/
def State.acAt (s : State) (k : Nat) : State :=
  { s with
    blk := { s.blk with k := k }
    phase := if k < 64 then .decode .ac else .decode .blockDone }

/-- `ZZ[k] <- v` (43 R152). -/
def State.setZz (s : State) (k : Nat) (v : Int) : State := { s with zz := s.zz.setIfInBounds k v }

/-- DC_ZERO, symbol 0 (43 R150): no raw bits, difference 0. -/
def execDcZero (s : State) : Host.Outcome State Fault Refusal := atDc (State.setDc 0) s

/-- DC_DIFF, sizes 1..11 (43 R150): `size` raw bits, extended (42 R145). -/
def execDcDiff (size : BitVec 4) (s : State) : Host.Outcome State Fault Refusal :=
  atDc (fun s => s.clearZz.withRaw size.toNat (fun v s => s.setDc (extend v size.toNat))) s

/-- DC_BAD, symbols 12..255 (43 R151): CorruptBlock before any raw bit is read. The symbol's value plays no part. -/
def execDcBad (_sym : BitVec 8) (s : State) : Host.Outcome State Fault Refusal :=
  atDc (fun s => s.clearZz.failScan .corruptBlock) s

/-- EOB (43 R153): the block ends, its remaining positions are 0. -/
def execEob (s : State) : Host.Outcome State Fault Refusal :=
  atAc (fun s => { s with phase := .decode .blockDone }) s

/-- ZRL (43 R152, R153): skip 16 zero positions. -/
def execZrl (s : State) : Host.Outcome State Fault Refusal :=
  atAc (fun s => if 64 < s.blk.k + 16 then s.failScan .corruptBlock else s.acAt (s.blk.k + 16)) s

/-- A run/size symbol (43 R152): skip `run` zero positions, read `size` raw bits, place the value. The CorruptBlock
check comes before the raw bits. -/
def State.acCoef (run size : Nat) (s : State) : State :=
  let k := s.blk.k + run
  if 63 < k then s.failScan .corruptBlock
  else s.withRaw size (fun v s => (s.setZz k (extend v size)).acAt (k + 1))

/-- AC_R0, symbols 0x10..0xE0 of size 0 (43 R154): the rule of R152 with no raw bit; a zero is placed. -/
def execAcR0 (run : BitVec 4) (s : State) : Host.Outcome State Fault Refusal :=
  atAc (State.acCoef run.toNat 0) s

/-- AC_RS, every size 1..15 (43 R152, R155). -/
def execAcRs (run size : BitVec 4) (s : State) : Host.Outcome State Fault Refusal :=
  atAc (State.acCoef run.toNat size.toNat) s

end Sys2Proof.Machine
end

