-- ==== Sys2Proof/Machine/Tables.lean ====
section
/-! DEFINITION. The table segments: zigzag order (spec 30 R76), DQT (41 R110 to R113) and DHT with the canonical table
builder (42 R130 to R134). A definition that fails a check writes nothing; the definitions before it keep what they
wrote (41 R113). -/

namespace Sys2Proof.Machine

/-- The natural index of each zigzag position (30 R76, first table). -/
def zigzagTable : List Nat :=
  [0, 1, 8, 16, 9, 2, 3, 10, 17, 24, 32, 25, 18, 11, 4, 5] ++
  [12, 19, 26, 33, 40, 48, 41, 34, 27, 20, 13, 6, 7, 14, 21, 28] ++
  [35, 42, 49, 56, 57, 50, 43, 36, 29, 22, 15, 23, 30, 37, 44, 51] ++
  [58, 59, 52, 45, 38, 31, 39, 46, 53, 60, 61, 54, 47, 55, 62, 63]

/-- The zigzag position of each natural index, row by row (30 R76, second table). -/
def zigzagGrid : List Nat :=
  [0, 1, 5, 6, 14, 15, 27, 28] ++ [2, 4, 7, 13, 16, 26, 29, 42] ++
  [3, 8, 12, 17, 25, 30, 41, 43] ++ [9, 11, 18, 24, 31, 40, 44, 53] ++
  [10, 19, 23, 32, 39, 45, 52, 54] ++ [20, 22, 33, 38, 46, 51, 55, 60] ++
  [21, 34, 37, 47, 50, 56, 59, 61] ++ [35, 36, 48, 49, 57, 58, 62, 63]

/-- `ZZ_TABLE[k]`: the natural index of zigzag position `k`. -/
def zigzag (k : Nat) : Nat := zigzagTable.getD k 0

/-- The zigzag position at natural index `n`. -/
def zigzagPos (n : Nat) : Nat := zigzagGrid.getD n 0

/-- Un-zigzag: the natural-order array whose element `zigzag k` is `f k` (41 R111, 43 R156). -/
def unzigzag {α : Type} (f : Nat → α) : Vector α 64 := tabulate 64 (fun n => f (zigzagPos n))

/-! DQT. -/

/-- `v_k` of a DQT definition: one byte, or two bytes big-endian (41 R111). -/
def dqtValue (pq : Nat) (q : List Byte) (k : Nat) : BitVec 16 :=
  if pq = 0 then BitVec.ofNat 16 (byteAt q k).toNat
  else BitVec.ofNat 16 (be16 (byteAt q (2 * k)) (byteAt q (2 * k + 1)))

/-- A DQT definition that passed its checks: slot, values in natural order, and the payload after it. -/
structure DqtDef where
  slot : Fin 4
  vals : Vector (BitVec 16) 64
  rest : List Byte

/-- The checks of a DQT definition, in the order of 41 R111; all of them are MalformedContainer. -/
def dqtDef : List Byte → Except ErrKind DqtDef
  | [] => .error .malformedContainer
  | h :: q =>
    if slot : loNibble h < 4 then
      if 1 < hiNibble h then .error .malformedContainer
      else
        let need := 64 * (hiNibble h + 1)
        if q.length < need then .error .malformedContainer
        else .ok ⟨⟨loNibble h, slot⟩, unzigzag (dqtValue (hiNibble h) q), q.drop need⟩
    else .error .malformedContainer

/-- `QT[t] <- vals; QT_VALID[t] <- 1` (41 R111). -/
def State.setQuant (s : State) (t : Fin 4) (vals : Vector (BitVec 16) 64) : State :=
  { s with qt := s.qt.set t.val ⟨true, vals⟩ }

/-- A table payload, definition by definition (41 R110, 42 R130): `.ok` the state after the last one, `.error` the
state after the failure of one. `fuel` is at least the payload length. -/
def dqtDefs (moff : Nat) : (fuel : Nat) → List Byte → State → Except State State
  | _, [], s => .ok s
  | 0, _ :: _, s => .ok s
  | fuel + 1, h :: q, s =>
    match dqtDef (h :: q) with
    | .error kind => .error (s.raise kind moff 0xFFDB)
    | .ok d => dqtDefs moff fuel d.rest (s.setQuant d.slot d.vals)

/-- After a segment rule: `cur <- segend` (41 R109), unless it ended the decode. -/
def afterDefs (segend : Nat) : Except State State → State
  | .ok s => s.skipTo segend
  | .error s => s

/-- DQT (41 R110 to R113); past the scan data the walk (R126). -/
def execDqt (s : State) : Host.Outcome State Fault Refusal :=
  atMarker
    (segment 0xDB (fun moff p segend s => afterDefs segend (dqtDefs moff p.length p s)))
    (walkForSos 0xDB) s

/-! DHT. -/

/-- The canonical code assignment of 42 R133 from length `n` on: for each length the first code `MINCODE'[n]` and the
first symbol index `VALPTR'[n]`; `none` when the codes of a length do not fit. -/
def canonCodes : (counts : List Nat) → (n start ptr : Nat) → Option (List (Nat × Nat))
  | [], _, _, _ => some []
  | l :: ls, n, start, ptr =>
    if 2 ^ n < start + l then none
    else (canonCodes ls (n + 1) ((start + l) * 2) (ptr + l)).map ((start, ptr) :: ·)

/-- A DHT definition that passed its checks: class, slot, the 16 counts, the codes of each length, the symbols, and
the payload after it. -/
structure DhtDef where
  cls    : HuffClass
  slot   : Fin 4
  counts : List Byte
  codes  : List (Nat × Nat)
  syms   : List Byte
  rest   : List Byte

/-- `ΣL`, the number of symbols. -/
def countSum (counts : List Byte) : Nat := (counts.map BitVec.toNat).sum

/-- The checks of a DHT definition, in the order of 42 R131 and R133. -/
def dhtDef : List Byte → Except ErrKind DhtDef
  | [] => .error .malformedContainer
  | h :: q =>
    if slot : loNibble h < 4 then
      if 1 < hiNibble h then .error .malformedContainer
      else if q.length < 16 then .error .invalidHuffmanTable
      else
        let counts := q.take 16
        let total := countSum counts
        if 256 < total then .error .invalidHuffmanTable
        else if q.length < 16 + total then .error .invalidHuffmanTable
        else
          match canonCodes (counts.map BitVec.toNat) 1 0 0 with
          | none => .error .invalidHuffmanTable
          | some codes =>
            .ok { cls := if hiNibble h = 0 then .dc else .ac
                  slot := ⟨loNibble h, slot⟩
                  counts := counts
                  codes := codes
                  syms := (q.drop 16).take total
                  rest := q.drop (16 + total) }
    else .error .malformedContainer

/-- The table a DHT definition stores over the slot's old one (42 R134): symbols at and above `ΣL` are not written. -/
def DhtDef.table (d : DhtDef) (old : HuffTable) : HuffTable where
  valid := true
  counts := tabulate 16 (fun i => byteAt d.counts i)
  syms := tabulate 256 (fun j => if j < d.syms.length then byteAt d.syms j else getAt old.syms j 0)
  mincode := tabulate 16 (fun i => BitVec.ofNat 17 (d.codes.getD i (0, 0)).1)
  valptr := tabulate 16 (fun i => BitVec.ofNat 9 (d.codes.getD i (0, 0)).2)

/-- The store of 42 R134. -/
def State.setHuff (s : State) (d : DhtDef) : State :=
  s.setHt d.cls ((s.ht d.cls).set d.slot.val (d.table (s.ht d.cls)[d.slot.val]))

/-- A DHT payload, definition by definition (42 R130). -/
def dhtDefs (moff : Nat) : (fuel : Nat) → List Byte → State → Except State State
  | _, [], s => .ok s
  | 0, _ :: _, s => .ok s
  | fuel + 1, h :: q, s =>
    match dhtDef (h :: q) with
    | .error kind => .error (s.raise kind moff 0xFFC4)
    | .ok d => dhtDefs moff fuel d.rest (s.setHuff d)

/-- DHT (42 R130 to R134); past the scan data the walk (41 R126). -/
def execDht (s : State) : Host.Outcome State Fault Refusal :=
  atMarker
    (segment 0xC4 (fun moff p segend s => afterDefs segend (dhtDefs moff p.length p s)))
    (walkForSos 0xC4) s

end Sys2Proof.Machine
end

