-- ==== Sys2Proof/Machine/Unsupported.lean ====
section
/-! DEFINITION. The meanings of the unsupported segments (spec 41 R300 to R314): UnsupportedFeature before the scan;
past the scan data each starts the walk (R126). -/

namespace Sys2Proof.Machine

/-- SOF1, extended sequential (41 R300). -/
def execSof1 (s : State) : Host.Outcome State Fault Refusal :=
  atMarker (unsupportedSegment 0xC1) (walkForSos 0xC1) s

/-- SOF2, progressive (41 R301). -/
def execSof2 (s : State) : Host.Outcome State Fault Refusal :=
  atMarker (unsupportedSegment 0xC2) (walkForSos 0xC2) s

/-- SOF3, lossless (41 R302). -/
def execSof3 (s : State) : Host.Outcome State Fault Refusal :=
  atMarker (unsupportedSegment 0xC3) (walkForSos 0xC3) s

/-- SOF5, differential sequential (41 R303). -/
def execSof5 (s : State) : Host.Outcome State Fault Refusal :=
  atMarker (unsupportedSegment 0xC5) (walkForSos 0xC5) s

/-- SOF6, differential progressive (41 R304). -/
def execSof6 (s : State) : Host.Outcome State Fault Refusal :=
  atMarker (unsupportedSegment 0xC6) (walkForSos 0xC6) s

/-- SOF7, differential lossless (41 R305). -/
def execSof7 (s : State) : Host.Outcome State Fault Refusal :=
  atMarker (unsupportedSegment 0xC7) (walkForSos 0xC7) s

/-- SOF9, extended sequential, arithmetic (41 R306). -/
def execSof9 (s : State) : Host.Outcome State Fault Refusal :=
  atMarker (unsupportedSegment 0xC9) (walkForSos 0xC9) s

/-- SOF10, progressive, arithmetic (41 R307). -/
def execSof10 (s : State) : Host.Outcome State Fault Refusal :=
  atMarker (unsupportedSegment 0xCA) (walkForSos 0xCA) s

/-- SOF11, lossless, arithmetic (41 R308). -/
def execSof11 (s : State) : Host.Outcome State Fault Refusal :=
  atMarker (unsupportedSegment 0xCB) (walkForSos 0xCB) s

/-- SOF13, differential sequential, arithmetic (41 R309). -/
def execSof13 (s : State) : Host.Outcome State Fault Refusal :=
  atMarker (unsupportedSegment 0xCD) (walkForSos 0xCD) s

/-- SOF14, differential progressive, arithmetic (41 R310). -/
def execSof14 (s : State) : Host.Outcome State Fault Refusal :=
  atMarker (unsupportedSegment 0xCE) (walkForSos 0xCE) s

/-- SOF15, differential lossless, arithmetic (41 R311). -/
def execSof15 (s : State) : Host.Outcome State Fault Refusal :=
  atMarker (unsupportedSegment 0xCF) (walkForSos 0xCF) s

/-- DAC, arithmetic conditioning (41 R312). -/
def execDac (s : State) : Host.Outcome State Fault Refusal :=
  atMarker (unsupportedSegment 0xCC) (walkForSos 0xCC) s

/-- DRI, restart interval, whatever its value (41 R313). -/
def execDri (s : State) : Host.Outcome State Fault Refusal :=
  atMarker (unsupportedSegment 0xDD) (walkForSos 0xDD) s

/-- DNL, number of lines (41 R314). -/
def execDnl (s : State) : Host.Outcome State Fault Refusal :=
  atMarker (unsupportedSegment 0xDC) (walkForSos 0xDC) s

end Sys2Proof.Machine
end

