-- ==== Sys2Proof/Machine/Dispatch.lean ====
section
/-! DEFINITION. One arm per constructor of Instr: the meaning of every item of the opcode table. -/

namespace Sys2Proof.Machine

def exec (i : Instr) (s : State) : Host.Outcome State Fault Refusal :=
  match i with
    -- markers (30 R73)
  | .stuff00 => Sys2Proof.Machine.execStuff00 s
  | .tem => Sys2Proof.Machine.execTem s
  | .res code => Sys2Proof.Machine.execRes code s
  | .sof0 => Sys2Proof.Machine.execSof0 s
  | .sof1 => Sys2Proof.Machine.execSof1 s
  | .sof2 => Sys2Proof.Machine.execSof2 s
  | .sof3 => Sys2Proof.Machine.execSof3 s
  | .dht => Sys2Proof.Machine.execDht s
  | .sof5 => Sys2Proof.Machine.execSof5 s
  | .sof6 => Sys2Proof.Machine.execSof6 s
  | .sof7 => Sys2Proof.Machine.execSof7 s
  | .jpg => Sys2Proof.Machine.execJpg s
  | .sof9 => Sys2Proof.Machine.execSof9 s
  | .sof10 => Sys2Proof.Machine.execSof10 s
  | .sof11 => Sys2Proof.Machine.execSof11 s
  | .dac => Sys2Proof.Machine.execDac s
  | .sof13 => Sys2Proof.Machine.execSof13 s
  | .sof14 => Sys2Proof.Machine.execSof14 s
  | .sof15 => Sys2Proof.Machine.execSof15 s
  | .rstm m => Sys2Proof.Machine.execRstm m s
  | .soi => Sys2Proof.Machine.execSoi s
  | .eoi => Sys2Proof.Machine.execEoi s
  | .sos => Sys2Proof.Machine.execSos s
  | .dqt => Sys2Proof.Machine.execDqt s
  | .dnl => Sys2Proof.Machine.execDnl s
  | .dri => Sys2Proof.Machine.execDri s
  | .dhp => Sys2Proof.Machine.execDhp s
  | .exp => Sys2Proof.Machine.execExp s
  | .appn n => Sys2Proof.Machine.execAppn n s
  | .jpgn n => Sys2Proof.Machine.execJpgn n s
  | .com => Sys2Proof.Machine.execCom s
  | .fill => Sys2Proof.Machine.execFill s
    -- DC symbols (30 R82)
  | .dcZero => Sys2Proof.Machine.execDcZero s
  | .dcDiff size => Sys2Proof.Machine.execDcDiff size s
  | .dcBad sym => Sys2Proof.Machine.execDcBad sym s
    -- AC symbols (30 R83)
  | .eob => Sys2Proof.Machine.execEob s
  | .zrl => Sys2Proof.Machine.execZrl s
  | .acR0 run => Sys2Proof.Machine.execAcR0 run s
  | .acRs run size => Sys2Proof.Machine.execAcRs run size s
    -- host accesses (30 R85)
  | .csrId lane a => Sys2Proof.Machine.execCsrId lane a s
  | .csrCtrl lane a => Sys2Proof.Machine.execCsrCtrl lane a s
  | .csrStatus lane a => Sys2Proof.Machine.execCsrStatus lane a s
  | .csrInLen lane a => Sys2Proof.Machine.execCsrInLen lane a s
  | .csrErrOffset lane a => Sys2Proof.Machine.execCsrErrOffset lane a s
  | .csrErrMarker lane a => Sys2Proof.Machine.execCsrErrMarker lane a s
  | .csrImgWidth lane a => Sys2Proof.Machine.execCsrImgWidth lane a s
  | .csrImgHeight lane a => Sys2Proof.Machine.execCsrImgHeight lane a s
  | .csrImgChannels lane a => Sys2Proof.Machine.execCsrImgChannels lane a s
  | .csrOutLen lane a => Sys2Proof.Machine.execCsrOutLen lane a s
  | .csrRsvd offset a => Sys2Proof.Machine.execCsrRsvd offset a s
  | .inbuf index a => Sys2Proof.Machine.execInbuf index a s
  | .outbuf index a => Sys2Proof.Machine.execOutbuf index a s
  | .unmapped addr a => Sys2Proof.Machine.execUnmapped addr a s

end Sys2Proof.Machine
end

