-- ==== Sys2Proof/Machine/Color.lean ====
section
/-! DEFINITION. Chroma upsampling, colour conversion and the raster bytes of one MCU (spec 45 R170 to R181). -/

namespace Sys2Proof.Machine

/-- `PLANE[j][y][x]`, held in rows of 16 (10 R41; log 13). -/
def State.planeAt (s : State) (j y x : Nat) : Byte :=
  getAt (getAt s.plane j (Vector.replicate 256 0)) (16 * y + x) 0

/-- `smp[j]` at `(px, py)` of the MCU footprint: nearest-neighbour replication by `FX[j]` and `FY[j]`
(45 R171, R172). -/
def State.sample (s : State) (j px py : Nat) : Byte :=
  s.planeAt j (py / (s.mcu.vmax / (s.frame.comp j).v)) (px / (s.mcu.hmax / (s.frame.comp j).h))

/-- YCbCr to RGB (45 R175), in the order R, G, B. -/
def ycc2rgb (y cb cr : Byte) : List Byte :=
  let y : Int := y.toNat
  let db : Int := cb.toNat - 128
  let dr : Int := cr.toNat - 128
  [clampByte (rhu (1000000 * y + 1402000 * dr) 1000000),
   clampByte (rhu (1000000 * y - 344136 * db - 714136 * dr) 1000000),
   clampByte (rhu (1000000 * y + 1772000 * db) 1000000)]

/-- The output channel values of a pixel of the footprint (45 R173, R174). -/
def State.pixel (s : State) (px py : Nat) : List Byte :=
  if s.frame.nf = 1 then [s.sample 0 px py]
  else ycc2rgb (s.sample 0 px py) (s.sample 1 px py) (s.sample 2 px py)

/-- The index of a pixel's first channel in the raster (45 R181). -/
def FrameRegs.rasterIndex (f : FrameRegs) (x y : Nat) : Nat := (y * f.x.toNat + x) * f.nf

/-- The bytes written for pixel `(px, py)` of the current MCU: none when it lies outside the image (45 R180). -/
def State.pixelCells (s : State) (py px : Nat) : List Host.Cell :=
  let x := 8 * s.mcu.hmax * (s.mcu.idx % s.mcu.mcux) + px
  let y := 8 * s.mcu.vmax * (s.mcu.idx / s.mcu.mcux) + py
  if x < s.frame.x.toNat ∧ y < s.frame.y.toNat then
    (s.pixel px py).mapIdx (fun ch b => (s.frame.rasterIndex x y + ch, b))
  else []

/-- Every byte `emit_mcu` writes for the current MCU, in the order of 45 R180. -/
def State.mcuCells (s : State) : List Host.Cell :=
  (List.range (8 * s.mcu.vmax)).flatMap (fun py =>
    (List.range (8 * s.mcu.hmax)).flatMap (fun px => s.pixelCells py px))

end Sys2Proof.Machine
end

