-- ==== Sys2Proof/Machine/Idct.lean ====
section
/-! DEFINITION. Dequantization (spec 43 R156) and the inverse DCT (44 R160 to R164), in exact integers (00 R8). -/

namespace Sys2Proof.Machine

/-- `dequantize(j)` (43 R156): un-zigzag and multiply by the quantizer of the same natural position. -/
def dequantize (zz : Vector Int 64) (q : Vector (BitVec 16) 64) : Vector Int 64 :=
  tabulate 64 (fun n => getAt zz (zigzagPos n) 0 * ((getAt q n 0).toNat : Int))

/-- The constant matrix `A[u][x]` (44 R163): "given exactly by this table, which governs". -/
def idctMatrix : List (List Int) :=
  [[2896, 2896, 2896, 2896, 2896, 2896, 2896, 2896],
   [4017, 3406, 2276, 799, -799, -2276, -3406, -4017],
   [3784, 1567, -1567, -3784, -3784, -1567, 1567, 3784],
   [3406, -799, -4017, -2276, 2276, 4017, 799, -3406],
   [2896, -2896, -2896, 2896, 2896, -2896, -2896, 2896],
   [2276, -4017, 799, 3406, -3406, -799, 4017, -2276],
   [1567, -3784, 3784, -1567, -1567, 3784, -3784, 1567],
   [799, -2276, 3406, -4017, 4017, -3406, 2276, -799]]

/-- `A[u][x]`. -/
def idctA (u x : Nat) : Int := (idctMatrix.getD u []).getD x 0

/-- `Σ_{u=0..7} f u`. -/
def sum8 (f : Nat → Int) : Int := f 0 + f 1 + f 2 + f 3 + f 4 + f 5 + f 6 + f 7

/-- The row pass of 44 R163: element `8*v + x` is `t[v][x]`. -/
def idctRows (coef : Vector Int 64) : Vector Int 64 :=
  tabulate 64 (fun n => sum8 (fun u => idctA u (n % 8) * getAt coef (8 * (n / 8) + u) 0))

/-- The level of sample `8*y + x` of the default transform before it is taken as a byte (44 R163). -/
def idctStandardAt (t : Vector Int 64) (n : Nat) : Int :=
  clamp8 (shr (sum8 (fun v => idctA v (n / 8) * getAt t (8 * v + n % 8) 0) + 2 ^ 25) 26 + 128)

/-- `IDCT_GENERAL` (44 R163, R164): the default, or a realisation within one level of it per sample (log 5). -/
def idctGeneral (g : IdctGeneral) (coef : Vector Int 64) : Vector Byte 64 :=
  let t := idctRows coef
  match g with
  | .standard => tabulate 64 (fun n => clampByte (idctStandardAt t n))
  | .variant r =>
    tabulate 64 (fun n =>
      clampByte (idctStandardAt t n + ((Config.idctDeviation r coef.toList n).val : Int) - 1))

/-- `idct_dc(F0)` (44 R162). -/
def idctDc (f0 : Int) : Int := clamp8 (shr (f0 + 4) 3 + 128)

/-- Whether every AC coefficient is zero after dequantization (44 R161). -/
def dcOnly (coef : Vector Int 64) : Bool := (List.range 63).all (fun k => getAt coef (k + 1) 0 = 0)

/-- `idct()` (44 R161): sample `8*y + x` is `s[y][x]`. -/
def idct (g : IdctGeneral) (coef : Vector Int 64) : Vector Byte 64 :=
  if dcOnly coef then Vector.replicate 64 (clampByte (idctDc (getAt coef 0 0))) else idctGeneral g coef

end Sys2Proof.Machine
end

