-- ==== Sys2Proof/Machine/Pipeline.lean ====
section
/-! DEFINITION. The steps of phase 2 that have no encoding (spec 30 R70, 43 R157 to R159): phase-2 start, a finished
block, a finished MCU, the end of the decode. They run in the fixed order of 43 R158. -/

namespace Sys2Proof.Machine

/-- The largest `f j` over the frame's components (10 R40). -/
def maxOver (nf : Nat) (f : Nat → Nat) : Nat := (List.range nf).foldl (fun m j => max m (f j)) 0

/-- `ceil(a / b)` (10 R40). -/
def ceilDiv (a b : Nat) : Nat := (a + b - 1) / b

/-- The MCU registers of a frame, at MCU 0 (43 R157). -/
def FrameRegs.mcuRegs (f : FrameRegs) : McuRegs :=
  let hmax := maxOver f.nf (fun j => (f.comp j).h)
  let vmax := maxOver f.nf (fun j => (f.comp j).v)
  { hmax := hmax
    vmax := vmax
    mcux := ceilDiv f.x.toNat (8 * hmax)
    mcuy := ceilDiv f.y.toNat (8 * vmax)
    idx := 0 }

/-- The MCU loop of 43 R158: the first block of MCU `MCU_IDX`, or the end (R159) when there is no such MCU. -/
def State.nextMcu (s : State) : State :=
  { s with
    blk := ⟨0, 0, 0, s.blk.k⟩
    phase := if s.mcu.idx < s.mcu.mcux * s.mcu.mcuy then .decode .dc else .decode .finish }

/-- `phase2_start()` (43 R157); `BBUF` and the predictors of components the frame does not have keep
their values (log 21). -/
def State.phase2Start (s : State) : State :=
  State.nextMcu
    { s with
      mcu := s.frame.mcuRegs
      pred := tabulate 3 (fun j => if j < s.frame.nf then 0 else getAt s.pred j 0)
      br := { s.br with bpos := s.scan.first, bcnt := 0 } }

/-- A plane with the 64 samples of the block at sub-block `(row, col)` written into it (43 R158). -/
def placeBlock (plane : Vector Byte 256) (row col : Nat) (smp : Vector Byte 64) : Vector Byte 256 :=
  tabulate 256 (fun n =>
    let y := n / 16
    let x := n % 16
    if 8 * row ≤ y ∧ y < 8 * row + 8 ∧ 8 * col ≤ x ∧ x < 8 * col + 8 then
      getAt smp (8 * (y - 8 * row) + (x - 8 * col)) 0
    else getAt plane n 0)

/-- The block after the current one in the order of 43 R158; `none` at the end of the MCU. -/
def FrameRegs.nextBlock (f : FrameRegs) (b : BlockPos) : Option BlockPos :=
  if b.col + 1 < (f.comp b.comp.val).h then some { b with col := b.col + 1 }
  else if b.row + 1 < (f.comp b.comp.val).v then some { b with row := b.row + 1, col := 0 }
  else if next : b.comp.val + 1 < 3 then
    if b.comp.val + 1 < f.nf then some { b with comp := ⟨b.comp.val + 1, next⟩, row := 0, col := 0 } else none
  else none

/-- A finished block (43 R158): dequantize, inverse DCT, plane write, then the next block or the end of the MCU. After
their last use ZZ, COEF and PLANE keep their values, which 10 R41 leaves unspecified (log 21). -/
def State.finishBlock (s : State) : State :=
  let j := s.blk.comp.val
  let coef := dequantize s.zz (s.qt[(s.frame.comp j).tq.val]).vals
  let plane := placeBlock s.plane[j] s.blk.row s.blk.col (idct s.params.idctGeneral coef)
  let s1 := { s with coef := coef, plane := s.plane.set j plane }
  match s.frame.nextBlock s.blk with
  | some b => { s1 with blk := b, phase := .decode .dc }
  | none => { s1 with phase := .decode .mcuDone }

/-- A finished MCU: `emit_mcu(MCU_IDX)` (45 R180), then the next MCU (43 R158). PLANE keeps the finished MCU's samples,
which 10 R41 leaves unspecified (log 21). -/
def State.emitMcu (s : State) : State :=
  State.nextMcu
    { s with
      outBuf := s.outBuf.writes s.mcuCells
      mcu := { s.mcu with idx := s.mcu.idx + 1 } }

end Sys2Proof.Machine
end

