-- ==== Sys2Proof/Machine/Sequencer.lean ====
section
/-! DEFINITION. The core's sequencer: which item stands next in the stream (spec 41 R101 to R103, R126, 43 R150,
R152), and one step of the core (70 R240; log 2). -/

namespace Sys2Proof.Machine

/-- What the sequencer finds at the place it stands: an item to run, in the state in which it runs, or a step with
no item (a failure, the end of phase 1). -/
inductive Fetched where
  | item (i : Instr) (s : State)
  | plain (s : State)

/-- The 16-bit word `0xFF, in[i+1]` read as a marker; a word that is none fails as 41 R101 says. -/
def State.markerAt (s : State) (w : BitVec 16) (off : Nat) : Fetched :=
  match decodeMarker w with
  | .ok i => .item i s
  | .error _ => .plain (s.raise .malformedContainer off 0x0000)

/-- The SOI check (41 R102): the first two bytes of the stream. -/
def State.fetchSoi (s : State) : Fetched :=
  if s.csr.inLen < 2 then .plain (s.raise .malformedContainer 0 0x0000)
  else s.markerAt (s.inByte 0 ++ s.inByte 1) 0

/-- `fetch_marker()` (41 R101, R103), a fill byte at a time (log 2). -/
def State.fetchMarker (s : State) : Fetched :=
  if s.csr.inLen ≤ s.cur then .plain (s.raise .malformedContainer s.csr.inLen 0x0000)
  else if s.csr.inLen ≤ s.cur + 1 then .plain (s.raise .malformedContainer s.cur 0x0000)
  else s.markerAt (s.inByte s.cur ++ s.inByte (s.cur + 1)) s.cur

/-- The terminating marker (41 R126), a fill byte at a time (log 2); no marker at all ends phase 1. -/
def State.fetchTerminator (s : State) : Fetched :=
  if s.scan.stop = s.csr.inLen then .plain s.endPhase1
  else if s.csr.inLen ≤ s.cur + 1 then .plain (s.raise .malformedContainer s.cur 0x0000)
  else s.markerAt (0xFF#8 ++ s.inByte (s.cur + 1)) s.cur

/-- A Huffman symbol from the scan data with table `t` (42 R143), read as an item by `dec`. -/
def State.fetchSymbol (s : State) (t : HuffTable) (dec : Byte → Instr) : Fetched :=
  match t.decodeSym s.inByte s.scan.stop s.br with
  | .fail br => .plain (State.failScan { s with br := br } .malformedEntropyStream)
  | .ok sym br => .item (dec sym) { s with br := br }

/-- The DC table of the current component (43 R150). -/
def State.dcTable (s : State) : HuffTable := s.htDc[(s.scan.comp s.blk.comp.val).td.val]

/-- The AC table of the current component (43 R152). -/
def State.acTable (s : State) : HuffTable := s.htAc[(s.scan.comp s.blk.comp.val).ta.val]

/-- The next item of the stream, or the step the sequencer takes without one. While IDLE the core does nothing
(60 R226). -/
def State.fetch (s : State) : Fetched :=
  match s.phase with
  | .idle => .plain s
  | .parse .soi => s.fetchSoi
  | .parse .marker => s.fetchMarker
  | .parse .term => s.fetchTerminator
  | .decode .start => .plain s.phase2Start
  | .decode .dc => s.clearZz.fetchSymbol s.dcTable decodeDcSym
  | .decode .ac => s.fetchSymbol s.acTable decodeAcSym
  | .decode .blockDone => .plain s.finishBlock
  | .decode .mcuDone => .plain s.emitMcu
  | .decode .finish => .plain s.complete

/-- One step of the core. -/
def coreStep (s : State) : Host.Outcome State Fault Refusal :=
  match s.fetch with
  | .item i s' => exec i s'
  | .plain s' => .next s'

/-- One event of the host: a bus access, decoded by its address (46 R190), or a hardware reset (70 R230). -/
def hostStep (e : HostEvent) (s : State) : Host.Outcome State Fault Refusal :=
  match e with
  | .access r => exec (decodeHost s.params r.addr r.acc) s
  | .reset => .next s.hardReset

end Sys2Proof.Machine
end

