-- ==== Sys2Proof/Machine/Step.lean ====
section
/-! DEFINITION. One step of MJDEC: the host's next event when its wait is over, otherwise a step of the core (spec 70
R240; log 1). And the placing of an opcode-table word where the next step runs it (log 16). -/

namespace Sys2Proof.Machine

/-- One step. A host event with a wait lets that many core steps run first. -/
def step (s : State) : Host.Outcome State Fault Refusal :=
  match s.host with
  | [] => coreStep s
  | ⟨0, e⟩ :: rest => hostStep e { s with host := rest }
  | ⟨wait + 1, e⟩ :: rest => coreStep { s with host := ⟨wait, e⟩ :: rest }

/-- A Huffman table whose one code `0` stands for `sym`, over an old table (42 R133). -/
def HuffTable.single (old : HuffTable) (sym : Byte) : HuffTable :=
  { valid := true
    counts := (Vector.replicate 16 0).set 0 1
    syms := old.syms.set 0 sym
    mincode := Vector.replicate 16 0
    valptr := (Vector.replicate 16 1).set 0 0 }

/-- A marker word placed at index `at_` of IN_BUF, four zero bytes behind it, the core at place `pt` (log 16). -/
def State.placeMarker (s : State) (pt : ParseAt) (start w : Nat) : State :=
  let b (k : Nat) : Byte := BitVec.ofNat 8 (w / 2 ^ (8 * k))
  { s with
    phase := .parse pt
    cur := start
    csr := { s.csr with inLen := start + 6 }
    scan := { s.scan with stop := start }
    inBuf := s.inBuf.writes
      [(start, b 1), (start + 1, b 0), (start + 2, 0), (start + 3, 0), (start + 4, 0), (start + 5, 0)]
    host := [] }

/-- A symbol word placed as the only symbol of the current component's table, coded by a 0 bit, three zero bytes of
scan data from BPOS on, the core before the symbol (log 16). -/
def State.placeSymbol (s : State) (w : Nat) : State :=
  let sym : Byte := BitVec.ofNat 8 w
  let c := s.scan.comp s.blk.comp.val
  let p := s.br.bpos
  let s1 : State :=
    { s with
      br := { s.br with bcnt := 0 }
      csr := { s.csr with inLen := max s.csr.inLen (p + 3) }
      scan := { s.scan with stop := p + 3 }
      inBuf := s.inBuf.writes [(p, 0), (p + 1, 0), (p + 2, 0)]
      host := [] }
  if tableByteIsDc sym then
    { s1 with
      phase := .decode .dc
      htDc := s.htDc.set c.td.val ((s.htDc[c.td.val]).single sym) }
  else
    { s1 with
      phase := .decode .ac
      blk := { s.blk with k := if s.phase = .decode .ac then s.blk.k else 1 }
      htAc := s.htAc.set c.ta.val ((s.htAc[c.ta.val]).single sym) }

/-- The state `s` with the opcode-table word `w` of `nbits` bits placed where the next step runs it (log 16): a host
access as the next event of the queue, a symbol in the scan data, a marker at the cursor (the SOI of a stream that
has not begun at index 0). -/
def State.withFetchWord (s : State) (nbits w : Nat) : State :=
  if nbits = 32 then
    { s with host := ⟨0, .access ⟨BitVec.ofNat 32 w, ⟨.four, .read, 0⟩⟩⟩ :: s.host }
  else if nbits = 8 then s.placeSymbol w
  else
    match s.phase with
    | .parse .soi => s.placeMarker .soi 0 w
    | .parse .marker => s.placeMarker .marker s.cur w
    | .parse .term => s.placeMarker .term s.cur w
    | .idle => if w % 256 = 0xD8 then s.placeMarker .soi 0 w else s.placeMarker .marker 2 w
    | .decode _ => if w % 256 = 0xD8 then s.placeMarker .soi 0 w else s.placeMarker .marker 2 w

end Sys2Proof.Machine
end

