-- ==== Sys2Proof/Safety.lean ====
section
/-! DEFINITION. The terms the statements use: what a failed decode looks like (spec 60 R214, 45 R182), well-placed
segments and table definitions in the spec's own words (41 R104, R111, 42 R131, R133), the walk for a second SOS as a
relation (41 R127), and the invariants of a run: the status flags, the canonical buffers, the stream position and the
output bounds. -/

namespace Sys2Proof

/-! Classes of markers. -/

/-- The 16-bit value of a marker item (30 R71). -/
def Instr.marker (i : Instr) : BitVec 16 := 0xFF#8 ++ (encode i).getD 1 0

/-- The markers skipped by length before the scan (41 R315 to R321). -/
def Instr.isSkipped : Instr → Bool
  | .appn _ | .com | .res _ | .jpg | .jpgn _ | .dhp | .exp => true
  | _ => false

/-- The unsupported frame headers (41 R300 to R311). -/
def Instr.isUnsupportedFrame : Instr → Bool
  | .sof1 | .sof2 | .sof3 | .sof5 | .sof6 | .sof7 | .sof9 | .sof10 | .sof11 | .sof13 | .sof14 | .sof15 => true
  | _ => false

/-- DAC, DRI, DNL (41 R312 to R314). -/
def Instr.isUnsupportedSegment : Instr → Bool
  | .dac | .dri | .dnl => true
  | _ => false

/-- The markers that carry a length (30 R72). -/
def Instr.hasLength (i : Instr) : Bool :=
  i.isSkipped || i.isUnsupportedFrame || i.isUnsupportedSegment ||
    decide (i = .sof0) || decide (i = .dht) || decide (i = .sos) || decide (i = .dqt)

/-- A host access in the form `a` that is not performed (20 R58, R61, 46 R197): a CSR at a misaligned offset or not
4 bytes wide, a buffer access of 2 bytes or of 4 misaligned bytes, a reserved offset, an unmapped address. -/
def Instr.RefusedForm (i : Instr) (a : Access) : Prop :=
  match i with
  | .csrId lane b | .csrCtrl lane b | .csrStatus lane b | .csrInLen lane b | .csrErrOffset lane b
  | .csrErrMarker lane b | .csrImgWidth lane b | .csrImgHeight lane b | .csrImgChannels lane b
  | .csrOutLen lane b => b = a ∧ (a.width ≠ .four ∨ lane ≠ 0)
  | .csrRsvd _ b | .unmapped _ b => b = a
  | .inbuf k b | .outbuf k b => b = a ∧ (a.width = .two ∨ a.width = .four ∧ k.toNat % 4 ≠ 0)
  | _ => False

end Sys2Proof

namespace Sys2Proof.Machine

/-! Failures. -/

/-- The state after failure termination with `cur` left at `cur` (60 R214): nothing else changes. -/
def State.failed (s : State) (cur : Nat) (kind : ErrKind) (off : Nat) (mk : BitVec 16) : State :=
  { s with
    cur := cur
    phase := .idle
    csr := { s.csr with err := true, errKind := kind, errOffset := off, errMarker := mk } }

/-- `t` is `s` after a failure in phase 2 (60 R214, R215): the failure is recorded at BPOS under the SOS marker, and
of the rest only OUT_BUF and the model's draw counter may differ; each OUT_BUF byte is the one `s` has or, below
OUT_LEN, the one from before the decode (45 R182). -/
def State.FailedInScan (s t : State) (kind : ErrKind) : Prop :=
  t = { s with
        outBuf := t.outBuf
        freeIdx := t.freeIdx
        phase := .idle
        csr := { s.csr with err := true, errKind := kind, errOffset := s.br.bpos, errMarker := 0xFFDA } } ∧
  ∀ i, t.outByte i = s.outByte i ∨ (i < s.csr.outLen ∧ t.outByte i = s.outByteOld i)

/-! Segments. -/

/-- A segment of length `lh` stands whole behind the marker at `cur` (41 R104). -/
abbrev State.HasSegment (s : State) (lh : Nat) : Prop :=
  s.cur + 4 ≤ s.csr.inLen ∧ be16 (s.inByte (s.cur + 2)) (s.inByte (s.cur + 3)) = lh ∧ 2 ≤ lh ∧
  s.cur + 2 + lh ≤ s.csr.inLen

/-- A failure cause of 41 R104 behind the marker at `cur`. -/
abbrev State.BadSegment (s : State) : Prop :=
  s.csr.inLen < s.cur + 4 ∨ be16 (s.inByte (s.cur + 2)) (s.inByte (s.cur + 3)) < 2 ∨
  s.csr.inLen < s.cur + 2 + be16 (s.inByte (s.cur + 2)) (s.inByte (s.cur + 3))

/-- The payload of the segment of length `lh` behind the marker at `cur` (41 R104). -/
abbrev State.segPayload (s : State) (lh : Nat) : List Byte := s.inBytes (s.cur + 4) (lh - 2)

/-! Table definitions. -/

/-- A DQT definition (first byte, value bytes) that passes the checks of 41 R111. -/
abbrev GoodDqt (d : Byte × List Byte) : Prop :=
  loNibble d.1 ≤ 3 ∧ hiNibble d.1 ≤ 1 ∧ d.2.length = 64 * (hiNibble d.1 + 1)

/-- A payload that begins with a DQT definition failing a check of 41 R111. -/
abbrev BadDqt (h : Byte) (q : List Byte) : Prop :=
  3 < loNibble h ∨ 1 < hiNibble h ∨ q.length < 64 * (hiNibble h + 1)

/-- The value at zigzag position `k` of a DQT definition (30 R74). -/
def dqtEntry (d : Byte × List Byte) (k : Nat) : Nat :=
  if hiNibble d.1 = 0 then (d.2.getD k 0).toNat
  else (d.2.getD (2 * k) 0).toNat * 256 + (d.2.getD (2 * k + 1) 0).toNat

/-- The quantization store with a definition stored (41 R111). -/
def storeDqt (qt : Vector QuantTable 4) (d : Byte × List Byte) : Vector QuantTable 4 :=
  qt.setIfInBounds (loNibble d.1) ⟨true, unzigzag (fun k => BitVec.ofNat 16 (dqtEntry d k))⟩

/-- A DHT definition as its parts (30 R75). -/
structure DhtParts where
  head   : Byte
  counts : List Byte
  syms   : List Byte

/-- The bytes of a DHT definition (30 R75). -/
def DhtParts.bytes (d : DhtParts) : List Byte := d.head :: (d.counts ++ d.syms)

/-- `L_n`, `n = 1..16`, of 16 count bytes (30 R75). -/
def lengthCount (counts : List Byte) (n : Nat) : Nat := (counts.getD (n - 1) 0).toNat

/-- `start` at length `n` in the loop of 42 R133: 0 at length 1, and `(start + L[n]) << 1` from `n` to `n + 1`. -/
def startCode (l : Nat → Nat) : Nat → Nat
  | 0 => 0
  | 1 => 0
  | n + 2 => (startCode l (n + 1) + l (n + 1)) * 2

/-- `ptr` at length `n` in the loop of 42 R133. -/
def firstSymbol (l : Nat → Nat) : Nat → Nat
  | 0 => 0
  | 1 => 0
  | n + 2 => firstSymbol l (n + 1) + l (n + 1)

/-- A DHT definition that passes the checks of 42 R131 and R133. -/
abbrev GoodDht (d : DhtParts) : Prop :=
  loNibble d.head ≤ 3 ∧ hiNibble d.head ≤ 1 ∧ d.counts.length = 16 ∧
  (d.counts.map BitVec.toNat).sum ≤ 256 ∧ d.syms.length = (d.counts.map BitVec.toNat).sum ∧
  ∀ n, n ∈ List.range' 1 16 → startCode (lengthCount d.counts) n + lengthCount d.counts n ≤ 2 ^ n

/-- The table of 42 R134 over the slot's old one. -/
def DhtParts.table (d : DhtParts) (old : HuffTable) : HuffTable where
  valid := true
  counts := tabulate 16 (fun i => d.counts.getD i 0)
  syms := tabulate 256 (fun j => if j < d.syms.length then d.syms.getD j 0 else getAt old.syms j 0)
  mincode := tabulate 16 (fun i => BitVec.ofNat 17 (startCode (lengthCount d.counts) (i + 1)))
  valptr := tabulate 16 (fun i => BitVec.ofNat 9 (firstSymbol (lengthCount d.counts) (i + 1)))

/-- The state with a DHT definition stored in its class and slot (42 R134); nothing else changes. -/
def State.storeDht (s : State) (d : DhtParts) : State :=
  let slot := loNibble d.head
  if hiNibble d.head = 0 then
    { s with htDc := s.htDc.setIfInBounds slot (d.table (getAt s.htDc slot .reset)) }
  else
    { s with htAc := s.htAc.setIfInBounds slot (d.table (getAt s.htAc slot .reset)) }

/-- A table whose arrays stand in the relation the builder of 42 R133 leaves them in. -/
def HuffTable.Canonical (t : HuffTable) : Prop :=
  let l (n : Nat) : Nat := (getAt t.counts (n - 1) 0).toNat
  ∀ n, 1 ≤ n → n ≤ 16 →
    startCode l n + l n ≤ 2 ^ n ∧
    firstSymbol l n + l n ≤ 256 ∧
    (getAt t.mincode (n - 1) 0).toNat = startCode l n ∧
    (getAt t.valptr (n - 1) 0).toNat = firstSymbol l n

/-! Frame and scan payloads. -/

/-- The three bytes of a frame component (30 R77). -/
structure SofComp where
  id : Byte
  hv : Byte
  tq : Byte
deriving DecidableEq, Repr

/-- The SOF0 payload bytes (30 R77). -/
def sofPayload (precision yh yl xh xl nf : Byte) (comps : List SofComp) : List Byte :=
  precision :: yh :: yl :: xh :: xl :: nf :: comps.flatMap (fun c => [c.id, c.hv, c.tq])

/-- A component that passes the checks of 41 R116 other than the one on duplicate ids. -/
abbrev SofComp.Good (c : SofComp) : Prop :=
  1 ≤ hiNibble c.hv ∧ hiNibble c.hv ≤ 2 ∧ 1 ≤ loNibble c.hv ∧ loNibble c.hv ≤ 2 ∧ c.tq.toNat ≤ 3

/-- The frame component register of a listed component (41 R117). -/
def SofComp.reg (c : SofComp) : FrameComp :=
  ⟨c.id, hiNibble c.hv, loNibble c.hv, ⟨c.tq.toNat % 4, Nat.mod_lt _ (by decide)⟩⟩

/-- The kind with which component `c` fails after the ids `seen` (41 R116), in the order of its checks; `none` if it
passes. -/
def SofComp.error (seen : List Byte) (c : SofComp) : Option ErrKind :=
  if c.id ∈ seen then some .malformedContainer
  else if hiNibble c.hv = 0 ∨ 4 < hiNibble c.hv ∨ loNibble c.hv = 0 ∨ 4 < loNibble c.hv then
    some .malformedContainer
  else if 3 < c.tq.toNat then some .malformedContainer
  else if 2 < hiNibble c.hv ∨ 2 < loNibble c.hv then some .unsupportedFeature
  else none

/-- The bytes of a scan component (30 R78): id, then `Td` and `Ta`. -/
structure SosComp where
  id : Byte
  tt : Byte
deriving DecidableEq, Repr

/-- The SOS payload bytes (30 R78). -/
def sosPayload (ns : Byte) (comps : List SosComp) (ss se ahal : Byte) : List Byte :=
  ns :: (comps.flatMap (fun c => [c.id, c.tt]) ++ [ss, se, ahal])

/-- Scan component `j` passes the checks of 41 R121. -/
abbrev State.GoodSosComp (s : State) (j : Nat) (c : SosComp) : Prop :=
  j < s.frame.nf ∧ c.id = (s.frame.comp j).id ∧ hiNibble c.tt ≤ 3 ∧ loNibble c.tt ≤ 3

/-- The scan component register of a listed component (41 R124). -/
def SosComp.reg (c : SosComp) : ScanComp :=
  ⟨⟨hiNibble c.tt % 4, Nat.mod_lt _ (by decide)⟩, ⟨loNibble c.tt % 4, Nat.mod_lt _ (by decide)⟩⟩

/-- The scan data that starts at `first` ends at `e` (41 R125). -/
abbrev State.IsScanEnd (s : State) (first e : Nat) : Prop :=
  (first ≤ e ∧ e + 1 < s.csr.inLen ∧ s.inByte e = 0xFF ∧ s.inByte (e + 1) ≠ 0x00 ∨ e = s.csr.inLen) ∧
  ∀ q, first ≤ q → q < e → q + 1 < s.csr.inLen → ¬ (s.inByte q = 0xFF ∧ s.inByte (q + 1) ≠ 0x00)

/-- The walk of 41 R127 from index `w` meets an SOS whose `0xFF` is at index `r`. -/
inductive State.SosReached (s : State) : (w r : Nat) → Prop where
  | sos (w : Nat) : w + 1 < s.csr.inLen → s.inByte w = 0xFF → s.inByte (w + 1) = 0xDA → SosReached s w w
  | fill (w r : Nat) : w + 1 < s.csr.inLen → s.inByte w = 0xFF → s.inByte (w + 1) = 0xFF →
      SosReached s (w + 1) r → SosReached s w r
  | standAlone (w r : Nat) : w + 1 < s.csr.inLen → s.inByte w = 0xFF →
      (s.inByte (w + 1) = 0x01 ∨ (0xD0 ≤ (s.inByte (w + 1)).toNat ∧ (s.inByte (w + 1)).toNat ≤ 0xD7)) →
      SosReached s (w + 2) r → SosReached s w r
  | segment (w r l : Nat) : w + 1 < s.csr.inLen → s.inByte w = 0xFF →
      s.inByte (w + 1) ∉ [0x00, 0x01, 0xD8, 0xD9, 0xDA, 0xFF] →
      ¬ (0xD0 ≤ (s.inByte (w + 1)).toNat ∧ (s.inByte (w + 1)).toNat ≤ 0xD7) →
      w + 4 ≤ s.csr.inLen → be16 (s.inByte (w + 2)) (s.inByte (w + 3)) = l → 2 ≤ l →
      w + 2 + l ≤ s.csr.inLen → SosReached s (w + 2 + l) r → SosReached s w r

/-- A second SOS at `r` after the terminating marker `i` at `cur` (41 R126, R127). -/
def State.SosAfter (s : State) (i : Instr) (r : Nat) : Prop :=
  if i = .tem then s.SosReached (s.cur + 2) r
  else ∃ lh, s.HasSegment lh ∧ s.SosReached (s.cur + 2 + lh) r

/-! Pixels. -/

/-- The image column of column `px` of the current MCU (45 R180). -/
def State.pixelCol (s : State) (px : Nat) : Nat := 8 * s.mcu.hmax * (s.mcu.idx % s.mcu.mcux) + px

/-- The image row of row `py` of the current MCU (45 R180). -/
def State.pixelRow (s : State) (py : Nat) : Nat := 8 * s.mcu.vmax * (s.mcu.idx / s.mcu.mcux) + py

/-- `(px, py)` is a place of the current MCU whose pixel lies inside the image (45 R180). -/
abbrev State.InFootprint (s : State) (px py : Nat) : Prop :=
  px < 8 * s.mcu.hmax ∧ py < 8 * s.mcu.vmax ∧
  s.pixelCol px < s.frame.x.toNat ∧ s.pixelRow py < s.frame.y.toNat

/-- The sample of component `j` for `(px, py)`, with the replication factors `FX` and `FY` (45 R171, R172). -/
def State.samplePoint (s : State) (j px py : Nat) : Byte :=
  let fx := s.mcu.hmax / (s.frame.comp j).h
  let fy := s.mcu.vmax / (s.frame.comp j).v
  s.planeAt j (py / fy) (px / fx)

/-! The invariants of a run. -/

/-- The status flags and the recorded failure fit together (10 R25, 46 R191, 60 R214, R218). -/
structure State.StatusOk (s : State) : Prop where
  exclusive : ¬ (s.csr.done = true ∧ s.csr.err = true)
  busyClear : s.busy = true →
    s.csr.done = false ∧ s.csr.err = false ∧ s.csr.errKind = .none ∧ s.csr.errOffset = 0 ∧ s.csr.errMarker = 0
  errKind   : s.csr.err = true → s.csr.errKind ≠ .none
  doneKind  : s.csr.done = true → s.csr.errKind = .none

/-- The buffers are in canonical form. -/
structure State.BuffersOk (s : State) : Prop where
  input  : s.inBuf.wf
  output : s.outBuf.wf
  before : s.outOld.wf

/-- The frame registers hold what SOF0 accepts (10 R36, 41 R114 to R117). -/
structure FrameRegs.Ok (f : FrameRegs) (p : Params) : Prop where
  nf    : f.nf = 1 ∨ f.nf = 3
  x     : 1 ≤ f.x.toNat
  y     : 1 ≤ f.y.toNat
  comps : ∀ j, j < f.nf →
    1 ≤ (f.comp j).h ∧ (f.comp j).h ≤ 2 ∧ 1 ≤ (f.comp j).v ∧ (f.comp j).v ≤ 2
  fits  : f.x.toNat * f.y.toNat * f.nf ≤ p.outMax

/-- The bit reader stands inside the scan data (42 R146). -/
abbrev State.ReaderOk (s : State) : Prop :=
  s.scan.first ≤ s.br.bpos ∧ s.br.bpos ≤ s.scan.stop ∧ s.br.bcnt ≤ 8

/-- The MCU registers are those of the frame (10 R40). -/
abbrev State.McuOk (s : State) : Prop := s.mcu = { s.frame.mcuRegs with idx := s.mcu.idx }

/-- The current block is one of the current MCU (43 R158). -/
abbrev State.BlockOk (s : State) : Prop :=
  s.mcu.idx < s.mcu.mcux * s.mcu.mcuy ∧ s.blk.comp.val < s.frame.nf ∧
  s.blk.row < (s.frame.comp s.blk.comp.val).v ∧ s.blk.col < (s.frame.comp s.blk.comp.val).h

/-- What holds at each place of a decode (10 R33, R37, R39, R40). -/
def State.PlaceOk (s : State) : Prop :=
  match s.phase with
  | .idle => True
  | .parse .soi => s.frame.valid = false ∧ s.scan.valid = false
  | .parse .marker => s.scan.valid = false ∧ s.cur ≤ s.csr.inLen
  | .parse .term => s.scan.valid = true ∧ s.scan.stop ≤ s.cur ∧ s.cur ≤ s.csr.inLen
  | .decode .start => s.scan.valid = true
  | .decode .dc => s.scan.valid = true ∧ s.McuOk ∧ s.ReaderOk ∧ s.BlockOk
  | .decode .ac => s.scan.valid = true ∧ s.McuOk ∧ s.ReaderOk ∧ s.BlockOk ∧ 1 ≤ s.blk.k ∧ s.blk.k < 64
  | .decode .blockDone => s.scan.valid = true ∧ s.McuOk ∧ s.ReaderOk ∧ s.BlockOk
  | .decode .mcuDone => s.scan.valid = true ∧ s.McuOk ∧ s.ReaderOk ∧ s.mcu.idx < s.mcu.mcux * s.mcu.mcuy
  | .decode .finish => s.scan.valid = true ∧ s.McuOk ∧ s.ReaderOk ∧ s.mcu.idx = s.mcu.mcux * s.mcu.mcuy

/-- The registers of a run stay in the ranges the spec gives them: the parameters, IN_LEN and ERR_OFFSET (10 R26,
R27), the frame registers and the image CSRs that copy them (R29 to R32, R36), the scan registers and the tables the
scan uses (R37, 41 R123), and the place in the stream. -/
structure State.StreamOk (s : State) : Prop where
  params  : s.params.legal
  inLen   : s.csr.inLen ≤ s.params.inMax
  offset  : s.csr.errOffset ≤ s.params.inMax
  frame   : s.frame.valid = true →
    s.frame.Ok s.params ∧ s.csr.imgWidth = s.frame.x ∧ s.csr.imgHeight = s.frame.y ∧
    s.csr.imgChannels.toNat = s.frame.nf ∧ s.csr.outLen = s.frame.x.toNat * s.frame.y.toNat * s.frame.nf
  noFrame : s.frame.valid = false →
    s.csr.imgWidth = 0 ∧ s.csr.imgHeight = 0 ∧ s.csr.imgChannels = 0 ∧ s.csr.outLen = 0
  scan    : s.scan.valid = true →
    s.frame.valid = true ∧ ∀ j, j < s.frame.nf → s.tablesPresent j (s.scan.comp j) = true
  range   : s.scan.valid = true → s.busy = true → s.scan.first ≤ s.scan.stop ∧ s.scan.stop ≤ s.csr.inLen
  place   : s.PlaceOk

/-- The buffers hold bytes at their own indexes only, and a decode touches OUT_BUF below OUT_LEN only (20 R56, R57,
45 R181). -/
structure State.BoundsOk (s : State) : Prop where
  input  : ∀ i, s.params.inMax ≤ i → s.inBuf.read i = none
  output : ∀ i, s.params.outMax ≤ i → s.outBuf.read i = none
  before : ∀ i, s.params.outMax ≤ i → s.outOld.read i = none
  beyond : s.busy = true → ∀ i, s.csr.outLen ≤ i → s.outBuf.read i = s.outOld.read i

end Sys2Proof.Machine
end

