-- ==== Sys2Proof/Certificates/Slice0/Obligations.lean ====
section
/-! DEFINITION. The statements about MJDEC, in the order of the spec: encodings, steps, the segment reader, the table
builder and bit reader, the block decoder and datapath, the host interface, and the rules of the whole machine. A
statement about a next state gives the whole next state, so that it is its own frame. Where such a frame keeps ZZ, COEF,
PLANE or BBUF after their last use, the values kept are the model's (log 21) and no rule's. -/

open Sys2Proof Sys2Proof.Machine

/-! Encodings. -/

/-- 30 R70: every well-formed item is read back from its own bytes, with every operand; and every byte string a format
reads is the encoding of the well-formed item it reads, and of no other. -/
def Obligations.DecodeEncodeRoundTrip : Prop :=
  (∀ (p : Params) (i : Instr), p.legal → i.wf p = true → decode p i.format (encode i) = .ok i) ∧
  (∀ (p : Params) (f : Format) (l : List Byte) (i : Instr), p.legal → decode p f l = .ok i →
    i.format = f ∧ i.wf p = true ∧ encode i = l)

/-- 30 R73, R82, R83, 20 R58: words written out from the spec's tables, and the items they stand for. The control and
data bytes of a host access are the model's layout (log 14). -/
def Obligations.SpecWordsDecode : Prop :=
  decode .default .marker [0xFF, 0xD8] = .ok .soi ∧
  decode .default .marker [0xFF, 0xC4] = .ok .dht ∧
  decode .default .marker [0xFF, 0xD3] = .ok (.rstm 3) ∧
  decode .default .marker [0xFF, 0xE5] = .ok (.appn 5) ∧
  decode .default .dcsym [0x0B] = .ok (.dcDiff 11) ∧
  decode .default .dcsym [0x0C] = .ok (.dcBad 0x0C) ∧
  decode .default .acsym [0xF0] = .ok .zrl ∧
  decode .default .acsym [0x20] = .ok (.acR0 2) ∧
  decode .default .acsym [0x21] = .ok (.acRs 2 1) ∧
  decode .default .hostacc [0x08, 0x00, 0x00, 0x00, 0, 0, 0, 0, 0] = .ok (.csrStatus 0 ⟨.four, .read, 0⟩) ∧
  decode .default .hostacc [0x03, 0x00, 0x00, 0x01, 5, 0xAB, 0, 0, 0] = .ok (.inbuf 3 ⟨.one, .write, 0xAB⟩) ∧
  decode .default .hostacc [0x00, 0x00, 0x40, 0x02, 0, 0, 0, 0, 0] =
    .ok (.unmapped 0x02400000 ⟨.four, .read, 0⟩)

/-! What a step runs. -/

/-- 41 R101, R102, R126, 42 R143, 43 R150, R152: at each place of phase 1, when the marker that stands there decodes to
`i`, the step is `exec i`; in phase 2, when the Huffman code at the bit reader stands for a symbol, the step is `exec`
of that symbol's item, with the reader past the code and, before a DC symbol, `ZZ` cleared. The places inside the phases
are the model's (log 2). -/
def Obligations.StepRunsItem : Prop :=
  ∀ (s : State) (i : Instr), s.host = [] →
    (s.phase = .parse .soi → 2 ≤ s.csr.inLen →
      decode s.params .marker [s.inByte 0, s.inByte 1] = .ok i → step s = exec i s) ∧
    (s.phase = .parse .marker → s.cur + 1 < s.csr.inLen →
      decode s.params .marker [s.inByte s.cur, s.inByte (s.cur + 1)] = .ok i → step s = exec i s) ∧
    (s.phase = .parse .term → s.scan.stop ≠ s.csr.inLen → s.cur + 1 < s.csr.inLen →
      decode s.params .marker [0xFF, s.inByte (s.cur + 1)] = .ok i → step s = exec i s) ∧
    (∀ (sym : Byte) (b : BitReader), s.phase = .decode .dc →
      s.dcTable.decodeSym s.inByte s.scan.stop s.br = .ok sym b → decode s.params .dcsym [sym] = .ok i →
      step s = exec i { s with br := b, zz := Vector.replicate 64 0 }) ∧
    (∀ (sym : Byte) (b : BitReader), s.phase = .decode .ac →
      s.acTable.decodeSym s.inByte s.scan.stop s.br = .ok sym b → decode s.params .acsym [sym] = .ok i →
      step s = exec i { s with br := b })

/-- 46 R190, 70 R240, 60 R226: a host access that is due is the step, whatever the phase; one that waits lets a core
step run; with no event queued an idle core does nothing. The queue is the model's (log 1). -/
def Obligations.StepRunsHostAccess : Prop :=
  ∀ (s : State) (rest : List HostSlot),
    (∀ (r : HostReq) (i : Instr), s.host = ⟨0, .access r⟩ :: rest →
      decode s.params .hostacc (encodeHost r.addr r.acc) = .ok i → step s = exec i { s with host := rest }) ∧
    (∀ (n : Nat) (e : HostEvent), s.host = ⟨n + 1, e⟩ :: rest →
      step s = coreStep { s with host := ⟨n, e⟩ :: rest }) ∧
    (s.host = [] → step s = coreStep s) ∧
    (s.host = [] → s.phase = .idle → step s = .next s)

/-! The segment reader. -/

/-- 41 R102, 60 R215: the SOI check. -/
def Obligations.SoiCheck : Prop :=
  ∀ s : State, s.host = [] → s.phase = .parse .soi →
    (2 ≤ s.csr.inLen → s.inByte 0 = 0xFF → s.inByte 1 = 0xD8 →
      exec .soi s = .next { s with cur := 2, phase := .parse .marker } ∧
      step s = .next { s with cur := 2, phase := .parse .marker }) ∧
    (s.csr.inLen < 2 ∨ s.inByte 0 ≠ 0xFF ∨ s.inByte 1 ≠ 0xD8 →
      step s = .next (s.failed s.cur .malformedContainer 0 0x0000))

/-- 41 R101, R105, R106, R107: the stand-alone markers and the two codes that are no markers, before the scan. That a
fill byte is a step of its own, moving the cursor by one, is the model's granularity (log 2). -/
def Obligations.HeaderStandAloneMarkers : Prop :=
  ∀ (s : State) (m : BitVec 3), s.phase = .parse .marker →
    exec .tem s = .next { s with cur := s.cur + 2 } ∧
    exec .fill s = .next { s with cur := s.cur + 1 } ∧
    exec .soi s = .next (s.failed (s.cur + 2) .malformedContainer s.cur 0xFFD8) ∧
    exec .eoi s = .next (s.failed (s.cur + 2) .malformedContainer s.cur 0xFFD9) ∧
    exec (.rstm m) s = .next (s.failed (s.cur + 2) .malformedContainer s.cur (0xFFD0 + m.setWidth 16)) ∧
    exec .stuff00 s = .next (s.failed s.cur .malformedContainer s.cur 0xFF00)

/-- 41 R101, R103, 60 R215: any number of fill bytes is stepped over, so that the marker's index is that of the last
`0xFF`; a stream that ends in fill bytes fails at its last byte; a byte other than `0xFF` at a marker position and the
end of the buffer there fail. Each fill byte is one step (log 2). -/
def Obligations.MarkerFetch : Prop :=
  ∀ (s : State), s.host = [] → s.phase = .parse .marker →
    (∀ n, s.cur + n < s.csr.inLen → (∀ k, k ≤ n → s.inByte (s.cur + k) = 0xFF) →
      Sys2Proof.core.run n s = .next { s with cur := s.cur + n } ∧
      (s.cur + n + 1 = s.csr.inLen →
        Sys2Proof.core.run (n + 1) s =
          .next (s.failed (s.cur + n) .malformedContainer (s.csr.inLen - 1) 0x0000))) ∧
    (s.csr.inLen ≤ s.cur → step s = .next (s.failed s.cur .malformedContainer s.csr.inLen 0x0000)) ∧
    (s.cur < s.csr.inLen → s.inByte s.cur ≠ 0xFF → s.cur + 1 < s.csr.inLen →
      step s = .next (s.failed s.cur .malformedContainer s.cur 0x0000)) ∧
    (s.cur + 1 = s.csr.inLen → step s = .next (s.failed s.cur .malformedContainer s.cur 0x0000))

/-- 41 R104: before the scan, the length check of every marker that carries a length precedes its own rule. -/
def Obligations.SegmentLengthCheck : Prop :=
  ∀ (s : State) (i : Instr), s.phase = .parse .marker → i.hasLength = true → s.BadSegment →
    exec i s = .next (s.failed (s.cur + 2) .malformedContainer s.cur i.marker)

/-- 41 R108, R315 to R321: a skipped segment moves the cursor past itself and changes nothing else. -/
def Obligations.SkippedSegments : Prop :=
  ∀ (s : State) (i : Instr) (lh : Nat), s.phase = .parse .marker → i.isSkipped = true → s.HasSegment lh →
    exec i s = .next { s with cur := s.cur + 2 + lh }

/-- 41 R300 to R311: every frame header but SOF0 is unsupported, whatever its payload. -/
def Obligations.UnsupportedFrames : Prop :=
  ∀ (s : State) (i : Instr) (lh : Nat), s.phase = .parse .marker → i.isUnsupportedFrame = true → s.HasSegment lh →
    exec i s = .next (s.failed (s.cur + 2) .unsupportedFeature s.cur i.marker)

/-- 41 R312 to R314: DAC, DRI and DNL are unsupported, whatever their payload. -/
def Obligations.UnsupportedSegments : Prop :=
  ∀ (s : State) (i : Instr) (lh : Nat), s.phase = .parse .marker → i.isUnsupportedSegment = true →
    s.HasSegment lh →
    exec i s = .next (s.failed (s.cur + 2) .unsupportedFeature s.cur i.marker)

/-- 41 R110, R111, 30 R74, R76: a DQT segment stores each of its definitions in turn, value `k` at natural index
`ZZ[k]` of the slot. -/
def Obligations.DqtStores : Prop :=
  (∀ (s : State) (lh : Nat) (defs : List (Byte × List Byte)), s.phase = .parse .marker → s.HasSegment lh →
    s.segPayload lh = defs.flatMap (fun d => d.1 :: d.2) → (∀ d ∈ defs, GoodDqt d) →
    exec .dqt s = .next { s with cur := s.cur + 2 + lh, qt := defs.foldl storeDqt s.qt }) ∧
  (∀ (qt : Vector QuantTable 4) (d : Byte × List Byte) (t : Nat), GoodDqt d → t < 4 →
    (t = loNibble d.1 →
      (getAt (storeDqt qt d) t .reset).valid = true ∧
      ∀ k, k < 64 → (getAt (getAt (storeDqt qt d) t .reset).vals (zigzag k) 0).toNat = dqtEntry d k) ∧
    (t ≠ loNibble d.1 → getAt (storeDqt qt d) t .reset = getAt qt t .reset))

/-- 41 R111, R113: the first bad definition of a DQT segment fails; the definitions before it keep what they wrote
and it writes nothing. -/
def Obligations.DqtBadDefinition : Prop :=
  ∀ (s : State) (lh : Nat) (defs : List (Byte × List Byte)) (h : Byte) (q : List Byte),
    s.phase = .parse .marker → s.HasSegment lh →
    s.segPayload lh = defs.flatMap (fun d => d.1 :: d.2) ++ h :: q → (∀ d ∈ defs, GoodDqt d) → BadDqt h q →
    exec .dqt s = .next
      (State.failed { s with qt := defs.foldl storeDqt s.qt } (s.cur + 2) .malformedContainer s.cur 0xFFDB)

/-- 42 R130, R133, R134: a DHT segment stores each of its definitions in turn; a stored table holds its counts and
symbols, and codes that the canonical assignment gives, in registers wide enough for them. -/
def Obligations.DhtStores : Prop :=
  (∀ (s : State) (lh : Nat) (defs : List DhtParts), s.phase = .parse .marker → s.HasSegment lh →
    s.segPayload lh = defs.flatMap DhtParts.bytes → (∀ d ∈ defs, GoodDht d) →
    exec .dht s = .next { defs.foldl State.storeDht s with cur := s.cur + 2 + lh }) ∧
  (∀ (d : DhtParts) (old : HuffTable), GoodDht d →
    (d.table old).Canonical ∧ (d.table old).valid = true ∧
    (∀ n, 1 ≤ n → n ≤ 16 → (getAt (d.table old).counts (n - 1) 0).toNat = lengthCount d.counts n) ∧
    (∀ j, j < d.syms.length → getAt (d.table old).syms j 0 = d.syms.getD j 0))

/-- 42 R131, R133, 41 R113: the first bad definition of a DHT segment fails with the kind of its first failing check;
the definitions before it keep what they wrote. -/
def Obligations.DhtBadDefinition : Prop :=
  ∀ (s : State) (lh : Nat) (defs : List DhtParts) (h : Byte) (q : List Byte),
    s.phase = .parse .marker → s.HasSegment lh →
    s.segPayload lh = defs.flatMap DhtParts.bytes ++ h :: q → (∀ d ∈ defs, GoodDht d) →
    (3 < loNibble h ∨ 1 < hiNibble h →
      exec .dht s = .next
        (State.failed (defs.foldl State.storeDht s) (s.cur + 2) .malformedContainer s.cur 0xFFC4)) ∧
    (loNibble h ≤ 3 → hiNibble h ≤ 1 →
      (q.length < 16 ∨ 256 < ((q.take 16).map BitVec.toNat).sum ∨
        q.length < 16 + ((q.take 16).map BitVec.toNat).sum ∨
        ∃ n, 1 ≤ n ∧ n ≤ 16 ∧ 2 ^ n < startCode (lengthCount (q.take 16)) n + lengthCount (q.take 16) n) →
      exec .dht s = .next
        (State.failed (defs.foldl State.storeDht s) (s.cur + 2) .invalidHuffmanTable s.cur 0xFFC4))

/-- 41 R117, 30 R77: an SOF0 segment that passes every check writes the frame registers and four CSRs, and nothing
else but the cursor. Registers of components it does not list keep their values. -/
def Obligations.Sof0Accepts : Prop :=
  ∀ (s : State) (lh : Nat) (yh yl xh xl nf : Byte) (comps : List SofComp),
    s.phase = .parse .marker → s.HasSegment lh → s.frame.valid = false →
    s.segPayload lh = sofPayload 8 yh yl xh xl nf comps →
    comps.length = nf.toNat → (nf.toNat = 1 ∨ nf.toNat = 3) →
    be16 xh xl ≠ 0 → be16 yh yl ≠ 0 → (comps.map SofComp.id).Nodup → (∀ c ∈ comps, c.Good) →
    be16 xh xl * be16 yh yl * nf.toNat ≤ s.params.outMax →
    ∃ t, exec .sof0 s = .next t ∧
      t = { s with
            cur := s.cur + 2 + lh
            frame := ⟨true, xh ++ xl, yh ++ yl, nf.toNat, t.frame.comps⟩
            csr := { s.csr with
                     imgWidth := xh ++ xl
                     imgHeight := yh ++ yl
                     imgChannels := nf.setWidth 2
                     outLen := be16 xh xl * be16 yh yl * nf.toNat } } ∧
      ∀ j, j < 3 → t.frame.comp j = if h : j < comps.length then comps[j].reg else s.frame.comp j

/-- 41 R114, R115, R117: the structure and frame field checks of SOF0, each with its kind, in their order. -/
def Obligations.Sof0HeaderChecks : Prop :=
  ∀ (s : State) (lh : Nat), s.phase = .parse .marker → s.HasSegment lh →
    (s.frame.valid = true ∨ (s.segPayload lh).length < 6 →
      exec .sof0 s = .next (s.failed (s.cur + 2) .malformedContainer s.cur 0xFFC0)) ∧
    ∀ (precision yh yl xh xl nf : Byte) (rest : List Byte), s.frame.valid = false →
      s.segPayload lh = precision :: yh :: yl :: xh :: xl :: nf :: rest →
      (rest.length ≠ 3 * nf.toNat →
        exec .sof0 s = .next (s.failed (s.cur + 2) .malformedContainer s.cur 0xFFC0)) ∧
      (rest.length = 3 * nf.toNat → precision ≠ 8 →
        exec .sof0 s = .next (s.failed (s.cur + 2) .unsupportedFeature s.cur 0xFFC0)) ∧
      (rest.length = 3 * nf.toNat → precision = 8 → nf ≠ 1 → nf ≠ 3 →
        exec .sof0 s = .next (s.failed (s.cur + 2) .unsupportedColorModel s.cur 0xFFC0)) ∧
      (rest.length = 3 * nf.toNat → precision = 8 → (nf = 1 ∨ nf = 3) → be16 xh xl = 0 →
        exec .sof0 s = .next (s.failed (s.cur + 2) .malformedContainer s.cur 0xFFC0)) ∧
      (rest.length = 3 * nf.toNat → precision = 8 → (nf = 1 ∨ nf = 3) → be16 xh xl ≠ 0 → be16 yh yl = 0 →
        exec .sof0 s = .next (s.failed (s.cur + 2) .unsupportedFeature s.cur 0xFFC0))

/-- 41 R116, R117: the component checks of SOF0, component by component, and the raster size check after them. -/
def Obligations.Sof0ComponentChecks : Prop :=
  ∀ (s : State) (lh : Nat) (yh yl xh xl nf : Byte) (comps : List SofComp),
    s.phase = .parse .marker → s.HasSegment lh → s.frame.valid = false →
    s.segPayload lh = sofPayload 8 yh yl xh xl nf comps →
    comps.length = nf.toNat → (nf.toNat = 1 ∨ nf.toNat = 3) → be16 xh xl ≠ 0 → be16 yh yl ≠ 0 →
    (∀ (before after : List SofComp) (c : SofComp) (kind : ErrKind), comps = before ++ c :: after →
      (before.map SofComp.id).Nodup → (∀ b ∈ before, b.Good) →
      c.error (before.map SofComp.id) = some kind →
      exec .sof0 s = .next (s.failed (s.cur + 2) kind s.cur 0xFFC0)) ∧
    ((comps.map SofComp.id).Nodup → (∀ c ∈ comps, c.Good) →
      s.params.outMax < be16 xh xl * be16 yh yl * nf.toNat →
      exec .sof0 s = .next (s.failed (s.cur + 2) .unsupportedFeature s.cur 0xFFC0))

/-- 41 R124, R125, 30 R78: an SOS segment that passes every check writes the scan registers; the scan data runs from
the byte after it to the first `0xFF` not followed by `0x00`. The cursor and the place past the scan are the model's
(log 3). -/
def Obligations.SosAccepts : Prop :=
  ∀ (s : State) (lh : Nat) (ns : Byte) (comps : List SosComp),
    s.phase = .parse .marker → s.HasSegment lh → s.frame.valid = true →
    s.segPayload lh = sosPayload ns comps 0 63 0 →
    comps.length = ns.toNat → 1 ≤ ns.toNat → ns.toNat ≤ 3 → ns.toNat = s.frame.nf →
    (∀ j, (h : j < comps.length) → s.GoodSosComp j comps[j] ∧ s.tablesPresent j comps[j].reg = true) →
    ∃ t, exec .sos s = .next t ∧
      t = { s with
            cur := t.scan.stop
            phase := .parse .term
            scan := ⟨true, t.scan.comps, s.cur + 2 + lh, t.scan.stop⟩ } ∧
      s.IsScanEnd (s.cur + 2 + lh) t.scan.stop ∧
      ∀ j, j < 3 → t.scan.comp j = if h : j < comps.length then comps[j].reg else s.scan.comp j

/-- 41 R120 to R123: the checks of SOS in their order, each with its kind. -/
def Obligations.SosChecks : Prop :=
  ∀ (s : State) (lh : Nat), s.phase = .parse .marker → s.HasSegment lh →
    (s.frame.valid = false ∨ lh = 2 →
      exec .sos s = .next (s.failed (s.cur + 2) .malformedContainer s.cur 0xFFDA)) ∧
    (∀ (ns : Byte) (rest : List Byte), s.frame.valid = true → s.segPayload lh = ns :: rest →
      (ns.toNat < 1 ∨ 4 < ns.toNat ∨ rest.length ≠ 3 + 2 * ns.toNat) →
      exec .sos s = .next (s.failed (s.cur + 2) .malformedContainer s.cur 0xFFDA)) ∧
    (∀ (ns ss se ahal : Byte) (comps : List SosComp), s.frame.valid = true →
      s.segPayload lh = sosPayload ns comps ss se ahal → comps.length = ns.toNat → 1 ≤ ns.toNat → ns.toNat ≤ 4 →
      ((∃ j, ∃ h : j < comps.length, ¬ s.GoodSosComp j comps[j]) →
        exec .sos s = .next (s.failed (s.cur + 2) .malformedContainer s.cur 0xFFDA)) ∧
      ((∀ j, (h : j < comps.length) → s.GoodSosComp j comps[j]) →
        (ns.toNat ≠ s.frame.nf ∨ ss ≠ 0 ∨ se ≠ 63 ∨ ahal ≠ 0 →
          exec .sos s = .next (s.failed (s.cur + 2) .unsupportedFeature s.cur 0xFFDA)) ∧
        (ns.toNat = s.frame.nf → ss = 0 → se = 63 → ahal = 0 →
          (∃ j, ∃ h : j < comps.length, s.tablesPresent j comps[j].reg = false) →
          exec .sos s = .next (s.failed (s.cur + 2) .malformedContainer s.cur 0xFFDA))))

/-- 41 R126, R128: the terminating markers that need no walk, fill bytes before them, and a stream whose scan data no
marker ends. -/
def Obligations.TerminatingMarkers : Prop :=
  ∀ (s : State) (m : BitVec 3), s.phase = .parse .term →
    exec .eoi s = .next { s with phase := .decode .start } ∧
    exec .fill s = .next { s with cur := s.cur + 1 } ∧
    exec .sos s = .next (s.failed s.cur .unsupportedFeature s.cur 0xFFDA) ∧
    exec (.rstm m) s = .next (s.failed s.cur .unsupportedFeature s.cur (0xFFD0 + m.setWidth 16)) ∧
    exec .soi s = .next (s.failed s.cur .malformedEntropyStream s.cur 0xFFD8) ∧
    exec .stuff00 s = .next (s.failed s.cur .malformedEntropyStream s.cur 0xFF00) ∧
    (s.host = [] → s.scan.stop = s.csr.inLen → step s = .next { s with phase := .decode .start }) ∧
    (s.host = [] → s.scan.stop < s.csr.inLen → s.cur + 1 = s.csr.inLen →
      step s = .next (s.failed s.cur .malformedContainer (s.csr.inLen - 1) 0x0000))

/-- 41 R126, R127: any other terminating marker fails, at a later SOS if the walk over whole segments meets one, else
at the marker itself. -/
def Obligations.OtherTerminators : Prop :=
  ∀ (s : State) (i : Instr), s.phase = .parse .term → (i = .tem ∨ i.hasLength = true) → i ≠ .sos →
    i.wf s.params = true →
    (∀ r, s.SosAfter i r → exec i s = .next (s.failed s.cur .unsupportedFeature r 0xFFDA)) ∧
    ((¬ ∃ r, s.SosAfter i r) → exec i s = .next (s.failed s.cur .malformedEntropyStream s.cur i.marker))

/-! The bit reader and the Huffman match. -/

/-- 42 R140, R141, 30 R80: one bit, most significant first; a byte is loaded only when none is held, a stuffed pair
as the byte 0xFF; and the two failures, at the unchanged position. -/
def Obligations.ReadBitRule : Prop :=
  ∀ (rd : Nat → Byte) (lim : Nat) (b : BitReader),
    (0 < b.bcnt → b.readBit rd lim = .ok (b.bbuf.getLsbD (b.bcnt - 1)).toNat { b with bcnt := b.bcnt - 1 }) ∧
    (b.bcnt = 0 → b.bpos < lim → rd b.bpos ≠ 0xFF →
      b.readBit rd lim = .ok ((rd b.bpos).getLsbD 7).toNat ⟨b.bpos + 1, rd b.bpos, 7⟩) ∧
    (b.bcnt = 0 → b.bpos + 1 < lim → rd b.bpos = 0xFF → rd (b.bpos + 1) = 0x00 →
      b.readBit rd lim = .ok 1 ⟨b.bpos + 2, 0xFF, 7⟩) ∧
    (b.bcnt = 0 → (lim ≤ b.bpos ∨ rd b.bpos = 0xFF ∧ (lim ≤ b.bpos + 1 ∨ rd (b.bpos + 1) ≠ 0x00)) →
      b.readBit rd lim = .fail b)

/-- 42 R142: `readBits(0)` is 0 and reads nothing; `n + 1` bits are one `readBit` and then `n` bits, the first bit the
most significant, and they fail where the one bit or the `n` bits fail. So a run of `m + n` bits is the run of `m` bits
followed by the run of `n` bits, and `m` bits have a value below `2^m`. -/
def Obligations.ReadBitsMsbFirst : Prop :=
  ∀ (rd : Nat → Byte) (lim : Nat) (b : BitReader),
    b.readBits rd lim 0 = .ok 0 b ∧
    (∀ (n : Nat) (b' : BitReader), b.readBit rd lim = .fail b' → b.readBits rd lim (n + 1) = .fail b') ∧
    (∀ (n x : Nat) (b1 : BitReader), b.readBit rd lim = .ok x b1 →
      (∀ b2, b1.readBits rd lim n = .fail b2 → b.readBits rd lim (n + 1) = .fail b2) ∧
      (∀ w b2, b1.readBits rd lim n = .ok w b2 → b.readBits rd lim (n + 1) = .ok (x * 2 ^ n + w) b2)) ∧
    (∀ (m n v w : Nat) (b1 b2 : BitReader), b.readBits rd lim m = .ok v b1 → b1.readBits rd lim n = .ok w b2 →
      b.readBits rd lim (m + n) = .ok (v * 2 ^ n + w) b2 ∧ v < 2 ^ m)

/-- 42 R145, 30 R84: EXTEND, its two ranges for each size, and that no two raw values of a size share a result. -/
def Obligations.ExtendRanges : Prop :=
  ∀ n v w : Nat, 1 ≤ n → v < 2 ^ n → w < 2 ^ n →
    (v < 2 ^ (n - 1) →
      extend v n = (v : Int) - 2 ^ n + 1 ∧ -(2 ^ n - 1) ≤ extend v n ∧ extend v n ≤ -(2 ^ (n - 1) : Int)) ∧
    (2 ^ (n - 1) ≤ v → extend v n = v) ∧
    (extend v n = extend w n → v = w) ∧ extend 0 0 = 0

/-- 42 R143, 30 R81: in a canonical table, the bits of the `j`-th code of length `n` decode to symbol
`VALPTR[n] + j`, with the reader just past them, since no shorter code matches first; and 16 bits that match no code fail,
with the reader past them (`v / 2^(16-n)` are the first `n` of them). -/
def Obligations.HuffmanMatch : Prop :=
  ∀ (t : HuffTable) (rd : Nat → Byte) (lim : Nat) (b b' : BitReader),
    (∀ n j, t.Canonical → 1 ≤ n → n ≤ 16 → j < (getAt t.counts (n - 1) 0).toNat →
      b.readBits rd lim n = .ok ((getAt t.mincode (n - 1) 0).toNat + j) b' →
      t.decodeSym rd lim b = .ok (getAt t.syms ((getAt t.valptr (n - 1) 0).toNat + j) 0) b') ∧
    (∀ v, b.readBits rd lim 16 = .ok v b' →
      (∀ n, 1 ≤ n → n ≤ 16 →
        ¬ ((getAt t.mincode (n - 1) 0).toNat ≤ v / 2 ^ (16 - n) ∧
           v / 2 ^ (16 - n) < (getAt t.mincode (n - 1) 0).toNat + (getAt t.counts (n - 1) 0).toNat)) →
      t.decodeSym rd lim b = .fail b')

/-! The block decoder. -/

/-- 43 R157: the start of phase 2. The place in the phase is the model's (log 2), the block counters are its registers
(log 12), and that BBUF and the predictors of absent components stay is its choice (log 21). -/
def Obligations.Phase2Start : Prop :=
  ∀ s : State, s.host = [] → s.phase = .decode .start → s.frame.Ok s.params →
    ∃ t, step s = .next t ∧
      t = { s with
            mcu := { t.mcu with idx := 0 }
            pred := t.pred
            br := { s.br with bpos := s.scan.first, bcnt := 0 }
            blk := { s.blk with comp := 0, row := 0, col := 0 }
            phase := .decode .dc } ∧
      (∀ j, j < s.frame.nf → (s.frame.comp j).h ≤ t.mcu.hmax ∧ (s.frame.comp j).v ≤ t.mcu.vmax) ∧
      (∃ j, j < s.frame.nf ∧ (s.frame.comp j).h = t.mcu.hmax) ∧
      (∃ j, j < s.frame.nf ∧ (s.frame.comp j).v = t.mcu.vmax) ∧
      8 * t.mcu.hmax * (t.mcu.mcux - 1) < s.frame.x.toNat ∧ s.frame.x.toNat ≤ 8 * t.mcu.hmax * t.mcu.mcux ∧
      8 * t.mcu.vmax * (t.mcu.mcuy - 1) < s.frame.y.toNat ∧ s.frame.y.toNat ≤ 8 * t.mcu.vmax * t.mcu.mcuy ∧
      (∀ j, j < s.frame.nf → getAt t.pred j 1 = 0)

/-- 43 R150, R151: the DC symbols. The difference is added to the component's predictor without wrap-around, `ZZ` is
that value and 63 zeros, and the AC loop starts at `k = 1`; an illegal symbol reads no raw bit. -/
def Obligations.DcSymbols : Prop :=
  ∀ s : State, s.phase = .decode .dc →
    exec .dcZero s = .next
      { s with
        zz := (Vector.replicate 64 0).set 0 s.pred[s.blk.comp.val]
        blk := { s.blk with k := 1 }
        phase := .decode .ac } ∧
    (∀ (size : BitVec 4) (v : Nat) (b : BitReader), s.br.readBits s.inByte s.scan.stop size.toNat = .ok v b →
      exec (.dcDiff size) s = .next
        { s with
          br := b
          pred := s.pred.set s.blk.comp.val (s.pred[s.blk.comp.val] + extend v size.toNat)
          zz := (Vector.replicate 64 0).set 0 (s.pred[s.blk.comp.val] + extend v size.toNat)
          blk := { s.blk with k := 1 }
          phase := .decode .ac }) ∧
    (∀ sym : BitVec 8, ∃ t, exec (.dcBad sym) s = .next t ∧
      State.FailedInScan { s with zz := Vector.replicate 64 0 } t .corruptBlock)

/-- 43 R152, R153: EOB ends the block; ZRL skips 16 positions, ends the block when that reaches 64, and fails from
`k = 49` on. -/
def Obligations.EobAndZrl : Prop :=
  ∀ s : State, s.phase = .decode .ac →
    exec .eob s = .next { s with phase := .decode .blockDone } ∧
    (s.blk.k < 48 → exec .zrl s = .next { s with blk := { s.blk with k := s.blk.k + 16 } }) ∧
    (s.blk.k = 48 →
      exec .zrl s = .next { s with blk := { s.blk with k := 64 }, phase := .decode .blockDone }) ∧
    (49 ≤ s.blk.k → ∃ t, exec .zrl s = .next t ∧ s.FailedInScan t .corruptBlock)

/-- 43 R152, R154, R155: a run and size symbol. A run past position 63 fails before any raw bit is read; otherwise the
extended raw value is placed at `k + run`, also for size 0 and for sizes above 10, and the block ends when the next
position is 64. -/
def Obligations.AcCoefficients : Prop :=
  ∀ (s : State) (run size : BitVec 4), s.phase = .decode .ac →
    (63 < s.blk.k + run.toNat →
      (∃ t, exec (.acRs run size) s = .next t ∧ s.FailedInScan t .corruptBlock) ∧
      (∃ t, exec (.acR0 run) s = .next t ∧ s.FailedInScan t .corruptBlock)) ∧
    (s.blk.k + run.toNat ≤ 63 →
      exec (.acR0 run) s = .next
        { s with
          zz := s.zz.setIfInBounds (s.blk.k + run.toNat) 0
          blk := { s.blk with k := s.blk.k + run.toNat + 1 }
          phase := if s.blk.k + run.toNat = 63 then .decode .blockDone else .decode .ac } ∧
      ∀ (v : Nat) (b : BitReader), s.br.readBits s.inByte s.scan.stop size.toNat = .ok v b →
        exec (.acRs run size) s = .next
          { s with
            br := b
            zz := s.zz.setIfInBounds (s.blk.k + run.toNat) (extend v size.toNat)
            blk := { s.blk with k := s.blk.k + run.toNat + 1 }
            phase := if s.blk.k + run.toNat = 63 then .decode .blockDone else .decode .ac })

/-- 42 R140, R143, 43 R150, R152: scan data that ends inside a code or inside raw bits, and 16 bits that match no
code, end the decode with MalformedEntropyStream at the position of the reader. -/
def Obligations.ScanDataExhausted : Prop :=
  ∀ (s : State) (b : BitReader),
    (s.host = [] → s.phase = .decode .dc → s.dcTable.decodeSym s.inByte s.scan.stop s.br = .fail b →
      ∃ t, step s = .next t ∧
        State.FailedInScan { s with br := b, zz := Vector.replicate 64 0 } t .malformedEntropyStream) ∧
    (s.host = [] → s.phase = .decode .ac → s.acTable.decodeSym s.inByte s.scan.stop s.br = .fail b →
      ∃ t, step s = .next t ∧ State.FailedInScan { s with br := b } t .malformedEntropyStream) ∧
    (∀ size : BitVec 4, s.phase = .decode .dc → s.br.readBits s.inByte s.scan.stop size.toNat = .fail b →
      ∃ t, exec (.dcDiff size) s = .next t ∧
        State.FailedInScan { s with br := b, zz := Vector.replicate 64 0 } t .malformedEntropyStream) ∧
    (∀ run size : BitVec 4, s.phase = .decode .ac → s.blk.k + run.toNat ≤ 63 →
      s.br.readBits s.inByte s.scan.stop size.toNat = .fail b →
      ∃ t, exec (.acRs run size) s = .next t ∧ State.FailedInScan { s with br := b } t .malformedEntropyStream)

/-- 42 R140, 30 R80: a stuffed pair in scan data, when the reader holds no bit, loads the byte 0xFF and passes both
bytes. That this item runs by itself is the model's (log 18): a step loads the pair inside the bit reader. -/
def Obligations.StuffedPair : Prop :=
  ∀ s : State, (s.phase = .decode .dc ∨ s.phase = .decode .ac) → s.br.bcnt = 0 →
    exec .stuff00 s = .next { s with br := ⟨s.br.bpos + 2, 0xFF, 8⟩ } ∧
    (s.br.bpos + 1 < s.scan.stop → s.inByte s.br.bpos = 0xFF → s.inByte (s.br.bpos + 1) = 0x00 →
      ∀ n, BitReader.readBits s.inByte s.scan.stop (n + 1) s.br =
        BitReader.readBits s.inByte s.scan.stop (n + 1) ⟨s.br.bpos + 2, 0xFF, 8⟩)

/-- 43 R156, R158: a finished block is dequantized into natural order, inverse transformed and written into its
component's plane at its place; the next block is the next column, row or component, or the MCU is finished. The block
counters and the place in the phase are the model's (logs 12, 2), and so is that ZZ and the rest of PLANE stay
(log 21). -/
def Obligations.BlockDone : Prop :=
  ∀ s : State, s.host = [] → s.phase = .decode .blockDone → s.frame.Ok s.params → s.BlockOk →
    ∃ t, step s = .next t ∧
      t = { s with coef := t.coef, plane := t.plane, blk := t.blk, phase := t.phase } ∧
      (∀ k, k < 64 → getAt t.coef (zigzag k) 0 =
        getAt s.zz k 0 *
          ((getAt (s.qt[(s.frame.comp s.blk.comp.val).tq.val]).vals (zigzag k) 0).toNat : Int)) ∧
      (∀ j y x, j < 3 → y < 16 → x < 16 → t.planeAt j y x =
        if j = s.blk.comp.val ∧ y / 8 = s.blk.row ∧ x / 8 = s.blk.col then
          getAt (idct s.params.idctGeneral t.coef) (8 * (y % 8) + x % 8) 0
        else s.planeAt j y x) ∧
      (s.blk.col + 1 < (s.frame.comp s.blk.comp.val).h →
        t.phase = .decode .dc ∧ t.blk = { s.blk with col := s.blk.col + 1 }) ∧
      (s.blk.col + 1 = (s.frame.comp s.blk.comp.val).h → s.blk.row + 1 < (s.frame.comp s.blk.comp.val).v →
        t.phase = .decode .dc ∧ t.blk = { s.blk with row := s.blk.row + 1, col := 0 }) ∧
      (s.blk.col + 1 = (s.frame.comp s.blk.comp.val).h → s.blk.row + 1 = (s.frame.comp s.blk.comp.val).v →
        s.blk.comp.val + 1 < s.frame.nf →
        t.phase = .decode .dc ∧ t.blk.comp.val = s.blk.comp.val + 1 ∧ t.blk.row = 0 ∧ t.blk.col = 0 ∧
          t.blk.k = s.blk.k) ∧
      (s.blk.col + 1 = (s.frame.comp s.blk.comp.val).h → s.blk.row + 1 = (s.frame.comp s.blk.comp.val).v →
        s.blk.comp.val + 1 = s.frame.nf → t.phase = .decode .mcuDone ∧ t.blk = s.blk)

/-! The inverse DCT. -/

/-- 44 R161, R162: a block whose AC coefficients are all zero is uniform, whatever `IDCT_GENERAL` is. -/
def Obligations.IdctDcOnly : Prop :=
  ∀ (g : IdctGeneral) (coef : Vector Int 64) (n : Nat), n < 64 → (∀ k, 1 ≤ k → k < 64 → getAt coef k 0 = 0) →
    ((getAt (idct g coef) n 0).toNat : Int) = min 255 (max 0 ((getAt coef 0 0 + 4) / 8 + 128))

/-- 44 R161, R163: the default transform of any other block, sample by sample: two passes with the constant matrix,
one rounding at the end. -/
def Obligations.IdctDefault : Prop :=
  ∀ (coef : Vector Int 64) (y x : Nat), y < 8 → x < 8 → (∃ k, 1 ≤ k ∧ k < 64 ∧ getAt coef k 0 ≠ 0) →
    ((getAt (idct .standard coef) (8 * y + x) 0).toNat : Int) =
      min 255 (max 0
        (((∑ v ∈ Finset.range 8, idctA v y * ∑ u ∈ Finset.range 8, idctA u x * getAt coef (8 * v + u) 0) + 2 ^ 25) /
          2 ^ 26 + 128))

/-- 44 R164: every realisation stays within one level of the default transform in every sample of a block that has a
non-zero AC coefficient. -/
def Obligations.IdctVariants : Prop :=
  ∀ (g : IdctGeneral) (coef : Vector Int 64) (n : Nat), n < 64 → (∃ k, 1 ≤ k ∧ k < 64 ∧ getAt coef k 0 ≠ 0) →
    ((getAt (idct g coef) n 0).toNat : Int) ≤ (getAt (idct .standard coef) n 0).toNat + 1 ∧
    ((getAt (idct .standard coef) n 0).toNat : Int) ≤ (getAt (idct g coef) n 0).toNat + 1

/-! Colour and raster. -/

/-- 45 R175: each of R, G, B is the nearest integer to its equation, ties up, clamped to a byte. -/
def Obligations.ColourConversion : Prop :=
  ∀ (y cb cr : Byte), ∃ r g b : Int,
    ycc2rgb y cb cr =
      [BitVec.ofInt 8 (min 255 (max 0 r)), BitVec.ofInt 8 (min 255 (max 0 g)), BitVec.ofInt 8 (min 255 (max 0 b))] ∧
    (2000000 * r - 1000000 ≤ 2000000 * y.toNat + 2804000 * ((cr.toNat : Int) - 128) ∧
      2000000 * y.toNat + 2804000 * ((cr.toNat : Int) - 128) < 2000000 * r + 1000000) ∧
    (2000000 * g - 1000000 ≤
        2000000 * y.toNat - 688272 * ((cb.toNat : Int) - 128) - 1428272 * ((cr.toNat : Int) - 128) ∧
      2000000 * y.toNat - 688272 * ((cb.toNat : Int) - 128) - 1428272 * ((cr.toNat : Int) - 128) <
        2000000 * g + 1000000) ∧
    (2000000 * b - 1000000 ≤ 2000000 * y.toNat + 3544000 * ((cb.toNat : Int) - 128) ∧
      2000000 * y.toNat + 3544000 * ((cb.toNat : Int) - 128) < 2000000 * b + 1000000)

/-- 45 R171, R172, R180, R181: a finished MCU writes, for each of its pixels inside the image, the bytes of that pixel
at its raster index, and no other byte; then the next MCU begins, or the end of the decode. The block counters and the
place in the phase are the model's (logs 12, 2), and so is that ZZ, COEF and PLANE stay (log 21). -/
def Obligations.EmitMcu : Prop :=
  ∀ s : State, s.host = [] → s.phase = .decode .mcuDone → (s.frame.nf = 1 ∨ s.frame.nf = 3) →
    ∃ t, step s = .next t ∧
      t = { s with
            outBuf := t.outBuf
            mcu := { s.mcu with idx := s.mcu.idx + 1 }
            blk := { s.blk with comp := 0, row := 0, col := 0 }
            phase := if s.mcu.idx + 1 < s.mcu.mcux * s.mcu.mcuy then .decode .dc else .decode .finish } ∧
      (∀ px py, s.InFootprint px py →
        (s.frame.nf = 1 →
          t.outByte (s.pixelRow py * s.frame.x.toNat + s.pixelCol px) = s.samplePoint 0 px py) ∧
        (s.frame.nf = 3 → ∀ ch, ch < 3 →
          t.outByte ((s.pixelRow py * s.frame.x.toNat + s.pixelCol px) * 3 + ch) =
            (ycc2rgb (s.samplePoint 0 px py) (s.samplePoint 1 px py) (s.samplePoint 2 px py)).getD ch 0)) ∧
      (∀ i, (¬ ∃ px py ch, s.InFootprint px py ∧ ch < s.frame.nf ∧
          i = (s.pixelRow py * s.frame.x.toNat + s.pixelCol px) * s.frame.nf + ch) →
        t.outByte i = s.outByte i)

/-- 43 R158, 45 R180, R181: every pixel of the image lies in exactly one MCU, at exactly one place of its footprint, so
a decode that runs through every MCU writes every raster byte once. -/
def Obligations.EveryPixelInOneMcu : Prop :=
  ∀ (f : FrameRegs) (p : Params), f.Ok p → ∀ x y, x < f.x.toNat → y < f.y.toNat →
    ∃ m px py, (m < f.mcuRegs.mcux * f.mcuRegs.mcuy ∧ px < 8 * f.mcuRegs.hmax ∧ py < 8 * f.mcuRegs.vmax ∧
      x = 8 * f.mcuRegs.hmax * (m % f.mcuRegs.mcux) + px ∧ y = 8 * f.mcuRegs.vmax * (m / f.mcuRegs.mcux) + py) ∧
      ∀ m' px' py', m' < f.mcuRegs.mcux * f.mcuRegs.mcuy → px' < 8 * f.mcuRegs.hmax → py' < 8 * f.mcuRegs.vmax →
        x = 8 * f.mcuRegs.hmax * (m' % f.mcuRegs.mcux) + px' → y = 8 * f.mcuRegs.vmax * (m' / f.mcuRegs.mcux) + py' →
        m' = m ∧ px' = px ∧ py' = py

/-- 60 R218, R219, 43 R159, 46 R198: successful completion sets DONE, goes idle and changes nothing else, whatever bits
are left; and the interrupt line rises with the end of any decode when it is enabled. The working buffers stay by the
model's choice (log 21). -/
def Obligations.Completion : Prop :=
  ∀ s : State, s.host = [] →
    (s.phase = .decode .finish →
      step s = .next { s with csr := { s.csr with done := true }, phase := .idle }) ∧
    (∀ t, s.busy = true → s.csr.irqEn = true → step s = .next t → t.busy = false → t.irq = true)

/-! The host interface. -/

/-- 46 R191, 10 R24: a CTRL write. The copy of OUT_BUF that START takes is the model's (log 7), and so are the place in
the phase (log 2) and that the working buffers stay (log 21). -/
def Obligations.CtrlWrite : Prop :=
  ∀ (s : State) (v : Word),
    (v.getLsbD 0 = true → s.busy = false →
      ∃ t, exec (.csrCtrl 0 ⟨.four, .write, v⟩) s = .next t ∧
        t = { s with
              csr := { s.csr with
                       irqEn := v.getLsbD 1, done := false, err := false, errKind := .none
                       errOffset := 0, errMarker := 0, imgWidth := 0, imgHeight := 0, imgChannels := 0, outLen := 0 }
              phase := .parse .soi
              qt := t.qt, htDc := t.htDc, htAc := t.htAc
              frame := { s.frame with valid := false }
              scan := { s.scan with valid := false }
              outOld := s.outBuf } ∧
        ∀ k, k < 4 →
          getAt t.qt k .reset = { getAt s.qt k .reset with valid := false } ∧
          getAt t.htDc k .reset = { getAt s.htDc k .reset with valid := false } ∧
          getAt t.htAc k .reset = { getAt s.htAc k .reset with valid := false }) ∧
    (v.getLsbD 0 = false ∨ s.busy = true →
      exec (.csrCtrl 0 ⟨.four, .write, v⟩) s = .next { s with csr := { s.csr with irqEn := v.getLsbD 1 } })

/-- 46 R192, R193: the STATUS and IN_LEN writes. -/
def Obligations.StatusAndInLenWrites : Prop :=
  ∀ (s : State) (v : Word),
    exec (.csrStatus 0 ⟨.four, .write, v⟩) s = .next
      { s with csr := { s.csr with
          done := if v.getLsbD 1 = true then false else s.csr.done
          err := if v.getLsbD 2 = true then false else s.csr.err } } ∧
    exec (.csrInLen 0 ⟨.four, .write, v⟩) s = .next
      (if s.busy = true then s
       else { s with csr := { s.csr with inLen := min v.toNat s.params.inMax } })

/-- 46 R195, 10 R23 to R32: every CSR read answers the fields at their bits with reserved bits 0, and changes nothing
else. The word read is left in the model's `rdata` (log 11). -/
def Obligations.CsrReads : Prop :=
  ∀ (s : State) (d : Word), s.params.legal → s.csr.inLen ≤ s.params.inMax → s.csr.errOffset ≤ s.params.inMax →
    s.csr.outLen ≤ s.params.outMax →
    exec (.csrId 0 ⟨.four, .read, d⟩) s = .next { s with rdata := 0x4A504547 } ∧
    exec (.csrCtrl 0 ⟨.four, .read, d⟩) s = .next { s with rdata := if s.csr.irqEn = true then 2 else 0 } ∧
    (∃ r, exec (.csrStatus 0 ⟨.four, .read, d⟩) s = .next { s with rdata := r } ∧
      r.getLsbD 0 = s.busy ∧ r.getLsbD 1 = s.csr.done ∧ r.getLsbD 2 = s.csr.err ∧ r.getLsbD 3 = false ∧
      r.extractLsb' 4 3 = s.csr.errKind.code ∧ r.extractLsb' 7 25 = 0) ∧
    (∃ r, exec (.csrInLen 0 ⟨.four, .read, d⟩) s = .next { s with rdata := r } ∧ r.toNat = s.csr.inLen) ∧
    (∃ r, exec (.csrErrOffset 0 ⟨.four, .read, d⟩) s = .next { s with rdata := r } ∧ r.toNat = s.csr.errOffset) ∧
    exec (.csrErrMarker 0 ⟨.four, .read, d⟩) s = .next { s with rdata := 0#16 ++ s.csr.errMarker } ∧
    exec (.csrImgWidth 0 ⟨.four, .read, d⟩) s = .next { s with rdata := 0#16 ++ s.csr.imgWidth } ∧
    exec (.csrImgHeight 0 ⟨.four, .read, d⟩) s = .next { s with rdata := 0#16 ++ s.csr.imgHeight } ∧
    exec (.csrImgChannels 0 ⟨.four, .read, d⟩) s = .next { s with rdata := 0#30 ++ s.csr.imgChannels } ∧
    (∃ r, exec (.csrOutLen 0 ⟨.four, .read, d⟩) s = .next { s with rdata := r } ∧ r.toNat = s.csr.outLen)

/-- 20 R58, R61, 46 R197: what is not performed. A CSR access that is not an aligned word, a buffer access of 2 bytes
or of 4 misaligned bytes, a reserved offset and an unmapped address read 0 and write nothing; the read-only CSRs ignore
writes. The word read is left in the model's `rdata` (log 11). -/
def Obligations.IgnoredAccesses : Prop :=
  (∀ (i : Instr) (a : Access) (s : State), i.RefusedForm a →
    (a.dir = .read → exec i s = .next { s with rdata := 0 }) ∧ (a.dir = .write → exec i s = .next s)) ∧
  (∀ (v : Word) (s : State),
    exec (.csrId 0 ⟨.four, .write, v⟩) s = .next s ∧
    exec (.csrErrOffset 0 ⟨.four, .write, v⟩) s = .next s ∧
    exec (.csrErrMarker 0 ⟨.four, .write, v⟩) s = .next s ∧
    exec (.csrImgWidth 0 ⟨.four, .write, v⟩) s = .next s ∧
    exec (.csrImgHeight 0 ⟨.four, .write, v⟩) s = .next s ∧
    exec (.csrImgChannels 0 ⟨.four, .write, v⟩) s = .next s ∧
    exec (.csrOutLen 0 ⟨.four, .write, v⟩) s = .next s)

/-- 46 R194, 20 R60, R67: a buffer write, one byte or four little-endian, stores its bytes and no other; while busy it
is dropped. -/
def Obligations.BufferWrites : Prop :=
  ∀ (s : State) (i : BitVec 24) (v : Word),
    (s.busy = true → ∀ w : Width,
      exec (.inbuf i ⟨w, .write, v⟩) s = .next s ∧ exec (.outbuf i ⟨w, .write, v⟩) s = .next s) ∧
    (s.busy = false → ∀ (w : Width) (n : Nat), (w = .one ∧ n = 1 ∨ w = .four ∧ n = 4 ∧ i.toNat % 4 = 0) →
      (∃ t, exec (.inbuf i ⟨w, .write, v⟩) s = .next t ∧ t = { s with inBuf := t.inBuf } ∧
        ∀ a, t.inByte a =
          if i.toNat ≤ a ∧ a < i.toNat + n then v.extractLsb' (8 * (a - i.toNat)) 8 else s.inByte a) ∧
      (∃ t, exec (.outbuf i ⟨w, .write, v⟩) s = .next t ∧ t = { s with outBuf := t.outBuf } ∧
        ∀ a, t.outByte a =
          if i.toNat ≤ a ∧ a < i.toNat + n then v.extractLsb' (8 * (a - i.toNat)) 8 else s.outByte a))

/-- 46 R196, 20 R60, R65(c): a buffer read. Each byte of an OUT_BUF read made while busy is the byte from before the
decode or the byte it holds now. The draw counter is the model's (log 7). -/
def Obligations.BufferReads : Prop :=
  ∀ (s : State) (i : BitVec 24) (d : Word),
    exec (.inbuf i ⟨.one, .read, d⟩) s = .next { s with rdata := 0#24 ++ s.inByte i.toNat } ∧
    (i.toNat % 4 = 0 →
      exec (.inbuf i ⟨.four, .read, d⟩) s = .next
        { s with
          rdata := s.inByte (i.toNat + 3) ++ s.inByte (i.toNat + 2) ++ s.inByte (i.toNat + 1) ++ s.inByte i.toNat }) ∧
    (s.busy = false →
      exec (.outbuf i ⟨.one, .read, d⟩) s = .next { s with rdata := 0#24 ++ s.outByte i.toNat } ∧
      (i.toNat % 4 = 0 →
        exec (.outbuf i ⟨.four, .read, d⟩) s = .next
          { s with
            rdata := s.outByte (i.toNat + 3) ++ s.outByte (i.toNat + 2) ++ s.outByte (i.toNat + 1) ++
              s.outByte i.toNat })) ∧
    (s.busy = true →
      (∃ r : Word, exec (.outbuf i ⟨.one, .read, d⟩) s = .next { s with rdata := r, freeIdx := s.freeIdx + 1 } ∧
        r.extractLsb' 8 24 = 0 ∧
        (r.extractLsb' 0 8 = s.outByte i.toNat ∨ r.extractLsb' 0 8 = s.outByteOld i.toNat)) ∧
      (i.toNat % 4 = 0 →
        ∃ r : Word, exec (.outbuf i ⟨.four, .read, d⟩) s = .next { s with rdata := r, freeIdx := s.freeIdx + 1 } ∧
          ∀ k, k < 4 → r.extractLsb' (8 * k) 8 = s.outByte (i.toNat + k) ∨
            r.extractLsb' (8 * k) 8 = s.outByteOld (i.toNat + k)))

/-- 70 R230, 10 R44: the reset input, in any phase. The registers R44 leaves unspecified take the model's values
(log 9); the parameters, the queue and the draw counter are the model's and stay (log 10). -/
def Obligations.HardwareReset : Prop :=
  ∀ (s : State) (rest : List HostSlot), s.host = ⟨0, .reset⟩ :: rest →
    ∃ t, step s = .next t ∧
      t = { State.reset with params := s.params, host := rest, freeIdx := s.freeIdx, epoch := s.epoch + 1 } ∧
      t.phase = .idle ∧ t.irq = false ∧ t.statusWord = 0 ∧ t.ctrlWord = 0 ∧ t.csr.inLen = 0 ∧
      t.csr.errOffset = 0 ∧ t.csr.errMarker = 0 ∧ t.csr.imgWidth = 0 ∧ t.csr.imgHeight = 0 ∧
      t.csr.imgChannels = 0 ∧ t.csr.outLen = 0 ∧ t.frame.valid = false ∧ t.scan.valid = false ∧
      ∀ k, k < 4 → (getAt t.qt k .reset).valid = false ∧ (getAt t.htDc k .reset).valid = false ∧
        (getAt t.htAc k .reset).valid = false

/-! Rules of the whole machine. -/

/-- The invariants below hold right after reset, 10 R44; the registers R44 leaves unspecified hold the model's values
(log 9). -/
def Obligations.ResetMeetsInvariants : Prop :=
  State.reset.StatusOk ∧ State.reset.BuffersOk ∧ State.reset.StreamOk ∧ State.reset.BoundsOk

/-- 60 R221, 46 R197: no step of any state stops. -/
def Obligations.EveryStepGoesOn : Prop := ∀ s : State, ∃ t, step s = .next t

/-- 10 R43, 60 R214, R218: the status flags and the recorded failure fit together after every step; that DONE and ERR
are never both 1 is an inference of 10 R25 that the spec marks as derived. -/
def Obligations.StatusInvariant : Prop := ∀ s t : State, s.StatusOk → step s = .next t → t.StatusOk

/-- Every step keeps the buffers in canonical form (the model's own form of 20 R56 and R57, log 6). -/
def Obligations.BuffersInvariant : Prop := ∀ s t : State, s.BuffersOk → step s = .next t → t.BuffersOk

/-- 10 R26 to R40, 41 R123: every step keeps the registers of a run in their ranges; the ranges of the bit reader are
42 R146, an inference the spec marks as derived. -/
def Obligations.StreamInvariant : Prop := ∀ s t : State, s.StreamOk → step s = .next t → t.StreamOk

/-- 20 R56, R57, R69, 45 R181: no step writes a buffer outside itself, and a decode changes OUT_BUF below OUT_LEN only.
The copy of OUT_BUF at START that it is compared with is the model's (log 7). -/
def Obligations.BoundsInvariant : Prop :=
  ∀ s t : State, s.StreamOk → s.BoundsOk → step s = .next t → t.BoundsOk

/-- A decode left to itself ends (the inference of 60 R221, which the spec marks as derived). -/
def Obligations.DecodeTerminates : Prop :=
  ∀ s : State, s.StreamOk → s.host = [] → ∃ n t, Sys2Proof.core.run n s = .next t ∧ t.phase = .idle

/-- 20 R69: while a decode runs, a core step depends on IN_BUF below IN_LEN only, and on nothing the host has yet to
do or has read. -/
def Obligations.CoreReadsOnlyTheStream : Prop :=
  ∀ (s t : State) (m : Memory) (h : List HostSlot) (r : Word), s.StreamOk →
    (∀ i, i < s.csr.inLen → State.inByte { s with inBuf := m } i = s.inByte i) →
    coreStep s = .next t →
    coreStep { s with inBuf := m, host := h, rdata := r } = .next { t with inBuf := m, host := h, rdata := r }

/-- 20 R67, 42 R135: a step of a busy machine that is no hardware reset leaves IN_BUF and IN_LEN as they stood at
START; in phase 2 it changes no table, frame or scan register and no image CSR either. -/
def Obligations.FixedWhileBusy : Prop :=
  ∀ s t : State, s.busy = true → (∀ rest, s.host ≠ ⟨0, .reset⟩ :: rest) → step s = .next t →
    t.inBuf = s.inBuf ∧ t.csr.inLen = s.csr.inLen ∧ t.params = s.params ∧ t.epoch = s.epoch ∧
    ∀ d, s.phase = .decode d →
      t.qt = s.qt ∧ t.htDc = s.htDc ∧ t.htAc = s.htAc ∧ t.frame = s.frame ∧ t.scan = s.scan ∧
      t.csr.imgWidth = s.csr.imgWidth ∧ t.csr.imgHeight = s.csr.imgHeight ∧
      t.csr.imgChannels = s.csr.imgChannels ∧ t.csr.outLen = s.csr.outLen

/-- 60 R212, R211: a failure of phase 2 is MalformedEntropyStream or CorruptBlock, at BPOS under the SOS marker. -/
def Obligations.Phase2FailureKinds : Prop :=
  ∀ (s t : State) (d : DecodeAt), s.host = [] → s.phase = .decode d → s.csr.err = false → step s = .next t →
    t.csr.err = true →
    (t.csr.errKind = .malformedEntropyStream ∨ t.csr.errKind = .corruptBlock) ∧
    t.csr.errOffset = t.br.bpos ∧ t.csr.errMarker = 0xFFDA ∧ t.phase = .idle

/-- 10 R43, 46 R191, 70 R233: the status flags and the error CSRs change only at the end of a decode, at START, at a
STATUS write or at reset; and only a START write takes the machine out of IDLE, to the SOI check. -/
def Obligations.StatusWriters : Prop :=
  ∀ s t : State, step s = .next t →
    ((t.csr.done ≠ s.csr.done ∨ t.csr.err ≠ s.csr.err ∨ t.csr.errKind ≠ s.csr.errKind ∨
        t.csr.errOffset ≠ s.csr.errOffset ∨ t.csr.errMarker ≠ s.csr.errMarker) →
      (s.busy = true ∧ t.busy = false) ∨ (s.busy = false ∧ t.phase = .parse .soi) ∨
      (∃ r rest v, s.host = ⟨0, .access r⟩ :: rest ∧
        decodeHost s.params r.addr r.acc = .csrStatus 0 ⟨.four, .write, v⟩) ∨
      (∃ rest, s.host = ⟨0, .reset⟩ :: rest)) ∧
    (s.phase = .idle → t.phase ≠ .idle →
      t.phase = .parse .soi ∧
      ∃ r rest v, s.host = ⟨0, .access r⟩ :: rest ∧
        decodeHost s.params r.addr r.acc = .csrCtrl 0 ⟨.four, .write, v⟩ ∧ v.getLsbD 0 = true)

/-- 10 R33: in PARSE the cursor moves forward with every step that does not leave the phase, and never beyond IN_LEN.
That a fill byte moves it in a step of its own is the model's granularity (log 2); its value from an accepted SOS on
(SCAN_E, then past the fill bytes before the terminating marker) and after a failure is the model's (log 3): the spec
gives the cursor no value there. -/
def Obligations.CursorMovesForward : Prop :=
  ∀ (s t : State) (pt : ParseAt), s.StreamOk → s.host = [] → s.phase = .parse pt → pt ≠ .soi → step s = .next t →
    t.cur ≤ t.csr.inLen ∧ s.cur ≤ t.cur ∧ ((∃ pt', t.phase = .parse pt') → s.cur < t.cur)
end

