-- ==== Sys2Proof/Laws/Arrays.lean ====
section
/-! SUPPORT. Reading the register arrays: `tabulate`, `getAt`, and the zigzag permutation (spec 30 R76). -/

namespace Sys2Proof.Machine

theorem getAt_lt {α : Type} {n : Nat} (v : Vector α n) (i : Nat) (d : α) (h : i < n) : getAt v i d = v[i] := by
  simp [getAt, h]

theorem getAt_ge {α : Type} {n : Nat} (v : Vector α n) (i : Nat) (d : α) (h : n ≤ i) : getAt v i d = d := by
  simp [getAt, Nat.not_lt.2 h]

@[simp] theorem getElem_tabulate {α : Type} (n : Nat) (f : Nat → α) (i : Nat) (h : i < n) :
    (tabulate n f)[i] = f i := by
  simp [tabulate]

@[simp] theorem getAt_tabulate {α : Type} (n : Nat) (f : Nat → α) (i : Nat) (d : α) :
    getAt (tabulate n f) i d = if i < n then f i else d := by
  by_cases h : i < n <;> simp [getAt, h]

@[simp] theorem getAt_replicate {α : Type} (n : Nat) (a : α) (i : Nat) (d : α) :
    getAt (Vector.replicate n a) i d = if i < n then a else d := by
  by_cases h : i < n <;> simp [getAt, h]

theorem getAt_set {α : Type} {n : Nat} (v : Vector α n) (j : Nat) (hj : j < n) (a : α) (i : Nat) (d : α) :
    getAt (v.set j a) i d = if i = j then a else getAt v i d := by
  by_cases h : i < n
  · by_cases e : i = j
    · subst e; simp [getAt, h]
    · simp [getAt, h, e, Vector.getElem_set_ne, Ne.symm e]
  · have : i ≠ j := by omega
    simp [getAt, h, this]

theorem setIfInBounds_of_lt {α : Type} {n : Nat} (v : Vector α n) (j : Nat) (a : α) (h : j < n) :
    v.setIfInBounds j a = v.set j a h := by
  apply Vector.ext
  intro i hi
  by_cases e : i = j
  · subst e; simp
  · simp [Vector.getElem_setIfInBounds_ne, Vector.getElem_set_ne, Ne.symm e]

theorem getAt_setIfInBounds {α : Type} {n : Nat} (v : Vector α n) (j : Nat) (a : α) (i : Nat) (d : α) :
    getAt (v.setIfInBounds j a) i d = if i = j ∧ i < n then a else getAt v i d := by
  by_cases h : i < n
  · by_cases e : i = j
    · subst e; simp [getAt, h]
    · simp [getAt, h, e, Ne.symm e]
  · simp [getAt, h]

theorem getAt_map {α β : Type} {n : Nat} (v : Vector α n) (f : α → β) (i : Nat) (d : α) (e : β) (h : i < n) :
    getAt (v.map f) i e = f (getAt v i d) := by
  simp [getAt, h]

theorem vector_ext_getAt {α : Type} {n : Nat} {v w : Vector α n} (d : α)
    (h : ∀ i, i < n → getAt v i d = getAt w i d) : v = w := by
  apply Vector.ext
  intro i hi
  simpa [getAt, hi] using h i hi

theorem zigzag_lt {k : Nat} (h : k < 64) : zigzag k < 64 :=
  (by decide : ∀ k : Fin 64, zigzag k < 64) ⟨k, h⟩

theorem zigzagPos_lt {n : Nat} (h : n < 64) : zigzagPos n < 64 :=
  (by decide : ∀ n : Fin 64, zigzagPos n < 64) ⟨n, h⟩

theorem zigzagPos_zigzag {k : Nat} (h : k < 64) : zigzagPos (zigzag k) = k :=
  (by decide : ∀ k : Fin 64, zigzagPos (zigzag k) = k) ⟨k, h⟩

theorem zigzag_zigzagPos {n : Nat} (h : n < 64) : zigzag (zigzagPos n) = n :=
  (by decide : ∀ n : Fin 64, zigzag (zigzagPos n) = n) ⟨n, h⟩

theorem getAt_unzigzag {α : Type} (f : Nat → α) (k : Nat) (d : α) (h : k < 64) :
    getAt (unzigzag f) (zigzag k) d = f k := by
  simp [unzigzag, zigzag_lt h, zigzagPos_zigzag h]

end Sys2Proof.Machine
end

