-- ==== Sys2Proof/Laws/BitReader.lean ====
section
/-! SUPPORT. What the bit reader and the Huffman match do (spec 42 R140 to R146). -/

namespace Sys2Proof.Machine

/-! One bit. -/

theorem BitReader.readBit_held (rd : Nat → Byte) (lim : Nat) {b : BitReader} (h : 0 < b.bcnt) :
    b.readBit rd lim = .ok (b.bbuf.getLsbD (b.bcnt - 1)).toNat { b with bcnt := b.bcnt - 1 } := by
  simp only [BitReader.readBit, if_neg (by omega : ¬ b.bcnt = 0)]

theorem BitReader.readBit_plain {rd : Nat → Byte} {lim : Nat} {b : BitReader} (h : b.bcnt = 0) (h1 : b.bpos < lim)
    (h2 : rd b.bpos ≠ 0xFF) :
    b.readBit rd lim = .ok ((rd b.bpos).getLsbD 7).toNat ⟨b.bpos + 1, rd b.bpos, 7⟩ := by
  simp only [BitReader.readBit, h, if_true, BitReader.fill, if_neg (Nat.not_le.2 h1), if_neg h2, BitReader.loadPlain]

theorem BitReader.readBit_stuffed {rd : Nat → Byte} {lim : Nat} {b : BitReader} (h : b.bcnt = 0)
    (h1 : b.bpos + 1 < lim) (h2 : rd b.bpos = 0xFF) (h3 : rd (b.bpos + 1) = 0x00) :
    b.readBit rd lim = .ok 1 ⟨b.bpos + 2, 0xFF, 7⟩ := by
  simp only [BitReader.readBit, h, if_true, BitReader.fill, if_neg (by omega : ¬ lim ≤ b.bpos), if_pos h2,
    if_pos (And.intro h1 h3), BitReader.loadStuffed]
  rfl

theorem BitReader.readBit_fail {rd : Nat → Byte} {lim : Nat} {b : BitReader} (h : b.bcnt = 0)
    (h1 : lim ≤ b.bpos ∨ rd b.bpos = 0xFF ∧ (lim ≤ b.bpos + 1 ∨ rd (b.bpos + 1) ≠ 0x00)) :
    b.readBit rd lim = .fail b := by
  have : b.fill rd lim = none := by
    unfold BitReader.fill
    by_cases c : lim ≤ b.bpos
    · rw [if_pos c]
    · obtain ⟨h2, h3⟩ := h1.resolve_left c
      rw [if_neg c, if_pos h2, if_neg]
      rintro ⟨x, y⟩
      rcases h3 with h3 | h3
      · omega
      · exact h3 y
  simp only [BitReader.readBit, h, if_true, this]

/-- The four things one bit read can do. -/
theorem BitReader.readBit_cases (rd : Nat → Byte) (lim : Nat) (b : BitReader) :
    (0 < b.bcnt ∧ b.readBit rd lim = .ok (b.bbuf.getLsbD (b.bcnt - 1)).toNat { b with bcnt := b.bcnt - 1 }) ∨
    (b.bcnt = 0 ∧ b.bpos < lim ∧ rd b.bpos ≠ 0xFF ∧
      b.readBit rd lim = .ok ((rd b.bpos).getLsbD 7).toNat ⟨b.bpos + 1, rd b.bpos, 7⟩) ∨
    (b.bcnt = 0 ∧ b.bpos + 1 < lim ∧ rd b.bpos = 0xFF ∧ rd (b.bpos + 1) = 0x00 ∧
      b.readBit rd lim = .ok 1 ⟨b.bpos + 2, 0xFF, 7⟩) ∨
    (b.bcnt = 0 ∧ (lim ≤ b.bpos ∨ rd b.bpos = 0xFF ∧ (lim ≤ b.bpos + 1 ∨ rd (b.bpos + 1) ≠ 0x00)) ∧
      b.readBit rd lim = .fail b) := by
  rcases Nat.eq_zero_or_pos b.bcnt with h | h
  · by_cases h1 : b.bpos < lim
    · by_cases h2 : rd b.bpos = 0xFF
      · by_cases h3 : b.bpos + 1 < lim ∧ rd (b.bpos + 1) = 0x00
        · exact .inr (.inr (.inl ⟨h, h3.1, h2, h3.2, readBit_stuffed h h3.1 h2 h3.2⟩))
        · have h4 : lim ≤ b.bpos + 1 ∨ rd (b.bpos + 1) ≠ 0x00 := by
            by_contra c
            simp only [not_or, not_le, not_not] at c
            exact h3 c
          exact .inr (.inr (.inr ⟨h, .inr ⟨h2, h4⟩, readBit_fail h (.inr ⟨h2, h4⟩)⟩))
      · exact .inr (.inl ⟨h, h1, h2, readBit_plain h h1 h2⟩)
    · exact .inr (.inr (.inr ⟨h, .inl (by omega), readBit_fail h (.inl (by omega))⟩))
  · exact .inl ⟨h, readBit_held rd lim h⟩

theorem BitReader.readBit_le_one {rd : Nat → Byte} {lim x : Nat} {b b' : BitReader}
    (h : b.readBit rd lim = .ok x b') : x ≤ 1 := by
  have hb : ∀ c : Bool, c.toNat ≤ 1 := by decide
  rcases b.readBit_cases rd lim with ⟨_, e⟩ | ⟨_, _, _, e⟩ | ⟨_, _, _, _, e⟩ | ⟨_, _, e⟩ <;> rw [e] at h <;>
    cases h
  · exact hb _
  · exact hb _
  · exact le_refl _

/-- A reader that stands inside the scan data stays there, and never goes back (42 R146). -/
theorem BitReader.readBit_bounds {rd : Nat → Byte} {lim x : Nat} {b b' : BitReader}
    (h : b.readBit rd lim = .ok x b') (hl : b.bpos ≤ lim) (hc : b.bcnt ≤ 8) :
    b.bpos ≤ b'.bpos ∧ b'.bpos ≤ lim ∧ b'.bcnt ≤ 8 := by
  rcases b.readBit_cases rd lim with ⟨_, e⟩ | ⟨_, _, _, e⟩ | ⟨_, _, _, _, e⟩ | ⟨_, _, e⟩ <;> rw [e] at h <;>
    cases h <;> simp <;> omega

theorem BitReader.readBit_same {rd : Nat → Byte} {lim : Nat} {b b' : BitReader}
    (h : b.readBit rd lim = .fail b') : b' = b := by
  rcases b.readBit_cases rd lim with ⟨_, e⟩ | ⟨_, _, _, e⟩ | ⟨_, _, _, _, e⟩ | ⟨_, _, e⟩ <;> rw [e] at h <;>
    cases h
  rfl

/-- The reader depends on the bytes below `lim` only (20 R69). -/
theorem BitReader.readBit_congr {rd rd' : Nat → Byte} {lim : Nat} (h : ∀ i, i < lim → rd' i = rd i)
    (b : BitReader) : b.readBit rd' lim = b.readBit rd lim := by
  rcases b.readBit_cases rd lim with ⟨a, e⟩ | ⟨a, c, d, e⟩ | ⟨a, c, d, f, e⟩ | ⟨a, c, e⟩ <;> rw [e]
  · exact readBit_held rd' lim a
  · rw [← h _ c] at d ⊢
    exact readBit_plain a c d
  · exact readBit_stuffed a c (by rw [h _ (by omega), d]) (by rw [h _ c, f])
  · refine readBit_fail a ?_
    by_cases c1 : lim ≤ b.bpos
    · exact .inl c1
    · obtain ⟨c2, c3⟩ := c.resolve_left c1
      refine .inr ⟨by rw [h _ (by omega), c2], ?_⟩
      by_cases c4 : lim ≤ b.bpos + 1
      · exact .inl c4
      · exact .inr (by rw [h _ (by omega)]; exact c3.resolve_left c4)

/-! Several bits. -/

theorem BitReader.readMore_eq (rd : Nat → Byte) (lim n v : Nat) (b : BitReader) :
    BitReader.readMore rd lim n v b =
      match b.readBits rd lim n with
      | .fail b' => .fail b'
      | .ok w b' => .ok (v * 2 ^ n + w) b' := by
  induction n generalizing v b with
  | zero => simp [BitReader.readBits, BitReader.readMore]
  | succ n ih =>
    simp only [BitReader.readBits, BitReader.readMore]
    cases b.readBit rd lim with
    | fail b' => rfl
    | ok x b' =>
      dsimp only
      rw [ih (2 * v + x) b', ih (2 * 0 + x) b']
      cases b'.readBits rd lim n with
      | fail b2 => rfl
      | ok w b2 =>
        dsimp only
        congr 1
        ring

theorem BitReader.readBits_zero (rd : Nat → Byte) (lim : Nat) (b : BitReader) : b.readBits rd lim 0 = .ok 0 b := rfl

/-- The first bit of a run is its most significant one. -/
theorem BitReader.readBits_succ (rd : Nat → Byte) (lim n : Nat) (b : BitReader) :
    b.readBits rd lim (n + 1) =
      match b.readBit rd lim with
      | .fail b' => .fail b'
      | .ok x b' =>
        match b'.readBits rd lim n with
        | .fail b2 => .fail b2
        | .ok w b2 => .ok (x * 2 ^ n + w) b2 := by
  simp only [BitReader.readBits, BitReader.readMore]
  cases b.readBit rd lim with
  | fail b' => rfl
  | ok x b' =>
    dsimp only
    rw [BitReader.readMore_eq]
    simp only [Nat.mul_zero, Nat.zero_add, BitReader.readBits]

theorem BitReader.readBits_add {rd : Nat → Byte} {lim m n v w : Nat} {b b1 b2 : BitReader}
    (h1 : b.readBits rd lim m = .ok v b1) (h2 : b1.readBits rd lim n = .ok w b2) :
    b.readBits rd lim (m + n) = .ok (v * 2 ^ n + w) b2 := by
  induction m generalizing v b with
  | zero =>
    rw [readBits_zero] at h1
    cases h1
    simpa using h2
  | succ m ih =>
    rw [readBits_succ] at h1
    rw [Nat.succ_add, readBits_succ]
    cases hb : b.readBit rd lim with
    | fail b' => rw [hb] at h1; cases h1
    | ok x b' =>
      rw [hb] at h1
      dsimp only at h1 ⊢
      cases hm : b'.readBits rd lim m with
      | fail b3 => rw [hm] at h1; cases h1
      | ok u b3 =>
        rw [hm] at h1
        cases h1
        rw [ih hm]
        dsimp only
        congr 1
        rw [Nat.pow_add]
        ring

/-- A run of `m + n` bits is a run of `m` bits followed by a run of `n` bits. -/
theorem BitReader.readBits_split {rd : Nat → Byte} {lim m n u : Nat} {b b2 : BitReader}
    (h : b.readBits rd lim (m + n) = .ok u b2) :
    ∃ v w b1, b.readBits rd lim m = .ok v b1 ∧ b1.readBits rd lim n = .ok w b2 ∧ u = v * 2 ^ n + w := by
  induction m generalizing u b with
  | zero => exact ⟨0, u, b, rfl, by simpa using h, by simp⟩
  | succ m ih =>
    rw [Nat.succ_add, readBits_succ] at h
    cases hb : b.readBit rd lim with
    | fail b' => rw [hb] at h; cases h
    | ok x b' =>
      rw [hb] at h
      dsimp only at h
      cases hm : b'.readBits rd lim (m + n) with
      | fail b3 => rw [hm] at h; cases h
      | ok z b3 =>
        rw [hm] at h
        cases h
        obtain ⟨v, w, b1, e1, e2, e3⟩ := ih hm
        refine ⟨x * 2 ^ m + v, w, b1, ?_, e2, ?_⟩
        · rw [readBits_succ, hb]
          dsimp only
          rw [e1]
        · rw [e3, Nat.pow_add]
          ring

theorem BitReader.readBits_lt {rd : Nat → Byte} {lim n v : Nat} {b b' : BitReader}
    (h : b.readBits rd lim n = .ok v b') : v < 2 ^ n := by
  induction n generalizing v b with
  | zero => rw [readBits_zero] at h; cases h; decide
  | succ n ih =>
    rw [readBits_succ] at h
    cases hb : b.readBit rd lim with
    | fail b' => rw [hb] at h; cases h
    | ok x b1 =>
      rw [hb] at h
      dsimp only at h
      cases hm : b1.readBits rd lim n with
      | fail b3 => rw [hm] at h; cases h
      | ok w b3 =>
        rw [hm] at h
        cases h
        have := ih hm
        have hx := readBit_le_one hb
        have : x * 2 ^ n ≤ 1 * 2 ^ n := Nat.mul_le_mul_right _ hx
        rw [Nat.pow_succ]
        omega

theorem BitReader.readBits_bounds {rd : Nat → Byte} {lim n : Nat} {b : BitReader} (hl : b.bpos ≤ lim)
    (hc : b.bcnt ≤ 8) :
    (∀ v b', b.readBits rd lim n = .ok v b' → b.bpos ≤ b'.bpos ∧ b'.bpos ≤ lim ∧ b'.bcnt ≤ 8) ∧
    (∀ b', b.readBits rd lim n = .fail b' → b.bpos ≤ b'.bpos ∧ b'.bpos ≤ lim ∧ b'.bcnt ≤ 8) := by
  induction n generalizing b with
  | zero =>
    refine ⟨fun v b' h => ?_, fun b' h => ?_⟩
    · rw [readBits_zero] at h; cases h; exact ⟨le_refl _, hl, hc⟩
    · rw [readBits_zero] at h; cases h
  | succ n ih =>
    rw [readBits_succ]
    cases hb : b.readBit rd lim with
    | fail b1 =>
      have := readBit_same hb
      subst this
      refine ⟨fun v b' h => (by cases h), fun b' h => by cases h; exact ⟨le_refl _, hl, hc⟩⟩
    | ok x b1 =>
      obtain ⟨p1, p2, p3⟩ := readBit_bounds hb hl hc
      obtain ⟨i1, i2⟩ := ih p2 p3
      dsimp only
      cases hm : b1.readBits rd lim n with
      | fail b3 =>
        have := i2 b3 hm
        refine ⟨fun v b' h => (by cases h), fun b' h => by cases h; omega⟩
      | ok w b3 =>
        have := i1 w b3 hm
        refine ⟨fun v b' h => (by cases h; omega), fun b' h => by cases h⟩

theorem BitReader.readBits_congr {rd rd' : Nat → Byte} {lim : Nat} (h : ∀ i, i < lim → rd' i = rd i) (n : Nat)
    (b : BitReader) : b.readBits rd' lim n = b.readBits rd lim n := by
  induction n generalizing b with
  | zero => rfl
  | succ n ih => simp only [readBits_succ, readBit_congr h, ih]

/-! The Huffman match. -/

theorem HuffTable.lookup_none (t : HuffTable) (n code : Nat) :
    t.lookup n code = none ↔
      ¬ ((getAt t.mincode (n - 1) 0).toNat ≤ code ∧
         code < (getAt t.mincode (n - 1) 0).toNat + (getAt t.counts (n - 1) 0).toNat) := by
  simp only [HuffTable.lookup, ite_eq_right_iff, reduceCtorEq, imp_false]
  constructor
  · rintro h ⟨a, b⟩; exact h ⟨by omega, a, b⟩
  · rintro h ⟨_, a, b⟩; exact h ⟨a, b⟩

theorem HuffTable.lookup_some (t : HuffTable) (n j : Nat) (h : j < (getAt t.counts (n - 1) 0).toNat) :
    t.lookup n ((getAt t.mincode (n - 1) 0).toNat + j) =
      some (getAt t.syms ((getAt t.valptr (n - 1) 0).toNat + j) 0) := by
  simp only [HuffTable.lookup]
  rw [if_pos ⟨by omega, by omega, by omega⟩]
  congr 2
  omega

/-- The match goes on past `m` bits that match no code. -/
theorem HuffTable.decodeFrom_skip (t : HuffTable) (rd : Nat → Byte) (lim : Nat) {m v : Nat} {b b' : BitReader}
    (rem n code : Nat) (h : b.readBits rd lim m = .ok v b')
    (hn : ∀ k, 1 ≤ k → k ≤ m → t.lookup (n + k - 1) (code * 2 ^ k + v / 2 ^ (m - k)) = none) :
    t.decodeFrom rd lim (m + rem) n code b = t.decodeFrom rd lim rem (n + m) (code * 2 ^ m + v) b' := by
  induction m generalizing v b n code with
  | zero =>
    rw [BitReader.readBits_zero] at h
    cases h
    simp
  | succ m ih =>
    rw [BitReader.readBits_succ] at h
    cases hb : b.readBit rd lim with
    | fail b1 => rw [hb] at h; cases h
    | ok x b1 =>
      rw [hb] at h
      dsimp only at h
      cases hm : b1.readBits rd lim m with
      | fail b3 => rw [hm] at h; cases h
      | ok w b3 =>
        rw [hm] at h
        cases h
        have hw := BitReader.readBits_lt hm
        have h1 := hn 1 (le_refl _) (by omega)
        have e1 : (x * 2 ^ m + w) / 2 ^ (m + 1 - 1) = x := by
          rw [Nat.add_sub_cancel, Nat.mul_comm, Nat.mul_add_div (Nat.two_pow_pos m), Nat.div_eq_of_lt hw, Nat.add_zero]
        rw [e1] at h1
        have e2 : code * 2 ^ 1 + x = 2 * code + x := by omega
        rw [e2, Nat.add_sub_cancel] at h1
        rw [Nat.succ_add]
        simp only [HuffTable.decodeFrom, hb, h1]
        rw [ih (n + 1) (2 * code + x) hm ?_]
        · congr 1
          · omega
          · rw [Nat.pow_succ]; ring
        · intro k k1 k2
          have := hn (k + 1) (by omega) (by omega)
          have e3 : (x * 2 ^ m + w) / 2 ^ (m + 1 - (k + 1)) = x * 2 ^ k + w / 2 ^ (m - k) := by
            have : 2 ^ m = 2 ^ (m - k) * 2 ^ k := by rw [← Nat.pow_add]; congr 1; omega
            rw [(by omega : m + 1 - (k + 1) = m - k), this,
              (by ring : x * (2 ^ (m - k) * 2 ^ k) + w = 2 ^ (m - k) * (x * 2 ^ k) + w),
              Nat.mul_add_div (Nat.two_pow_pos _)]
          rw [e3] at this
          rw [(by omega : n + 1 + k - 1 = n + (k + 1) - 1)]
          rw [(by rw [Nat.pow_succ]; ring :
            (2 * code + x) * 2 ^ k + w / 2 ^ (m - k) = code * 2 ^ (k + 1) + (x * 2 ^ k + w / 2 ^ (m - k)))]
          exact this

theorem HuffTable.decodeFrom_bounds (t : HuffTable) (rd : Nat → Byte) (lim rem n code : Nat) {b : BitReader}
    (hl : b.bpos ≤ lim) (hc : b.bcnt ≤ 8) :
    (∀ v b', t.decodeFrom rd lim rem n code b = .ok v b' → b.bpos ≤ b'.bpos ∧ b'.bpos ≤ lim ∧ b'.bcnt ≤ 8) ∧
    (∀ b', t.decodeFrom rd lim rem n code b = .fail b' → b.bpos ≤ b'.bpos ∧ b'.bpos ≤ lim ∧ b'.bcnt ≤ 8) := by
  induction rem generalizing n code b with
  | zero => exact ⟨fun v b' h => (by cases h), fun b' h => by cases h; exact ⟨le_refl _, hl, hc⟩⟩
  | succ rem ih =>
    simp only [HuffTable.decodeFrom]
    cases hb : b.readBit rd lim with
    | fail b1 =>
      have := BitReader.readBit_same hb
      subst this
      refine ⟨fun v b' h => (by cases h), fun b' h => by cases h; exact ⟨le_refl _, hl, hc⟩⟩
    | ok x b1 =>
      obtain ⟨p1, p2, p3⟩ := BitReader.readBit_bounds hb hl hc
      dsimp only
      cases t.lookup n (2 * code + x) with
      | some sym =>
        refine ⟨fun v b' h => (by cases h; exact ⟨p1, p2, p3⟩), fun b' h => by cases h⟩
      | none =>
        obtain ⟨i1, i2⟩ := ih (n + 1) (2 * code + x) p2 p3
        exact ⟨fun v b' h => by have := i1 v b' h; omega, fun b' h => by have := i2 b' h; omega⟩

theorem HuffTable.decodeSym_congr (t : HuffTable) {rd rd' : Nat → Byte} {lim : Nat} (h : ∀ i, i < lim → rd' i = rd i)
    (b : BitReader) : t.decodeSym rd' lim b = t.decodeSym rd lim b := by
  have key : ∀ rem n code b, t.decodeFrom rd' lim rem n code b = t.decodeFrom rd lim rem n code b := by
    intro rem
    induction rem with
    | zero => intro n code b; rfl
    | succ rem ih => intro n code b; simp only [HuffTable.decodeFrom, BitReader.readBit_congr h, ih]
  exact key 16 1 0 b

end Sys2Proof.Machine
end

