-- ==== Sys2Proof/Laws/Segment.lean ====
section
/-! SUPPORT. What the shared operations of the segment reader do: the length check (spec 41 R104) decides between
`HasSegment` and `BadSegment`, and `segment` does the one thing each of them allows. -/

namespace Sys2Proof.Machine

theorem State.hasSegment_or_bad (s : State) : (∃ lh, s.HasSegment lh) ∨ s.BadSegment := by
  by_cases h : s.BadSegment
  · exact .inr h
  · refine .inl ⟨be16 (s.inByte (s.cur + 2)) (s.inByte (s.cur + 3)), ?_⟩
    simp only [State.BadSegment, not_or, not_lt] at h
    exact ⟨h.1, rfl, h.2.1, h.2.2⟩

theorem State.not_bad_of_hasSegment {s : State} {lh : Nat} (h : s.HasSegment lh) : ¬ s.BadSegment := by
  obtain ⟨h1, h2, h3, h4⟩ := h
  simp only [State.BadSegment, not_or, not_lt, h2]
  exact ⟨h1, h3, h4⟩

theorem State.segLength_good {s : State} {lh : Nat} (h : s.HasSegment lh) : s.segLength (s.cur + 2) = some lh := by
  obtain ⟨h1, h2, h3, h4⟩ := h
  have h2' : s.be16At (s.cur + 2) = lh := h2
  simp only [State.segLength, h2', if_neg (by omega : ¬ s.csr.inLen < s.cur + 2 + 2), if_neg (Nat.not_lt.2 h3),
    if_neg (Nat.not_lt.2 h4)]

theorem State.segLength_bad {s : State} (h : s.BadSegment) : s.segLength (s.cur + 2) = none := by
  have h2 : s.be16At (s.cur + 2) = be16 (s.inByte (s.cur + 2)) (s.inByte (s.cur + 3)) := rfl
  simp only [State.segLength, h2]
  rcases h with h | h | h
  · rw [if_pos h]
  · rw [if_pos h]; split <;> rfl
  · rw [if_pos h]; split <;> [rfl; (split <;> rfl)]

/-- A length found is that of a segment that lies inside the stream. -/
theorem State.segLength_some {s : State} {start lh : Nat} (h : s.segLength start = some lh) :
    start + 2 ≤ s.csr.inLen ∧ 2 ≤ lh ∧ start + lh ≤ s.csr.inLen ∧ s.be16At start = lh := by
  unfold State.segLength at h
  split at h
  · cases h
  · dsimp only at h
    split at h
    · cases h
    · split at h
      · cases h
      · cases h; omega

theorem State.payload_length (s : State) (start lh : Nat) : (s.payload start lh).length = lh - 2 := by
  simp [State.payload, State.inBytes]

theorem segment_good (code : Byte) (body : Nat → List Byte → Nat → State → State) {s : State} {lh : Nat}
    (h : s.HasSegment lh) :
    segment code body s = body s.cur (s.segPayload lh) (s.cur + 2 + lh) s.pastMarker := by
  simp only [segment, State.segLength_good h]
  rfl

theorem segment_bad (code : Byte) (body : Nat → List Byte → Nat → State → State) {s : State} (h : s.BadSegment) :
    segment code body s = s.failed (s.cur + 2) .malformedContainer s.cur (markerValue code) := by
  simp only [segment, State.segLength_bad h]
  rfl

theorem atMarker_soi (pre post : State → State) {s : State} (h : s.phase = .parse .soi) :
    atMarker pre post s = .next (s.raise .malformedContainer 0 0x0000) := by
  simp only [atMarker, h]

theorem atMarker_marker (pre post : State → State) {s : State} (h : s.phase = .parse .marker) :
    atMarker pre post s = .next (pre s) := by
  simp only [atMarker, h]

theorem atMarker_term (pre post : State → State) {s : State} (h : s.phase = .parse .term) :
    atMarker pre post s = .next (post s) := by
  simp only [atMarker, h]

end Sys2Proof.Machine
end

