-- ==== Sys2Proof/Laws/Headers.lean ====
section
/-! SUPPORT. What the component checks of the frame and scan headers do (spec 41 R116, R121), the end of the scan data
(R125) and the walk for a second SOS (R127). -/

namespace Sys2Proof.Machine

/-! SOF0. -/

theorem SofComp.error_good (seen : List Byte) (c : SofComp) (h : c.Good) (hs : c.id ∉ seen) :
    c.error seen = none := by
  obtain ⟨h1, h2, h3, h4, h5⟩ := h
  simp only [SofComp.error, if_neg hs]
  rw [if_neg (by omega), if_neg (by omega), if_neg (by omega)]

/-- The checks of one component, then those of the components after it. -/
theorem sofComps_cons (n : Nat) (seen : List Byte) (c : SofComp) (tail : List Byte) :
    (∀ kind, c.error seen = some kind →
      sofComps (n + 1) seen (c.id :: c.hv :: c.tq :: tail) = .error kind) ∧
    (c.error seen = none →
      sofComps (n + 1) seen (c.id :: c.hv :: c.tq :: tail) =
        match sofComps n (c.id :: seen) tail with
        | .error kind => .error kind
        | .ok cs => .ok (c.reg :: cs)) := by
  by_cases h1 : c.id ∈ seen
  · simp [SofComp.error, sofComps, h1]
  · by_cases h2 : hiNibble c.hv = 0 ∨ 4 < hiNibble c.hv ∨ loNibble c.hv = 0 ∨ 4 < loNibble c.hv
    · have h2' : hiNibble c.hv < 1 ∨ 4 < hiNibble c.hv ∨ loNibble c.hv < 1 ∨ 4 < loNibble c.hv := by omega
      simp only [SofComp.error, sofComps, if_neg h1, if_pos h2, if_pos h2', Option.some.injEq, reduceCtorEq,
        false_imp_iff, and_true]
      rintro kind rfl; rfl
    · have h2' : ¬ (hiNibble c.hv < 1 ∨ 4 < hiNibble c.hv ∨ loNibble c.hv < 1 ∨ 4 < loNibble c.hv) := by omega
      by_cases h3 : c.tq.toNat < 4
      · by_cases h4 : 2 < hiNibble c.hv ∨ 2 < loNibble c.hv
        · simp only [SofComp.error, sofComps, if_neg h1, if_neg h2, if_neg h2', if_pos h4, h3, dif_pos,
            if_neg (by omega : ¬ 3 < c.tq.toNat), Option.some.injEq, reduceCtorEq, false_imp_iff, and_true]
          rintro kind rfl; rfl
        · simp only [SofComp.error, sofComps, if_neg h1, if_neg h2, if_neg h2', if_neg h4, h3, dif_pos,
            if_neg (by omega : ¬ 3 < c.tq.toNat), reduceCtorEq, false_imp_iff, implies_true, true_and,
            true_imp_iff]
          have : (⟨c.id, hiNibble c.hv, loNibble c.hv, ⟨c.tq.toNat, h3⟩⟩ : FrameComp) = c.reg := by
            simp only [SofComp.reg, Nat.mod_eq_of_lt h3]
          rw [this]
          all_goals (cases sofComps n (c.id :: seen) tail <;> rfl)
      · simp only [SofComp.error, sofComps, if_neg h1, if_neg h2, if_neg h2', h3, dif_neg, not_false_eq_true,
          if_pos (by omega : 3 < c.tq.toNat), Option.some.injEq, reduceCtorEq, false_imp_iff, and_true]
        rintro kind rfl; rfl

theorem sofComps_good (comps : List SofComp) (seen : List Byte) (hg : ∀ c ∈ comps, c.Good)
    (hn : (comps.map SofComp.id).Nodup) (hs : ∀ c ∈ comps, c.id ∉ seen) :
    sofComps comps.length seen (comps.flatMap (fun c => [c.id, c.hv, c.tq])) = .ok (comps.map SofComp.reg) := by
  induction comps generalizing seen with
  | nil => rfl
  | cons c cs ih =>
    simp only [List.map_cons, List.nodup_cons] at hn
    have he := SofComp.error_good seen c (hg c (by simp)) (hs c (by simp))
    have := (sofComps_cons cs.length seen c (cs.flatMap (fun c => [c.id, c.hv, c.tq]))).2 he
    simp only [List.length_cons, List.flatMap_cons, List.cons_append, List.nil_append, this]
    rw [ih (c.id :: seen) (fun d hd => hg d (by simp [hd])) hn.2 ?_]
    · rfl
    · intro d hd
      simp only [List.mem_cons, not_or]
      refine ⟨?_, hs d (by simp [hd])⟩
      intro e
      exact hn.1 (e ▸ List.mem_map_of_mem hd)

theorem sofComps_bad (before after : List SofComp) (c : SofComp) (seen : List Byte) (kind : ErrKind)
    (hg : ∀ b ∈ before, b.Good) (hn : (before.map SofComp.id).Nodup) (hs : ∀ b ∈ before, b.id ∉ seen)
    (he : c.error ((before.map SofComp.id).reverse ++ seen) = some kind) :
    sofComps (before ++ c :: after).length seen ((before ++ c :: after).flatMap (fun c => [c.id, c.hv, c.tq])) =
      .error kind := by
  induction before generalizing seen with
  | nil =>
    exact (sofComps_cons after.length seen c (after.flatMap (fun c => [c.id, c.hv, c.tq]))).1 kind
      (by simpa using he)
  | cons b bs ih =>
    simp only [List.map_cons, List.nodup_cons] at hn
    have hb := SofComp.error_good seen b (hg b (by simp)) (hs b (by simp))
    have := (sofComps_cons (bs ++ c :: after).length seen b
      ((bs ++ c :: after).flatMap (fun c => [c.id, c.hv, c.tq]))).2 hb
    simp only [List.cons_append, List.length_cons, List.flatMap_cons, List.nil_append, this]
    rw [ih (b.id :: seen) (fun d hd => hg d (by simp [hd])) hn.2 ?_ ?_]
    · intro d hd
      simp only [List.mem_cons, not_or]
      refine ⟨?_, hs d (by simp [hd])⟩
      intro e
      exact hn.1 (e ▸ List.mem_map_of_mem hd)
    · simpa [List.append_assoc] using he

/-- Which ids came before decides the check, not their order. -/
theorem SofComp.error_congr (l m : List Byte) (c : SofComp) (h : c.id ∈ l ↔ c.id ∈ m) : c.error l = c.error m := by
  simp only [SofComp.error, h]

theorem sofPayload_length (precision yh yl xh xl nf : Byte) (comps : List SofComp) :
    (sofPayload precision yh yl xh xl nf comps).length = 6 + 3 * comps.length := by
  simp only [sofPayload, List.length_cons, List.length_flatMap, List.length_nil]
  simp [Nat.mul_comm]
  omega

/-! SOS. -/

theorem sosComps_cons (f : FrameRegs) (n j : Nat) (c : SosComp) (tail : List Byte) :
    sosComps f (n + 1) j (c.id :: c.tt :: tail) =
      if j < f.nf ∧ c.id = (f.comp j).id ∧ hiNibble c.tt ≤ 3 ∧ loNibble c.tt ≤ 3 then
        match sosComps f n (j + 1) tail with
        | .error kind => .error kind
        | .ok l => .ok (c.reg :: l)
      else .error .malformedContainer := by
  by_cases h1 : f.nf ≤ j ∨ c.id ≠ (f.comp j).id
  · simp only [sosComps, if_pos h1]
    rw [if_neg]
    rintro ⟨a, b, -⟩
    rcases h1 with h1 | h1
    · omega
    · exact h1 b
  · have h1a : j < f.nf := by by_contra h; exact h1 (.inl (by omega))
    have h1b : c.id = (f.comp j).id := by by_contra h; exact h1 (.inr h)
    by_cases h2 : hiNibble c.tt < 4
    · by_cases h3 : loNibble c.tt < 4
      · simp only [sosComps, if_neg h1, h2, h3, dif_pos]
        rw [if_pos ⟨h1a, h1b, by omega, by omega⟩]
        have : (⟨⟨hiNibble c.tt, h2⟩, ⟨loNibble c.tt, h3⟩⟩ : ScanComp) = c.reg := by
          simp only [SosComp.reg, Nat.mod_eq_of_lt h2, Nat.mod_eq_of_lt h3]
        rw [this]
        all_goals (cases sosComps f n (j + 1) tail <;> rfl)
      · simp only [sosComps, if_neg h1, h2, h3, dif_pos, dif_neg, not_false_eq_true]
        rw [if_neg (by omega)]
    · simp only [sosComps, if_neg h1, h2, dif_neg, not_false_eq_true]
      rw [if_neg (by omega)]

theorem sosComps_spec (s : State) (comps : List SosComp) (j : Nat) (tail : List Byte) :
    ((∀ i, (h : i < comps.length) → s.GoodSosComp (j + i) comps[i]) →
      sosComps s.frame comps.length j (comps.flatMap (fun c => [c.id, c.tt]) ++ tail) =
        .ok (comps.map SosComp.reg)) ∧
    ((∃ i, ∃ h : i < comps.length, ¬ s.GoodSosComp (j + i) comps[i]) →
      sosComps s.frame comps.length j (comps.flatMap (fun c => [c.id, c.tt]) ++ tail) =
        .error .malformedContainer) := by
  induction comps generalizing j with
  | nil => exact ⟨fun _ => rfl, fun ⟨i, h, _⟩ => by simp at h⟩
  | cons c cs ih =>
    obtain ⟨i1, i2⟩ := ih (j + 1)
    simp only [List.length_cons, List.flatMap_cons, List.cons_append, List.nil_append, sosComps_cons]
    refine ⟨?_, ?_⟩
    · intro h
      have h0 := h 0 (by simp)
      simp only [Nat.add_zero, List.getElem_cons_zero] at h0
      rw [if_pos h0, i1]
      · rfl
      · intro i hi
        have := h (i + 1) (by simp; omega)
        simpa [Nat.add_assoc, Nat.add_comm 1 i] using this
    · rintro ⟨i, hi, hb⟩
      split
      · rename_i h0
        cases i with
        | zero => exact absurd h0 (by simpa using hb)
        | succ i =>
          rw [i2 ⟨i, by simpa using hi, by simpa [Nat.add_assoc, Nat.add_comm 1 i] using hb⟩]
      · rfl

/-! The end of the scan data. -/

theorem State.scanEndFrom_spec (s : State) (fuel q : Nat) (hf : s.csr.inLen ≤ q + fuel) :
    s.IsScanEnd q (s.scanEndFrom fuel q) := by
  induction fuel generalizing q with
  | zero =>
    refine ⟨.inr rfl, ?_⟩
    intro r h1 h2 h3
    omega
  | succ fuel ih =>
    simp only [State.scanEndFrom]
    split
    · rename_i h1
      split
      · rename_i h2
        exact ⟨.inl ⟨le_refl _, h1, h2.1, h2.2⟩, fun r a b => by omega⟩
      · rename_i h2
        obtain ⟨i1, i2⟩ := ih (q + 1) (by omega)
        refine ⟨?_, ?_⟩
        · rcases i1 with ⟨a, b⟩ | i1
          · exact .inl ⟨by omega, b⟩
          · exact .inr i1
        · intro r a b c
          rcases Nat.eq_or_lt_of_le a with rfl | a
          · exact h2
          · exact i2 r a b c
    · refine ⟨.inr rfl, ?_⟩
      intro r a b c
      omega

theorem State.scanEnd_spec (s : State) (first : Nat) : s.IsScanEnd first (s.scanEnd first) :=
  s.scanEndFrom_spec _ _ (by omega)

theorem State.scanEnd_bounds (s : State) (first : Nat) (h : first ≤ s.csr.inLen) :
    first ≤ s.scanEnd first ∧ s.scanEnd first ≤ s.csr.inLen := by
  rcases (s.scanEnd_spec first).1 with ⟨a, b, -⟩ | a
  · exact ⟨a, by omega⟩
  · rw [a]; exact ⟨h, le_refl _⟩

/-! The walk for a second SOS. -/

theorem State.walkFrom_sound (s : State) (fuel w r : Nat) (h : s.walkFrom fuel w = some r) : s.SosReached w r := by
  induction fuel generalizing w with
  | zero => simp [State.walkFrom] at h
  | succ fuel ih =>
    simp only [State.walkFrom] at h
    split at h
    · cases h
    · rename_i h1
      simp only [not_or, not_le, not_not] at h1
      obtain ⟨ha, hb⟩ := h1
      have hv : ∀ c : Byte, (s.inByte (w + 1)).toNat = c.toNat → s.inByte (w + 1) = c :=
        fun c hc => BitVec.eq_of_toNat_eq hc
      split at h
      · rename_i h2
        exact .fill w r ha hb (hv 0xFF h2) (ih _ h)
      · split at h
        · cases h
        · split at h
          · rename_i h2 h3 h4
            refine .standAlone w r ha hb ?_ (ih _ h)
            rcases h4 with h4 | h4
            · exact .inr h4
            · exact .inl (hv 0x01 h4)
          · split at h
            · rename_i h2
              cases h
              exact .sos _ ha hb (BitVec.eq_of_toNat_eq h2)
            · rename_i h2 h3 h4 h5
              split at h
              · cases h
              · rename_i l hl
                obtain ⟨c1, c2, c3, c4⟩ := State.segLength_some hl
                refine .segment w r l ha hb ?_ ?_ c1 c4 c2 c3 (ih _ h)
                · simp only [not_or] at h3 h4
                  simp only [List.mem_cons, List.not_mem_nil, or_false, not_or]
                  refine ⟨?_, ?_, ?_, ?_, ?_, ?_⟩ <;> intro e <;> rw [e] at h2 h3 h4 h5
                  · exact h3.1 rfl
                  · exact h4.2 rfl
                  · exact h3.2.1 rfl
                  · exact h3.2.2 rfl
                  · exact h5 rfl
                  · exact h2 rfl
                · exact fun e => h4 (.inl e)

theorem State.walkFrom_complete (s : State) (w r : Nat) (h : s.SosReached w r) (fuel : Nat)
    (hf : s.csr.inLen ≤ w + fuel) : s.walkFrom fuel w = some r := by
  induction h generalizing fuel with
  | sos w h1 h2 h3 =>
    obtain ⟨n, rfl⟩ : ∃ n, fuel = n + 1 := ⟨fuel - 1, by omega⟩
    have h1' : ¬ (s.csr.inLen ≤ w + 1 ∨ s.inByte w ≠ 0xFF) := by
      simp only [not_or, not_le, not_not]; exact ⟨h1, h2⟩
    simp only [State.walkFrom, if_neg h1', h3]
    rfl
  | fill w r h1 h2 h3 hr ih =>
    obtain ⟨n, rfl⟩ : ∃ n, fuel = n + 1 := ⟨fuel - 1, by omega⟩
    have h1' : ¬ (s.csr.inLen ≤ w + 1 ∨ s.inByte w ≠ 0xFF) := by
      simp only [not_or, not_le, not_not]; exact ⟨h1, h2⟩
    simp only [State.walkFrom, if_neg h1', h3]
    exact ih n (by omega)
  | standAlone w r h1 h2 h3 hr ih =>
    obtain ⟨n, rfl⟩ : ∃ n, fuel = n + 1 := ⟨fuel - 1, by omega⟩
    have h1' : ¬ (s.csr.inLen ≤ w + 1 ∨ s.inByte w ≠ 0xFF) := by
      simp only [not_or, not_le, not_not]; exact ⟨h1, h2⟩
    have h3' : (0xD0 ≤ (s.inByte (w + 1)).toNat ∧ (s.inByte (w + 1)).toNat ≤ 0xD7) ∨
        (s.inByte (w + 1)).toNat = 0x01 := by
      rcases h3 with h3 | h3
      · exact .inr (by rw [h3]; rfl)
      · exact .inl h3
    simp only [State.walkFrom, if_neg h1', if_pos h3']
    rw [if_neg (by omega), if_neg (by omega)]
    exact ih n (by omega)
  | segment w r l h1 h2 h3 h4 h5 h6 h7 h8 hr ih =>
    obtain ⟨n, rfl⟩ : ∃ n, fuel = n + 1 := ⟨fuel - 1, by omega⟩
    have h1' : ¬ (s.csr.inLen ≤ w + 1 ∨ s.inByte w ≠ 0xFF) := by
      simp only [not_or, not_le, not_not]; exact ⟨h1, h2⟩
    have hv : ∀ c : Byte, s.inByte (w + 1) ≠ c → (s.inByte (w + 1)).toNat ≠ c.toNat :=
      fun c hc e => hc (BitVec.eq_of_toNat_eq e)
    simp only [List.mem_cons, List.not_mem_nil, or_false, not_or] at h3
    obtain ⟨a0, a1, a2, a3, a4, a5⟩ := h3
    have b0 : (s.inByte (w + 1)).toNat ≠ 0x00 := hv _ a0
    have b1 : (s.inByte (w + 1)).toNat ≠ 0x01 := hv _ a1
    have b2 : (s.inByte (w + 1)).toNat ≠ 0xD8 := hv _ a2
    have b3 : (s.inByte (w + 1)).toNat ≠ 0xD9 := hv _ a3
    have b4 : (s.inByte (w + 1)).toNat ≠ 0xDA := hv _ a4
    have b5 : (s.inByte (w + 1)).toNat ≠ 0xFF := hv _ a5
    have hl : s.segLength (w + 2) = some l :=
      State.segLength_good (s := { s with cur := w }) ⟨h5, h6, h7, h8⟩
    simp only [State.walkFrom, if_neg h1']
    rw [if_neg b5, if_neg (by rintro (e | e | e) <;> contradiction),
      if_neg (by rintro (e | e) <;> contradiction), if_neg b4, hl]
    exact ih n (by omega)

theorem State.walk_iff (s : State) (w r : Nat) : s.walk w = some r ↔ s.SosReached w r :=
  ⟨s.walkFrom_sound _ w r, fun h => s.walkFrom_complete w r h _ (by omega)⟩

end Sys2Proof.Machine
end

