-- ==== Sys2Proof/Laws/State.lean ====
section
/-! SUPPORT. What every update of the state does to every field: one theorem per update, field by field, true by
`rfl` and tagged `simp`, so that no later proof unfolds an update. -/

namespace Sys2Proof.Machine

@[simp] theorem State.raise_fields (s : State) (kind : ErrKind) (off : Nat) (mk : BitVec 16) :
    (s.raise kind off mk).params = s.params ∧
    (s.raise kind off mk).csr = s.csr.recordFailure kind off mk ∧
    (s.raise kind off mk).phase = .idle ∧
    (s.raise kind off mk).cur = s.cur ∧
    (s.raise kind off mk).qt = s.qt ∧
    (s.raise kind off mk).htDc = s.htDc ∧
    (s.raise kind off mk).htAc = s.htAc ∧
    (s.raise kind off mk).frame = s.frame ∧
    (s.raise kind off mk).scan = s.scan ∧
    (s.raise kind off mk).pred = s.pred ∧
    (s.raise kind off mk).br = s.br ∧
    (s.raise kind off mk).mcu = s.mcu ∧
    (s.raise kind off mk).blk = s.blk ∧
    (s.raise kind off mk).zz = s.zz ∧
    (s.raise kind off mk).coef = s.coef ∧
    (s.raise kind off mk).plane = s.plane ∧
    (s.raise kind off mk).inBuf = s.inBuf ∧
    (s.raise kind off mk).outBuf = s.outBuf ∧
    (s.raise kind off mk).outOld = s.outOld ∧
    (s.raise kind off mk).host = s.host ∧
    (s.raise kind off mk).rdata = s.rdata ∧
    (s.raise kind off mk).freeIdx = s.freeIdx ∧
    (s.raise kind off mk).epoch = s.epoch ∧
    (s.raise kind off mk).inByte = s.inByte := by
  refine ⟨?_, ?_, ?_, ?_, ?_, ?_, ?_, ?_, ?_, ?_, ?_, ?_, ?_, ?_, ?_, ?_, ?_, ?_, ?_, ?_, ?_, ?_, ?_, ?_⟩ <;> rfl

@[simp] theorem State.complete_fields (s : State) :
    (s.complete).params = s.params ∧
    (s.complete).csr = { s.csr with done := true } ∧
    (s.complete).phase = .idle ∧
    (s.complete).cur = s.cur ∧
    (s.complete).qt = s.qt ∧
    (s.complete).htDc = s.htDc ∧
    (s.complete).htAc = s.htAc ∧
    (s.complete).frame = s.frame ∧
    (s.complete).scan = s.scan ∧
    (s.complete).pred = s.pred ∧
    (s.complete).br = s.br ∧
    (s.complete).mcu = s.mcu ∧
    (s.complete).blk = s.blk ∧
    (s.complete).zz = s.zz ∧
    (s.complete).coef = s.coef ∧
    (s.complete).plane = s.plane ∧
    (s.complete).inBuf = s.inBuf ∧
    (s.complete).outBuf = s.outBuf ∧
    (s.complete).outOld = s.outOld ∧
    (s.complete).host = s.host ∧
    (s.complete).rdata = s.rdata ∧
    (s.complete).freeIdx = s.freeIdx ∧
    (s.complete).epoch = s.epoch ∧
    (s.complete).inByte = s.inByte := by
  refine ⟨?_, ?_, ?_, ?_, ?_, ?_, ?_, ?_, ?_, ?_, ?_, ?_, ?_, ?_, ?_, ?_, ?_, ?_, ?_, ?_, ?_, ?_, ?_, ?_⟩ <;> rfl

@[simp] theorem State.settleOut_fields (s : State) :
    (s.settleOut).params = s.params ∧
    (s.settleOut).csr = s.csr ∧
    (s.settleOut).phase = s.phase ∧
    (s.settleOut).cur = s.cur ∧
    (s.settleOut).qt = s.qt ∧
    (s.settleOut).htDc = s.htDc ∧
    (s.settleOut).htAc = s.htAc ∧
    (s.settleOut).frame = s.frame ∧
    (s.settleOut).scan = s.scan ∧
    (s.settleOut).pred = s.pred ∧
    (s.settleOut).br = s.br ∧
    (s.settleOut).mcu = s.mcu ∧
    (s.settleOut).blk = s.blk ∧
    (s.settleOut).zz = s.zz ∧
    (s.settleOut).coef = s.coef ∧
    (s.settleOut).plane = s.plane ∧
    (s.settleOut).inBuf = s.inBuf ∧
    (s.settleOut).outBuf = Memory.settle s.csr.outLen (Config.failureKeepsOld s.freeIdx) s.outOld s.outBuf ∧
    (s.settleOut).outOld = s.outOld ∧
    (s.settleOut).host = s.host ∧
    (s.settleOut).rdata = s.rdata ∧
    (s.settleOut).freeIdx = s.freeIdx + 1 ∧
    (s.settleOut).epoch = s.epoch ∧
    (s.settleOut).inByte = s.inByte := by
  refine ⟨?_, ?_, ?_, ?_, ?_, ?_, ?_, ?_, ?_, ?_, ?_, ?_, ?_, ?_, ?_, ?_, ?_, ?_, ?_, ?_, ?_, ?_, ?_, ?_⟩ <;> rfl

@[simp] theorem State.failScan_fields (s : State) (kind : ErrKind) :
    (s.failScan kind).params = s.params ∧
    (s.failScan kind).csr = s.csr.recordFailure kind s.br.bpos 0xFFDA ∧
    (s.failScan kind).phase = .idle ∧
    (s.failScan kind).cur = s.cur ∧
    (s.failScan kind).qt = s.qt ∧
    (s.failScan kind).htDc = s.htDc ∧
    (s.failScan kind).htAc = s.htAc ∧
    (s.failScan kind).frame = s.frame ∧
    (s.failScan kind).scan = s.scan ∧
    (s.failScan kind).pred = s.pred ∧
    (s.failScan kind).br = s.br ∧
    (s.failScan kind).mcu = s.mcu ∧
    (s.failScan kind).blk = s.blk ∧
    (s.failScan kind).zz = s.zz ∧
    (s.failScan kind).coef = s.coef ∧
    (s.failScan kind).plane = s.plane ∧
    (s.failScan kind).inBuf = s.inBuf ∧
    (s.failScan kind).outBuf = Memory.settle s.csr.outLen (Config.failureKeepsOld s.freeIdx) s.outOld s.outBuf ∧
    (s.failScan kind).outOld = s.outOld ∧
    (s.failScan kind).host = s.host ∧
    (s.failScan kind).rdata = s.rdata ∧
    (s.failScan kind).freeIdx = s.freeIdx + 1 ∧
    (s.failScan kind).epoch = s.epoch ∧
    (s.failScan kind).inByte = s.inByte := by
  refine ⟨?_, ?_, ?_, ?_, ?_, ?_, ?_, ?_, ?_, ?_, ?_, ?_, ?_, ?_, ?_, ?_, ?_, ?_, ?_, ?_, ?_, ?_, ?_, ?_⟩ <;> rfl

@[simp] theorem State.startDecode_fields (s : State) :
    (s.startDecode).params = s.params ∧
    (s.startDecode).csr = s.csr.clearForStart ∧
    (s.startDecode).phase = .parse .soi ∧
    (s.startDecode).cur = s.cur ∧
    (s.startDecode).qt = s.qt.map QuantTable.invalidate ∧
    (s.startDecode).htDc = s.htDc.map HuffTable.invalidate ∧
    (s.startDecode).htAc = s.htAc.map HuffTable.invalidate ∧
    (s.startDecode).frame = { s.frame with valid := false } ∧
    (s.startDecode).scan = { s.scan with valid := false } ∧
    (s.startDecode).pred = s.pred ∧
    (s.startDecode).br = s.br ∧
    (s.startDecode).mcu = s.mcu ∧
    (s.startDecode).blk = s.blk ∧
    (s.startDecode).zz = s.zz ∧
    (s.startDecode).coef = s.coef ∧
    (s.startDecode).plane = s.plane ∧
    (s.startDecode).inBuf = s.inBuf ∧
    (s.startDecode).outBuf = s.outBuf ∧
    (s.startDecode).outOld = s.outBuf ∧
    (s.startDecode).host = s.host ∧
    (s.startDecode).rdata = s.rdata ∧
    (s.startDecode).freeIdx = s.freeIdx ∧
    (s.startDecode).epoch = s.epoch ∧
    (s.startDecode).inByte = s.inByte := by
  refine ⟨?_, ?_, ?_, ?_, ?_, ?_, ?_, ?_, ?_, ?_, ?_, ?_, ?_, ?_, ?_, ?_, ?_, ?_, ?_, ?_, ?_, ?_, ?_, ?_⟩ <;> rfl

@[simp] theorem State.pastMarker_fields (s : State) :
    (s.pastMarker).params = s.params ∧
    (s.pastMarker).csr = s.csr ∧
    (s.pastMarker).phase = s.phase ∧
    (s.pastMarker).cur = s.cur + 2 ∧
    (s.pastMarker).qt = s.qt ∧
    (s.pastMarker).htDc = s.htDc ∧
    (s.pastMarker).htAc = s.htAc ∧
    (s.pastMarker).frame = s.frame ∧
    (s.pastMarker).scan = s.scan ∧
    (s.pastMarker).pred = s.pred ∧
    (s.pastMarker).br = s.br ∧
    (s.pastMarker).mcu = s.mcu ∧
    (s.pastMarker).blk = s.blk ∧
    (s.pastMarker).zz = s.zz ∧
    (s.pastMarker).coef = s.coef ∧
    (s.pastMarker).plane = s.plane ∧
    (s.pastMarker).inBuf = s.inBuf ∧
    (s.pastMarker).outBuf = s.outBuf ∧
    (s.pastMarker).outOld = s.outOld ∧
    (s.pastMarker).host = s.host ∧
    (s.pastMarker).rdata = s.rdata ∧
    (s.pastMarker).freeIdx = s.freeIdx ∧
    (s.pastMarker).epoch = s.epoch ∧
    (s.pastMarker).inByte = s.inByte := by
  refine ⟨?_, ?_, ?_, ?_, ?_, ?_, ?_, ?_, ?_, ?_, ?_, ?_, ?_, ?_, ?_, ?_, ?_, ?_, ?_, ?_, ?_, ?_, ?_, ?_⟩ <;> rfl

@[simp] theorem State.skipTo_fields (s : State) (e : Nat) :
    (s.skipTo e).params = s.params ∧
    (s.skipTo e).csr = s.csr ∧
    (s.skipTo e).phase = s.phase ∧
    (s.skipTo e).cur = e ∧
    (s.skipTo e).qt = s.qt ∧
    (s.skipTo e).htDc = s.htDc ∧
    (s.skipTo e).htAc = s.htAc ∧
    (s.skipTo e).frame = s.frame ∧
    (s.skipTo e).scan = s.scan ∧
    (s.skipTo e).pred = s.pred ∧
    (s.skipTo e).br = s.br ∧
    (s.skipTo e).mcu = s.mcu ∧
    (s.skipTo e).blk = s.blk ∧
    (s.skipTo e).zz = s.zz ∧
    (s.skipTo e).coef = s.coef ∧
    (s.skipTo e).plane = s.plane ∧
    (s.skipTo e).inBuf = s.inBuf ∧
    (s.skipTo e).outBuf = s.outBuf ∧
    (s.skipTo e).outOld = s.outOld ∧
    (s.skipTo e).host = s.host ∧
    (s.skipTo e).rdata = s.rdata ∧
    (s.skipTo e).freeIdx = s.freeIdx ∧
    (s.skipTo e).epoch = s.epoch ∧
    (s.skipTo e).inByte = s.inByte := by
  refine ⟨?_, ?_, ?_, ?_, ?_, ?_, ?_, ?_, ?_, ?_, ?_, ?_, ?_, ?_, ?_, ?_, ?_, ?_, ?_, ?_, ?_, ?_, ?_, ?_⟩ <;> rfl

@[simp] theorem State.skipFill_fields (s : State) :
    (s.skipFill).params = s.params ∧
    (s.skipFill).csr = s.csr ∧
    (s.skipFill).phase = s.phase ∧
    (s.skipFill).cur = s.cur + 1 ∧
    (s.skipFill).qt = s.qt ∧
    (s.skipFill).htDc = s.htDc ∧
    (s.skipFill).htAc = s.htAc ∧
    (s.skipFill).frame = s.frame ∧
    (s.skipFill).scan = s.scan ∧
    (s.skipFill).pred = s.pred ∧
    (s.skipFill).br = s.br ∧
    (s.skipFill).mcu = s.mcu ∧
    (s.skipFill).blk = s.blk ∧
    (s.skipFill).zz = s.zz ∧
    (s.skipFill).coef = s.coef ∧
    (s.skipFill).plane = s.plane ∧
    (s.skipFill).inBuf = s.inBuf ∧
    (s.skipFill).outBuf = s.outBuf ∧
    (s.skipFill).outOld = s.outOld ∧
    (s.skipFill).host = s.host ∧
    (s.skipFill).rdata = s.rdata ∧
    (s.skipFill).freeIdx = s.freeIdx ∧
    (s.skipFill).epoch = s.epoch ∧
    (s.skipFill).inByte = s.inByte := by
  refine ⟨?_, ?_, ?_, ?_, ?_, ?_, ?_, ?_, ?_, ?_, ?_, ?_, ?_, ?_, ?_, ?_, ?_, ?_, ?_, ?_, ?_, ?_, ?_, ?_⟩ <;> rfl

@[simp] theorem State.endPhase1_fields (s : State) :
    (s.endPhase1).params = s.params ∧
    (s.endPhase1).csr = s.csr ∧
    (s.endPhase1).phase = .decode .start ∧
    (s.endPhase1).cur = s.cur ∧
    (s.endPhase1).qt = s.qt ∧
    (s.endPhase1).htDc = s.htDc ∧
    (s.endPhase1).htAc = s.htAc ∧
    (s.endPhase1).frame = s.frame ∧
    (s.endPhase1).scan = s.scan ∧
    (s.endPhase1).pred = s.pred ∧
    (s.endPhase1).br = s.br ∧
    (s.endPhase1).mcu = s.mcu ∧
    (s.endPhase1).blk = s.blk ∧
    (s.endPhase1).zz = s.zz ∧
    (s.endPhase1).coef = s.coef ∧
    (s.endPhase1).plane = s.plane ∧
    (s.endPhase1).inBuf = s.inBuf ∧
    (s.endPhase1).outBuf = s.outBuf ∧
    (s.endPhase1).outOld = s.outOld ∧
    (s.endPhase1).host = s.host ∧
    (s.endPhase1).rdata = s.rdata ∧
    (s.endPhase1).freeIdx = s.freeIdx ∧
    (s.endPhase1).epoch = s.epoch ∧
    (s.endPhase1).inByte = s.inByte := by
  refine ⟨?_, ?_, ?_, ?_, ?_, ?_, ?_, ?_, ?_, ?_, ?_, ?_, ?_, ?_, ?_, ?_, ?_, ?_, ?_, ?_, ?_, ?_, ?_, ?_⟩ <;> rfl

@[simp] theorem State.setQuant_fields (s : State) (t : Fin 4) (v : Vector (BitVec 16) 64) :
    (s.setQuant t v).params = s.params ∧
    (s.setQuant t v).csr = s.csr ∧
    (s.setQuant t v).phase = s.phase ∧
    (s.setQuant t v).cur = s.cur ∧
    (s.setQuant t v).qt = s.qt.set t.val ⟨true, v⟩ ∧
    (s.setQuant t v).htDc = s.htDc ∧
    (s.setQuant t v).htAc = s.htAc ∧
    (s.setQuant t v).frame = s.frame ∧
    (s.setQuant t v).scan = s.scan ∧
    (s.setQuant t v).pred = s.pred ∧
    (s.setQuant t v).br = s.br ∧
    (s.setQuant t v).mcu = s.mcu ∧
    (s.setQuant t v).blk = s.blk ∧
    (s.setQuant t v).zz = s.zz ∧
    (s.setQuant t v).coef = s.coef ∧
    (s.setQuant t v).plane = s.plane ∧
    (s.setQuant t v).inBuf = s.inBuf ∧
    (s.setQuant t v).outBuf = s.outBuf ∧
    (s.setQuant t v).outOld = s.outOld ∧
    (s.setQuant t v).host = s.host ∧
    (s.setQuant t v).rdata = s.rdata ∧
    (s.setQuant t v).freeIdx = s.freeIdx ∧
    (s.setQuant t v).epoch = s.epoch ∧
    (s.setQuant t v).inByte = s.inByte := by
  refine ⟨?_, ?_, ?_, ?_, ?_, ?_, ?_, ?_, ?_, ?_, ?_, ?_, ?_, ?_, ?_, ?_, ?_, ?_, ?_, ?_, ?_, ?_, ?_, ?_⟩ <;> rfl

@[simp] theorem State.setHuff_fields (s : State) (d : DhtDef) :
    (s.setHuff d).params = s.params ∧
    (s.setHuff d).csr = s.csr ∧
    (s.setHuff d).phase = s.phase ∧
    (s.setHuff d).cur = s.cur ∧
    (s.setHuff d).qt = s.qt ∧
    (s.setHuff d).frame = s.frame ∧
    (s.setHuff d).scan = s.scan ∧
    (s.setHuff d).pred = s.pred ∧
    (s.setHuff d).br = s.br ∧
    (s.setHuff d).mcu = s.mcu ∧
    (s.setHuff d).blk = s.blk ∧
    (s.setHuff d).zz = s.zz ∧
    (s.setHuff d).coef = s.coef ∧
    (s.setHuff d).plane = s.plane ∧
    (s.setHuff d).inBuf = s.inBuf ∧
    (s.setHuff d).outBuf = s.outBuf ∧
    (s.setHuff d).outOld = s.outOld ∧
    (s.setHuff d).host = s.host ∧
    (s.setHuff d).rdata = s.rdata ∧
    (s.setHuff d).freeIdx = s.freeIdx ∧
    (s.setHuff d).epoch = s.epoch ∧
    (s.setHuff d).inByte = s.inByte := by
  unfold State.setHuff State.setHt
  cases d.cls <;> refine ⟨?_, ?_, ?_, ?_, ?_, ?_, ?_, ?_, ?_, ?_, ?_, ?_, ?_, ?_, ?_, ?_, ?_, ?_, ?_, ?_, ?_, ?_⟩ <;> rfl

@[simp] theorem State.acceptFrame_fields (s : State) (f : SofFields) :
    (s.acceptFrame f).params = s.params ∧
    (s.acceptFrame f).csr = { s.csr with imgWidth := f.x, imgHeight := f.y, imgChannels := BitVec.ofNat 2 f.nf, outLen := f.x.toNat * f.y.toNat * f.nf } ∧
    (s.acceptFrame f).phase = s.phase ∧
    (s.acceptFrame f).cur = s.cur ∧
    (s.acceptFrame f).qt = s.qt ∧
    (s.acceptFrame f).htDc = s.htDc ∧
    (s.acceptFrame f).htAc = s.htAc ∧
    (s.acceptFrame f).scan = s.scan ∧
    (s.acceptFrame f).pred = s.pred ∧
    (s.acceptFrame f).br = s.br ∧
    (s.acceptFrame f).mcu = s.mcu ∧
    (s.acceptFrame f).blk = s.blk ∧
    (s.acceptFrame f).zz = s.zz ∧
    (s.acceptFrame f).coef = s.coef ∧
    (s.acceptFrame f).plane = s.plane ∧
    (s.acceptFrame f).inBuf = s.inBuf ∧
    (s.acceptFrame f).outBuf = s.outBuf ∧
    (s.acceptFrame f).outOld = s.outOld ∧
    (s.acceptFrame f).host = s.host ∧
    (s.acceptFrame f).rdata = s.rdata ∧
    (s.acceptFrame f).freeIdx = s.freeIdx ∧
    (s.acceptFrame f).epoch = s.epoch ∧
    (s.acceptFrame f).inByte = s.inByte := by
  refine ⟨?_, ?_, ?_, ?_, ?_, ?_, ?_, ?_, ?_, ?_, ?_, ?_, ?_, ?_, ?_, ?_, ?_, ?_, ?_, ?_, ?_, ?_, ?_⟩ <;> rfl

@[simp] theorem State.acceptScan_fields (s : State) (comps : List ScanComp) (e : Nat) :
    (s.acceptScan comps e).params = s.params ∧
    (s.acceptScan comps e).csr = s.csr ∧
    (s.acceptScan comps e).phase = .parse .term ∧
    (s.acceptScan comps e).cur = s.scanEnd e ∧
    (s.acceptScan comps e).qt = s.qt ∧
    (s.acceptScan comps e).htDc = s.htDc ∧
    (s.acceptScan comps e).htAc = s.htAc ∧
    (s.acceptScan comps e).frame = s.frame ∧
    (s.acceptScan comps e).pred = s.pred ∧
    (s.acceptScan comps e).br = s.br ∧
    (s.acceptScan comps e).mcu = s.mcu ∧
    (s.acceptScan comps e).blk = s.blk ∧
    (s.acceptScan comps e).zz = s.zz ∧
    (s.acceptScan comps e).coef = s.coef ∧
    (s.acceptScan comps e).plane = s.plane ∧
    (s.acceptScan comps e).inBuf = s.inBuf ∧
    (s.acceptScan comps e).outBuf = s.outBuf ∧
    (s.acceptScan comps e).outOld = s.outOld ∧
    (s.acceptScan comps e).host = s.host ∧
    (s.acceptScan comps e).rdata = s.rdata ∧
    (s.acceptScan comps e).freeIdx = s.freeIdx ∧
    (s.acceptScan comps e).epoch = s.epoch ∧
    (s.acceptScan comps e).inByte = s.inByte := by
  refine ⟨?_, ?_, ?_, ?_, ?_, ?_, ?_, ?_, ?_, ?_, ?_, ?_, ?_, ?_, ?_, ?_, ?_, ?_, ?_, ?_, ?_, ?_, ?_⟩ <;> rfl

@[simp] theorem State.clearZz_fields (s : State) :
    (s.clearZz).params = s.params ∧
    (s.clearZz).csr = s.csr ∧
    (s.clearZz).phase = s.phase ∧
    (s.clearZz).cur = s.cur ∧
    (s.clearZz).qt = s.qt ∧
    (s.clearZz).htDc = s.htDc ∧
    (s.clearZz).htAc = s.htAc ∧
    (s.clearZz).frame = s.frame ∧
    (s.clearZz).scan = s.scan ∧
    (s.clearZz).pred = s.pred ∧
    (s.clearZz).br = s.br ∧
    (s.clearZz).mcu = s.mcu ∧
    (s.clearZz).blk = s.blk ∧
    (s.clearZz).zz = Vector.replicate 64 0 ∧
    (s.clearZz).coef = s.coef ∧
    (s.clearZz).plane = s.plane ∧
    (s.clearZz).inBuf = s.inBuf ∧
    (s.clearZz).outBuf = s.outBuf ∧
    (s.clearZz).outOld = s.outOld ∧
    (s.clearZz).host = s.host ∧
    (s.clearZz).rdata = s.rdata ∧
    (s.clearZz).freeIdx = s.freeIdx ∧
    (s.clearZz).epoch = s.epoch ∧
    (s.clearZz).inByte = s.inByte := by
  refine ⟨?_, ?_, ?_, ?_, ?_, ?_, ?_, ?_, ?_, ?_, ?_, ?_, ?_, ?_, ?_, ?_, ?_, ?_, ?_, ?_, ?_, ?_, ?_, ?_⟩ <;> rfl

@[simp] theorem State.setDc_fields (s : State) (diff : Int) :
    (State.setDc diff s).params = s.params ∧
    (State.setDc diff s).csr = s.csr ∧
    (State.setDc diff s).phase = .decode .ac ∧
    (State.setDc diff s).cur = s.cur ∧
    (State.setDc diff s).qt = s.qt ∧
    (State.setDc diff s).htDc = s.htDc ∧
    (State.setDc diff s).htAc = s.htAc ∧
    (State.setDc diff s).frame = s.frame ∧
    (State.setDc diff s).scan = s.scan ∧
    (State.setDc diff s).pred = s.pred.set s.blk.comp.val (s.pred[s.blk.comp.val] + diff) ∧
    (State.setDc diff s).br = s.br ∧
    (State.setDc diff s).mcu = s.mcu ∧
    (State.setDc diff s).blk = { s.blk with k := 1 } ∧
    (State.setDc diff s).zz = (Vector.replicate 64 0).set 0 (s.pred[s.blk.comp.val] + diff) ∧
    (State.setDc diff s).coef = s.coef ∧
    (State.setDc diff s).plane = s.plane ∧
    (State.setDc diff s).inBuf = s.inBuf ∧
    (State.setDc diff s).outBuf = s.outBuf ∧
    (State.setDc diff s).outOld = s.outOld ∧
    (State.setDc diff s).host = s.host ∧
    (State.setDc diff s).rdata = s.rdata ∧
    (State.setDc diff s).freeIdx = s.freeIdx ∧
    (State.setDc diff s).epoch = s.epoch ∧
    (State.setDc diff s).inByte = s.inByte := by
  refine ⟨?_, ?_, ?_, ?_, ?_, ?_, ?_, ?_, ?_, ?_, ?_, ?_, ?_, ?_, ?_, ?_, ?_, ?_, ?_, ?_, ?_, ?_, ?_, ?_⟩ <;> rfl

@[simp] theorem State.acAt_fields (s : State) (k : Nat) :
    (s.acAt k).params = s.params ∧
    (s.acAt k).csr = s.csr ∧
    (s.acAt k).phase = (if k < 64 then .decode .ac else .decode .blockDone) ∧
    (s.acAt k).cur = s.cur ∧
    (s.acAt k).qt = s.qt ∧
    (s.acAt k).htDc = s.htDc ∧
    (s.acAt k).htAc = s.htAc ∧
    (s.acAt k).frame = s.frame ∧
    (s.acAt k).scan = s.scan ∧
    (s.acAt k).pred = s.pred ∧
    (s.acAt k).br = s.br ∧
    (s.acAt k).mcu = s.mcu ∧
    (s.acAt k).blk = { s.blk with k := k } ∧
    (s.acAt k).zz = s.zz ∧
    (s.acAt k).coef = s.coef ∧
    (s.acAt k).plane = s.plane ∧
    (s.acAt k).inBuf = s.inBuf ∧
    (s.acAt k).outBuf = s.outBuf ∧
    (s.acAt k).outOld = s.outOld ∧
    (s.acAt k).host = s.host ∧
    (s.acAt k).rdata = s.rdata ∧
    (s.acAt k).freeIdx = s.freeIdx ∧
    (s.acAt k).epoch = s.epoch ∧
    (s.acAt k).inByte = s.inByte := by
  refine ⟨?_, ?_, ?_, ?_, ?_, ?_, ?_, ?_, ?_, ?_, ?_, ?_, ?_, ?_, ?_, ?_, ?_, ?_, ?_, ?_, ?_, ?_, ?_, ?_⟩ <;> rfl

@[simp] theorem State.setZz_fields (s : State) (k : Nat) (v : Int) :
    (s.setZz k v).params = s.params ∧
    (s.setZz k v).csr = s.csr ∧
    (s.setZz k v).phase = s.phase ∧
    (s.setZz k v).cur = s.cur ∧
    (s.setZz k v).qt = s.qt ∧
    (s.setZz k v).htDc = s.htDc ∧
    (s.setZz k v).htAc = s.htAc ∧
    (s.setZz k v).frame = s.frame ∧
    (s.setZz k v).scan = s.scan ∧
    (s.setZz k v).pred = s.pred ∧
    (s.setZz k v).br = s.br ∧
    (s.setZz k v).mcu = s.mcu ∧
    (s.setZz k v).blk = s.blk ∧
    (s.setZz k v).zz = s.zz.setIfInBounds k v ∧
    (s.setZz k v).coef = s.coef ∧
    (s.setZz k v).plane = s.plane ∧
    (s.setZz k v).inBuf = s.inBuf ∧
    (s.setZz k v).outBuf = s.outBuf ∧
    (s.setZz k v).outOld = s.outOld ∧
    (s.setZz k v).host = s.host ∧
    (s.setZz k v).rdata = s.rdata ∧
    (s.setZz k v).freeIdx = s.freeIdx ∧
    (s.setZz k v).epoch = s.epoch ∧
    (s.setZz k v).inByte = s.inByte := by
  refine ⟨?_, ?_, ?_, ?_, ?_, ?_, ?_, ?_, ?_, ?_, ?_, ?_, ?_, ?_, ?_, ?_, ?_, ?_, ?_, ?_, ?_, ?_, ?_, ?_⟩ <;> rfl

@[simp] theorem State.nextMcu_fields (s : State) :
    (s.nextMcu).params = s.params ∧
    (s.nextMcu).csr = s.csr ∧
    (s.nextMcu).phase = (if s.mcu.idx < s.mcu.mcux * s.mcu.mcuy then .decode .dc else .decode .finish) ∧
    (s.nextMcu).cur = s.cur ∧
    (s.nextMcu).qt = s.qt ∧
    (s.nextMcu).htDc = s.htDc ∧
    (s.nextMcu).htAc = s.htAc ∧
    (s.nextMcu).frame = s.frame ∧
    (s.nextMcu).scan = s.scan ∧
    (s.nextMcu).pred = s.pred ∧
    (s.nextMcu).br = s.br ∧
    (s.nextMcu).mcu = s.mcu ∧
    (s.nextMcu).blk = ⟨0, 0, 0, s.blk.k⟩ ∧
    (s.nextMcu).zz = s.zz ∧
    (s.nextMcu).coef = s.coef ∧
    (s.nextMcu).plane = s.plane ∧
    (s.nextMcu).inBuf = s.inBuf ∧
    (s.nextMcu).outBuf = s.outBuf ∧
    (s.nextMcu).outOld = s.outOld ∧
    (s.nextMcu).host = s.host ∧
    (s.nextMcu).rdata = s.rdata ∧
    (s.nextMcu).freeIdx = s.freeIdx ∧
    (s.nextMcu).epoch = s.epoch ∧
    (s.nextMcu).inByte = s.inByte := by
  refine ⟨?_, ?_, ?_, ?_, ?_, ?_, ?_, ?_, ?_, ?_, ?_, ?_, ?_, ?_, ?_, ?_, ?_, ?_, ?_, ?_, ?_, ?_, ?_, ?_⟩ <;> rfl

@[simp] theorem State.phase2Start_fields (s : State) :
    (s.phase2Start).params = s.params ∧
    (s.phase2Start).csr = s.csr ∧
    (s.phase2Start).phase = (if s.frame.mcuRegs.idx < s.frame.mcuRegs.mcux * s.frame.mcuRegs.mcuy then .decode .dc else .decode .finish) ∧
    (s.phase2Start).cur = s.cur ∧
    (s.phase2Start).qt = s.qt ∧
    (s.phase2Start).htDc = s.htDc ∧
    (s.phase2Start).htAc = s.htAc ∧
    (s.phase2Start).frame = s.frame ∧
    (s.phase2Start).scan = s.scan ∧
    (s.phase2Start).pred = tabulate 3 (fun j => if j < s.frame.nf then 0 else getAt s.pred j 0) ∧
    (s.phase2Start).br = { s.br with bpos := s.scan.first, bcnt := 0 } ∧
    (s.phase2Start).mcu = s.frame.mcuRegs ∧
    (s.phase2Start).blk = ⟨0, 0, 0, s.blk.k⟩ ∧
    (s.phase2Start).zz = s.zz ∧
    (s.phase2Start).coef = s.coef ∧
    (s.phase2Start).plane = s.plane ∧
    (s.phase2Start).inBuf = s.inBuf ∧
    (s.phase2Start).outBuf = s.outBuf ∧
    (s.phase2Start).outOld = s.outOld ∧
    (s.phase2Start).host = s.host ∧
    (s.phase2Start).rdata = s.rdata ∧
    (s.phase2Start).freeIdx = s.freeIdx ∧
    (s.phase2Start).epoch = s.epoch ∧
    (s.phase2Start).inByte = s.inByte := by
  refine ⟨?_, ?_, ?_, ?_, ?_, ?_, ?_, ?_, ?_, ?_, ?_, ?_, ?_, ?_, ?_, ?_, ?_, ?_, ?_, ?_, ?_, ?_, ?_, ?_⟩ <;> rfl

@[simp] theorem State.emitMcu_fields (s : State) :
    (s.emitMcu).params = s.params ∧
    (s.emitMcu).csr = s.csr ∧
    (s.emitMcu).phase = (if s.mcu.idx + 1 < s.mcu.mcux * s.mcu.mcuy then .decode .dc else .decode .finish) ∧
    (s.emitMcu).cur = s.cur ∧
    (s.emitMcu).qt = s.qt ∧
    (s.emitMcu).htDc = s.htDc ∧
    (s.emitMcu).htAc = s.htAc ∧
    (s.emitMcu).frame = s.frame ∧
    (s.emitMcu).scan = s.scan ∧
    (s.emitMcu).pred = s.pred ∧
    (s.emitMcu).br = s.br ∧
    (s.emitMcu).mcu = { s.mcu with idx := s.mcu.idx + 1 } ∧
    (s.emitMcu).blk = ⟨0, 0, 0, s.blk.k⟩ ∧
    (s.emitMcu).zz = s.zz ∧
    (s.emitMcu).coef = s.coef ∧
    (s.emitMcu).plane = s.plane ∧
    (s.emitMcu).inBuf = s.inBuf ∧
    (s.emitMcu).outBuf = s.outBuf.writes s.mcuCells ∧
    (s.emitMcu).outOld = s.outOld ∧
    (s.emitMcu).host = s.host ∧
    (s.emitMcu).rdata = s.rdata ∧
    (s.emitMcu).freeIdx = s.freeIdx ∧
    (s.emitMcu).epoch = s.epoch ∧
    (s.emitMcu).inByte = s.inByte := by
  refine ⟨?_, ?_, ?_, ?_, ?_, ?_, ?_, ?_, ?_, ?_, ?_, ?_, ?_, ?_, ?_, ?_, ?_, ?_, ?_, ?_, ?_, ?_, ?_, ?_⟩ <;> rfl

@[simp] theorem State.answer_fields (s : State) (v : Word) :
    (s.answer v).params = s.params ∧
    (s.answer v).csr = s.csr ∧
    (s.answer v).phase = s.phase ∧
    (s.answer v).cur = s.cur ∧
    (s.answer v).qt = s.qt ∧
    (s.answer v).htDc = s.htDc ∧
    (s.answer v).htAc = s.htAc ∧
    (s.answer v).frame = s.frame ∧
    (s.answer v).scan = s.scan ∧
    (s.answer v).pred = s.pred ∧
    (s.answer v).br = s.br ∧
    (s.answer v).mcu = s.mcu ∧
    (s.answer v).blk = s.blk ∧
    (s.answer v).zz = s.zz ∧
    (s.answer v).coef = s.coef ∧
    (s.answer v).plane = s.plane ∧
    (s.answer v).inBuf = s.inBuf ∧
    (s.answer v).outBuf = s.outBuf ∧
    (s.answer v).outOld = s.outOld ∧
    (s.answer v).host = s.host ∧
    (s.answer v).rdata = v ∧
    (s.answer v).freeIdx = s.freeIdx ∧
    (s.answer v).epoch = s.epoch ∧
    (s.answer v).inByte = s.inByte := by
  refine ⟨?_, ?_, ?_, ?_, ?_, ?_, ?_, ?_, ?_, ?_, ?_, ?_, ?_, ?_, ?_, ?_, ?_, ?_, ?_, ?_, ?_, ?_, ?_, ?_⟩ <;> rfl

@[simp] theorem State.writeStatus_fields (s : State) (v : Word) :
    (s.writeStatus v).params = s.params ∧
    (s.writeStatus v).csr = s.csr.ackStatus v ∧
    (s.writeStatus v).phase = s.phase ∧
    (s.writeStatus v).cur = s.cur ∧
    (s.writeStatus v).qt = s.qt ∧
    (s.writeStatus v).htDc = s.htDc ∧
    (s.writeStatus v).htAc = s.htAc ∧
    (s.writeStatus v).frame = s.frame ∧
    (s.writeStatus v).scan = s.scan ∧
    (s.writeStatus v).pred = s.pred ∧
    (s.writeStatus v).br = s.br ∧
    (s.writeStatus v).mcu = s.mcu ∧
    (s.writeStatus v).blk = s.blk ∧
    (s.writeStatus v).zz = s.zz ∧
    (s.writeStatus v).coef = s.coef ∧
    (s.writeStatus v).plane = s.plane ∧
    (s.writeStatus v).inBuf = s.inBuf ∧
    (s.writeStatus v).outBuf = s.outBuf ∧
    (s.writeStatus v).outOld = s.outOld ∧
    (s.writeStatus v).host = s.host ∧
    (s.writeStatus v).rdata = s.rdata ∧
    (s.writeStatus v).freeIdx = s.freeIdx ∧
    (s.writeStatus v).epoch = s.epoch ∧
    (s.writeStatus v).inByte = s.inByte := by
  refine ⟨?_, ?_, ?_, ?_, ?_, ?_, ?_, ?_, ?_, ?_, ?_, ?_, ?_, ?_, ?_, ?_, ?_, ?_, ?_, ?_, ?_, ?_, ?_, ?_⟩ <;> rfl

@[simp] theorem State.hardReset_fields (s : State) :
    (s.hardReset).params = s.params ∧
    (s.hardReset).csr = State.reset.csr ∧
    (s.hardReset).phase = State.reset.phase ∧
    (s.hardReset).cur = State.reset.cur ∧
    (s.hardReset).qt = State.reset.qt ∧
    (s.hardReset).htDc = State.reset.htDc ∧
    (s.hardReset).htAc = State.reset.htAc ∧
    (s.hardReset).frame = State.reset.frame ∧
    (s.hardReset).scan = State.reset.scan ∧
    (s.hardReset).pred = State.reset.pred ∧
    (s.hardReset).br = State.reset.br ∧
    (s.hardReset).mcu = State.reset.mcu ∧
    (s.hardReset).blk = State.reset.blk ∧
    (s.hardReset).zz = State.reset.zz ∧
    (s.hardReset).coef = State.reset.coef ∧
    (s.hardReset).plane = State.reset.plane ∧
    (s.hardReset).inBuf = State.reset.inBuf ∧
    (s.hardReset).outBuf = State.reset.outBuf ∧
    (s.hardReset).outOld = State.reset.outOld ∧
    (s.hardReset).host = s.host ∧
    (s.hardReset).rdata = State.reset.rdata ∧
    (s.hardReset).freeIdx = s.freeIdx ∧
    (s.hardReset).epoch = s.epoch + 1 := by
  refine ⟨?_, ?_, ?_, ?_, ?_, ?_, ?_, ?_, ?_, ?_, ?_, ?_, ?_, ?_, ?_, ?_, ?_, ?_, ?_, ?_, ?_, ?_, ?_⟩ <;> rfl

@[simp] theorem Csr.recordFailure_fields (c : Csr) (kind : ErrKind) (off : Nat) (mk : BitVec 16) :
    (c.recordFailure kind off mk).irqEn = c.irqEn ∧ (c.recordFailure kind off mk).done = c.done ∧
    (c.recordFailure kind off mk).err = true ∧ (c.recordFailure kind off mk).errKind = kind ∧
    (c.recordFailure kind off mk).errOffset = off ∧ (c.recordFailure kind off mk).errMarker = mk ∧
    (c.recordFailure kind off mk).inLen = c.inLen ∧ (c.recordFailure kind off mk).imgWidth = c.imgWidth ∧
    (c.recordFailure kind off mk).imgHeight = c.imgHeight ∧
    (c.recordFailure kind off mk).imgChannels = c.imgChannels ∧
    (c.recordFailure kind off mk).outLen = c.outLen := by
  refine ⟨?_, ?_, ?_, ?_, ?_, ?_, ?_, ?_, ?_, ?_, ?_⟩ <;> rfl

@[simp] theorem Csr.clearForStart_fields (c : Csr) :
    c.clearForStart.irqEn = c.irqEn ∧ c.clearForStart.inLen = c.inLen ∧
    c.clearForStart.done = false ∧ c.clearForStart.err = false ∧ c.clearForStart.errKind = .none ∧
    c.clearForStart.errOffset = 0 ∧ c.clearForStart.errMarker = 0 ∧ c.clearForStart.imgWidth = 0 ∧
    c.clearForStart.imgHeight = 0 ∧ c.clearForStart.imgChannels = 0 ∧ c.clearForStart.outLen = 0 := by
  refine ⟨?_, ?_, ?_, ?_, ?_, ?_, ?_, ?_, ?_, ?_, ?_⟩ <;> rfl

@[simp] theorem Csr.ackStatus_fields (c : Csr) (v : Word) :
    (c.ackStatus v).irqEn = c.irqEn ∧ (c.ackStatus v).inLen = c.inLen ∧
    (c.ackStatus v).done = (c.done && !v.getLsbD 1) ∧ (c.ackStatus v).err = (c.err && !v.getLsbD 2) ∧
    (c.ackStatus v).errKind = c.errKind ∧ (c.ackStatus v).errOffset = c.errOffset ∧
    (c.ackStatus v).errMarker = c.errMarker ∧ (c.ackStatus v).imgWidth = c.imgWidth ∧
    (c.ackStatus v).imgHeight = c.imgHeight ∧ (c.ackStatus v).imgChannels = c.imgChannels ∧
    (c.ackStatus v).outLen = c.outLen := by
  refine ⟨?_, ?_, ?_, ?_, ?_, ?_, ?_, ?_, ?_, ?_, ?_⟩ <;> rfl

end Sys2Proof.Machine
end

