-- ==== Sys2Proof/Laws/Memory.lean ====
section
/-! SUPPORT. The laws of the buffers: read after write, and that every buffer operation keeps the canonical form. -/

namespace Sys2Proof.Machine

@[simp] theorem Memory.read_nil (i : Nat) : Memory.read [] i = none := rfl

theorem Memory.read_write (m : Memory) (i : Nat) (b : Byte) (j : Nat) :
    (m.write i b).read j = if j = i then some b else m.read j := by
  induction m with
  | nil =>
    by_cases e : j = i
    · simp [Memory.write, Memory.read, e]
    · simp [Memory.write, Memory.read, e, Ne.symm e]
  | cons c t ih =>
    simp only [Memory.write]
    split
    · by_cases e : j = i
      · simp [Memory.read, e]
      · simp [Memory.read, e, Ne.symm e]
    · split
      · rename_i h
        by_cases e : j = i
        · simp [Memory.read, e]
        · have h1 : ¬ i = j := Ne.symm e
          have h2 : ¬ c.1 = j := h ▸ h1
          simp only [Memory.read, if_neg h1, if_neg h2, if_neg e]
      · rename_i h1 h2
        by_cases e : c.1 = j
        · have : j ≠ i := by omega
          simp [Memory.read, e, this]
        · simp only [Memory.read, e, if_false, ih]

theorem Memory.read_writes (m : Memory) (l : List Host.Cell) (j : Nat) (h : ∀ c ∈ l, c.1 ≠ j) :
    (m.writes l).read j = m.read j := by
  induction l generalizing m with
  | nil => rfl
  | cons c t ih =>
    have h1 : j ≠ c.1 := Ne.symm (h c (by simp))
    have : (m.writes (c :: t)).read j = ((m.write c.1 c.2).writes t).read j := rfl
    rw [this, ih _ (fun d hd => h d (by simp [hd])), Memory.read_write, if_neg h1]

theorem Memory.read_writes_mem (m : Memory) (l : List Host.Cell) (j : Nat) (b : Byte)
    (hm : (j, b) ∈ l) (hu : ∀ b', (j, b') ∈ l → b' = b) : (m.writes l).read j = some b := by
  induction l generalizing m with
  | nil => simp at hm
  | cons c t ih =>
    have e : (m.writes (c :: t)).read j = ((m.write c.1 c.2).writes t).read j := rfl
    rw [e]
    by_cases ht : ∃ b', (j, b') ∈ t
    · obtain ⟨b', hb'⟩ := ht
      have : b' = b := hu b' (by simp [hb'])
      subst this
      exact ih _ hb' (fun x hx => hu x (by simp [hx]))
    · have hc : c = (j, b) := by
        rcases List.mem_cons.1 hm with h | h
        · exact h.symm
        · exact absurd ⟨b, h⟩ ht
      rw [Memory.read_writes]
      · simp [Memory.read_write, hc]
      · intro d hd hj
        exact ht ⟨d.2, by rw [← hj]; exact hd⟩

theorem Memory.mem_write (m : Memory) (i : Nat) (b : Byte) (c : Host.Cell) (h : c ∈ m.write i b) :
    c.1 = i ∨ c ∈ m := by
  induction m with
  | nil => simp [Memory.write] at h; simp [h]
  | cons d t ih =>
    simp only [Memory.write] at h
    split at h
    · rcases List.mem_cons.1 h with h | h
      · simp [h]
      · exact .inr h
    · split at h
      · rcases List.mem_cons.1 h with h | h
        · simp [h]
        · exact .inr (List.mem_cons_of_mem _ h)
      · rcases List.mem_cons.1 h with h | h
        · simp [h]
        · rcases ih h with h | h
          · exact .inl h
          · exact .inr (List.mem_cons_of_mem _ h)

theorem Memory.wf_write (m : Memory) (i : Nat) (b : Byte) (h : m.wf) : (m.write i b).wf := by
  induction m with
  | nil => simp [Memory.write, Memory.wf]
  | cons c t ih =>
    obtain ⟨hc, ht⟩ := List.pairwise_cons.1 h
    simp only [Memory.write]
    split
    · rename_i hi
      refine List.pairwise_cons.2 ⟨?_, h⟩
      intro d hd
      rcases List.mem_cons.1 hd with rfl | hd
      · exact hi
      · exact Nat.lt_trans hi (hc d hd)
    · split
      · rename_i hi
        refine List.pairwise_cons.2 ⟨?_, ht⟩
        intro d hd
        exact hi ▸ hc d hd
      · refine List.pairwise_cons.2 ⟨?_, ih ht⟩
        intro d hd
        rcases Memory.mem_write t i b d hd with e | e
        · omega
        · exact hc d e

theorem Memory.wf_writes (m : Memory) (l : List Host.Cell) (h : m.wf) : (m.writes l).wf := by
  induction l generalizing m with
  | nil => exact h
  | cons c t ih => exact ih _ (Memory.wf_write m c.1 c.2 h)

theorem Memory.mem_settle (n : Nat) (keep : Nat → Bool) (old m : Memory) (c : Host.Cell)
    (h : c ∈ Memory.settle n keep old m) : ∃ d ∈ m, d.1 = c.1 := by
  induction m with
  | nil => simp [Memory.settle] at h
  | cons d t ih =>
    simp only [Memory.settle] at h
    split at h
    · split at h
      · rcases List.mem_cons.1 h with h | h
        · exact ⟨d, by simp, by simp [h]⟩
        · obtain ⟨e, he, hc⟩ := ih h
          exact ⟨e, by simp [he], hc⟩
      · obtain ⟨e, he, hc⟩ := ih h
        exact ⟨e, by simp [he], hc⟩
    · rcases List.mem_cons.1 h with h | h
      · exact ⟨d, by simp, by simp [h]⟩
      · obtain ⟨e, he, hc⟩ := ih h
        exact ⟨e, by simp [he], hc⟩

theorem Memory.wf_settle (n : Nat) (keep : Nat → Bool) (old m : Memory) (h : m.wf) :
    (Memory.settle n keep old m).wf := by
  induction m with
  | nil => simp [Memory.settle, Memory.wf]
  | cons c t ih =>
    obtain ⟨hc, ht⟩ := List.pairwise_cons.1 h
    have key : ∀ b : Byte, Memory.wf ((c.1, b) :: Memory.settle n keep old t) := by
      intro b
      refine List.pairwise_cons.2 ⟨?_, ih ht⟩
      intro d hd
      obtain ⟨e, he, hed⟩ := Memory.mem_settle n keep old t d hd
      have := hc e he
      simp only [← hed]
      exact this
    simp only [Memory.settle]
    split
    · split
      · exact key _
      · exact ih ht
    · exact key c.2

/-- What the settled buffer reads at each index: the old byte where the free choice keeps it and the new buffer lists
the index, else the new one. -/
theorem Memory.read_settle (n : Nat) (keep : Nat → Bool) (old m : Memory) (i : Nat) :
    (Memory.settle n keep old m).read i = m.read i ∨
    (i < n ∧ (Memory.settle n keep old m).read i = old.read i) := by
  induction m with
  | nil => exact .inl rfl
  | cons c t ih =>
    by_cases hk : c.1 < n ∧ keep c.1 = true
    · by_cases e : c.1 = i
      · cases ho : old.read c.1 with
        | some b =>
          refine .inr ⟨e ▸ hk.1, ?_⟩
          simp only [Memory.settle, if_pos hk, ho]
          simp [Memory.read, e, ← ho]
        | none =>
          have hs : Memory.settle n keep old (c :: t) = Memory.settle n keep old t := by
            simp only [Memory.settle, if_pos hk, ho]
          refine .inr ⟨e ▸ hk.1, ?_⟩
          rw [hs, ← e, ho]
          clear ih hs
          induction t with
          | nil => rfl
          | cons d t' ih' =>
            by_cases hd : d.1 < n ∧ keep d.1 = true
            · cases hod : old.read d.1 with
              | some b =>
                have : d.1 ≠ c.1 := fun h => by rw [h, ho] at hod; simp at hod
                simp only [Memory.settle, if_pos hd, hod, Memory.read, if_neg this]
                exact ih'
              | none => simp only [Memory.settle, if_pos hd, hod]; exact ih'
            · have : d.1 ≠ c.1 := fun h => hd (h ▸ hk)
              simp only [Memory.settle, if_neg hd, Memory.read, if_neg this]
              exact ih'
      · have hr : Memory.read (c :: t) i = Memory.read t i := by simp [Memory.read, e]
        rw [hr]
        cases ho : old.read c.1 with
        | some b =>
          have hs : (Memory.settle n keep old (c :: t)).read i = (Memory.settle n keep old t).read i := by
            simp only [Memory.settle, if_pos hk, ho]
            simp [Memory.read, e]
          rw [hs]; exact ih
        | none =>
          have hs : Memory.settle n keep old (c :: t) = Memory.settle n keep old t := by
            simp only [Memory.settle, if_pos hk, ho]
          rw [hs]; exact ih
    · by_cases e : c.1 = i
      · refine .inl ?_
        simp only [Memory.settle, if_neg hk, Memory.read, if_pos e]
      · have hs : (Memory.settle n keep old (c :: t)).read i = (Memory.settle n keep old t).read i := by
          simp only [Memory.settle, if_neg hk]
          simp [Memory.read, e]
        have hr : Memory.read (c :: t) i = Memory.read t i := by simp [Memory.read, e]
        rw [hs, hr]; exact ih

theorem Memory.settle_unlisted (n : Nat) (keep : Nat → Bool) (old m : Memory) (i : Nat) (h : m.read i = none)
    (hn : n ≤ i ∨ old.read i = none) : (Memory.settle n keep old m).read i = none := by
  rcases Memory.read_settle n keep old m i with h1 | ⟨h1, h2⟩
  · rw [h1, h]
  · rcases hn with hn | hn
    · omega
    · rw [h2, hn]

end Sys2Proof.Machine
end

