-- ==== Sys2Proof/Laws/Symbols.lean ====
section
/-! SUPPORT. What a failure in phase 2 does, and the two outcomes of reading raw bits (spec 60 R214, 45 R182,
42 R142). -/

namespace Sys2Proof.Machine

/-- A phase-2 failure, said once: what is recorded, and which OUT_BUF bytes may differ. -/
theorem State.failScan_spec (s : State) (kind : ErrKind) : s.FailedInScan (s.failScan kind) kind := by
  refine ⟨rfl, ?_⟩
  intro i
  have h := Memory.read_settle s.csr.outLen (Config.failureKeepsOld s.freeIdx) s.outOld s.outBuf i
  have e : (s.failScan kind).outByte i =
      ((Memory.settle s.csr.outLen (Config.failureKeepsOld s.freeIdx) s.outOld s.outBuf).read i).getD
        (Config.powerOnOut s.epoch i) := rfl
  rcases h with h | ⟨h1, h2⟩
  · exact .inl (by rw [e, h]; rfl)
  · exact .inr ⟨h1, by rw [e, h2]; rfl⟩

theorem State.withRaw_ok {s : State} {n v : Nat} {b : BitReader} (f : Nat → State → State)
    (h : s.br.readBits s.inByte s.scan.stop n = .ok v b) : s.withRaw n f = f v { s with br := b } := by
  simp only [State.withRaw, h]

theorem State.withRaw_fail {s : State} {n : Nat} {b : BitReader} (f : Nat → State → State)
    (h : s.br.readBits s.inByte s.scan.stop n = .fail b) :
    s.withRaw n f = State.failScan { s with br := b } .malformedEntropyStream := by
  simp only [State.withRaw, h]

theorem atDc_dc (f : State → State) {s : State} (h : s.phase = .decode .dc) : atDc f s = .next (f s) := by
  simp only [atDc, h]

theorem atAc_ac (f : State → State) {s : State} (h : s.phase = .decode .ac) : atAc f s = .next (f s) := by
  simp only [atAc, h]

end Sys2Proof.Machine
end

