-- ==== Sys2Proof/Laws/Tables.lean ====
section
/-! SUPPORT. What the table segments do with one definition and with a list of them (spec 41 R110 to R113, 42 R130 to
R134). -/

namespace Sys2Proof.Machine

/-! DQT. -/

theorem dqtDef_good (d : Byte × List Byte) (tail : List Byte) (h : GoodDqt d) :
    ∃ hs : loNibble d.1 < 4,
      dqtDef (d.1 :: (d.2 ++ tail)) =
        .ok ⟨⟨loNibble d.1, hs⟩, unzigzag (fun k => BitVec.ofNat 16 (dqtEntry d k)), tail⟩ := by
  obtain ⟨h1, h2, h3⟩ := h
  have hs : loNibble d.1 < 4 := by omega
  refine ⟨hs, ?_⟩
  have hl : ¬ (d.2 ++ tail).length < 64 * (hiNibble d.1 + 1) := by
    rw [List.length_append]; omega
  simp only [dqtDef, hs, dif_pos, if_neg (by omega : ¬ 1 < hiNibble d.1), if_neg hl]
  have hd : (d.2 ++ tail).drop (64 * (hiNibble d.1 + 1)) = tail := by
    rw [← h3, List.drop_left]
  rw [hd]
  congr 2
  apply Vector.ext
  intro n hn
  simp only [unzigzag, getElem_tabulate]
  have hp := zigzagPos_lt hn
  simp only [dqtValue, dqtEntry, byteAt, be16]
  split
  · rename_i h0
    congr 2
    exact List.getD_append _ _ _ _ (by rw [h3, h0]; omega)
  · have e1 : (d.2 ++ tail).getD (2 * zigzagPos n) 0 = d.2.getD (2 * zigzagPos n) 0 :=
      List.getD_append _ _ _ _ (by rw [h3]; omega)
    have e2 : (d.2 ++ tail).getD (2 * zigzagPos n + 1) 0 = d.2.getD (2 * zigzagPos n + 1) 0 :=
      List.getD_append _ _ _ _ (by rw [h3]; omega)
    rw [e1, e2]

theorem dqtDef_bad (h : Byte) (q : List Byte) (hb : BadDqt h q) : dqtDef (h :: q) = .error .malformedContainer := by
  by_cases h1 : loNibble h < 4
  · by_cases h2 : 1 < hiNibble h
    · simp only [dqtDef, h1, dif_pos, if_pos h2]
    · have h3 : q.length < 64 * (hiNibble h + 1) := by
        rcases hb with hb | hb | hb
        · omega
        · omega
        · exact hb
      simp only [dqtDef, h1, dif_pos, if_neg h2, if_pos h3]
  · simp only [dqtDef, h1, dif_neg, not_false_eq_true]

/-- The only kind a DQT definition fails with (41 R111). -/
theorem dqtDef_error (p : List Byte) (kind : ErrKind) (h : dqtDef p = .error kind) : kind = .malformedContainer := by
  unfold dqtDef at h
  split at h
  · cases h; rfl
  · split at h
    · split at h
      · cases h; rfl
      · dsimp only at h
        split at h
        · cases h; rfl
        · cases h
    · cases h; rfl

theorem setQuant_eq (s : State) (d : Byte × List Byte) (hs : loNibble d.1 < 4) :
    s.setQuant ⟨loNibble d.1, hs⟩ (unzigzag (fun k => BitVec.ofNat 16 (dqtEntry d k))) =
      { s with qt := storeDqt s.qt d } := by
  simp only [State.setQuant, storeDqt, setIfInBounds_of_lt _ _ _ hs]

theorem dqtDefs_good (moff : Nat) (defs : List (Byte × List Byte)) (tail : List Byte) (fuel : Nat) (s : State)
    (hd : ∀ d ∈ defs, GoodDqt d) (hf : (defs.flatMap (fun d => d.1 :: d.2) ++ tail).length ≤ fuel) :
    ∃ fuel', tail.length ≤ fuel' ∧
      dqtDefs moff fuel (defs.flatMap (fun d => d.1 :: d.2) ++ tail) s =
        dqtDefs moff fuel' tail { s with qt := defs.foldl storeDqt s.qt } := by
  induction defs generalizing fuel s with
  | nil => exact ⟨fuel, hf, rfl⟩
  | cons d ds ih =>
    obtain ⟨hs, hdef⟩ := dqtDef_good d (ds.flatMap (fun d => d.1 :: d.2) ++ tail) (hd d (by simp))
    simp only [List.flatMap_cons, List.cons_append, List.append_assoc] at hf ⊢
    rw [List.length_cons, List.length_append] at hf
    obtain ⟨n, rfl⟩ : ∃ n, fuel = n + 1 := ⟨fuel - 1, by omega⟩
    obtain ⟨f', h1, h2⟩ := ih n { s with qt := storeDqt s.qt d } (fun e he => hd e (by simp [he])) (by omega)
    refine ⟨f', h1, ?_⟩
    simp only [dqtDefs, hdef, setQuant_eq, h2, List.foldl_cons]

theorem getAt_storeDqt (qt : Vector QuantTable 4) (d : Byte × List Byte) (t : Nat) (ht : t < 4) (dflt : QuantTable) :
    getAt (storeDqt qt d) t dflt =
      if t = loNibble d.1 then ⟨true, unzigzag (fun k => BitVec.ofNat 16 (dqtEntry d k))⟩ else getAt qt t dflt := by
  simp [storeDqt, getAt_setIfInBounds, ht]

theorem dqtEntry_lt (d : Byte × List Byte) (k : Nat) : dqtEntry d k < 2 ^ 16 := by
  unfold dqtEntry
  split
  · have := (d.2.getD k 0).isLt; omega
  · have := (d.2.getD (2 * k) 0).isLt
    have := (d.2.getD (2 * k + 1) 0).isLt
    omega

/-! DHT. -/

theorem startCode_succ (l : Nat → Nat) (n : Nat) (h : 1 ≤ n) : startCode l (n + 1) = (startCode l n + l n) * 2 := by
  obtain ⟨m, rfl⟩ : ∃ m, n = m + 1 := ⟨n - 1, by omega⟩
  rfl

theorem firstSymbol_succ (l : Nat → Nat) (n : Nat) (h : 1 ≤ n) : firstSymbol l (n + 1) = firstSymbol l n + l n := by
  obtain ⟨m, rfl⟩ : ∃ m, n = m + 1 := ⟨n - 1, by omega⟩
  rfl

/-- The builder's loop (42 R133) from length `n` on: it fails exactly when some length does not fit, and otherwise
gives the first codes and first symbol indexes of the lengths from `n` on. -/
theorem canonCodes_spec (l : Nat → Nat) (m n : Nat) (hn : 1 ≤ n) :
    ((∃ k, n ≤ k ∧ k < n + m ∧ 2 ^ k < startCode l k + l k) →
      canonCodes ((List.range' n m).map l) n (startCode l n) (firstSymbol l n) = none) ∧
    ((∀ k, n ≤ k → k < n + m → startCode l k + l k ≤ 2 ^ k) →
      canonCodes ((List.range' n m).map l) n (startCode l n) (firstSymbol l n) =
        some ((List.range' n m).map (fun k => (startCode l k, firstSymbol l k)))) := by
  induction m generalizing n with
  | zero => exact ⟨fun ⟨k, h1, h2, _⟩ => by omega, fun _ => rfl⟩
  | succ m ih =>
    obtain ⟨i1, i2⟩ := ih (n + 1) (by omega)
    rw [startCode_succ l n hn, firstSymbol_succ l n hn] at i1 i2
    refine ⟨?_, ?_⟩
    · rintro ⟨k, h1, h2, h3⟩
      simp only [List.range'_succ, List.map_cons, canonCodes]
      split
      · rfl
      · rename_i hk
        have : n ≠ k := by rintro rfl; exact hk h3
        rw [i1 ⟨k, by omega, by omega, h3⟩]; rfl
    · intro h
      simp only [List.range'_succ, List.map_cons, canonCodes]
      rw [if_neg (Nat.not_lt.2 (h n (by omega) (by omega))), i2 (fun k h1 h2 => h k (by omega) (by omega))]
      rfl

/-- The 16 count bytes as the counts of the lengths 1 to 16. -/
theorem counts_eq_range (counts : List Byte) (h : counts.length = 16) :
    counts.map BitVec.toNat = (List.range' 1 16).map (lengthCount counts) := by
  apply List.ext_getElem
  · simp [h]
  · intro i h1 h2
    simp only [List.length_map] at h1
    simp [lengthCount, h1]

theorem canonCodes_good (counts : List Byte) (h : counts.length = 16)
    (hk : ∀ n, n ∈ List.range' 1 16 → startCode (lengthCount counts) n + lengthCount counts n ≤ 2 ^ n) :
    canonCodes (counts.map BitVec.toNat) 1 0 0 =
      some ((List.range' 1 16).map (fun k => (startCode (lengthCount counts) k, firstSymbol (lengthCount counts) k))) := by
  rw [counts_eq_range counts h]
  exact (canonCodes_spec (lengthCount counts) 16 1 (by decide)).2
    (fun k h1 h2 => hk k (by simp only [List.mem_range'_1]; omega))

theorem canonCodes_bad (counts : List Byte) (h : counts.length = 16) (n : Nat) (h1 : 1 ≤ n) (h2 : n ≤ 16)
    (h3 : 2 ^ n < startCode (lengthCount counts) n + lengthCount counts n) :
    canonCodes (counts.map BitVec.toNat) 1 0 0 = none := by
  rw [counts_eq_range counts h]
  exact (canonCodes_spec (lengthCount counts) 16 1 (by decide)).1 ⟨n, h1, by omega, h3⟩

theorem dhtDef_good (d : DhtParts) (tail : List Byte) (h : GoodDht d) :
    ∃ hs : loNibble d.head < 4,
      dhtDef (d.bytes ++ tail) =
        .ok { cls := if hiNibble d.head = 0 then .dc else .ac
              slot := ⟨loNibble d.head, hs⟩
              counts := d.counts
              codes := (List.range' 1 16).map
                (fun k => (startCode (lengthCount d.counts) k, firstSymbol (lengthCount d.counts) k))
              syms := d.syms
              rest := tail } := by
  obtain ⟨h1, h2, h3, h4, h5, h6⟩ := h
  have hs : loNibble d.head < 4 := by omega
  refine ⟨hs, ?_⟩
  have e1 : (d.counts ++ d.syms ++ tail).take 16 = d.counts := by
    rw [List.append_assoc, ← h3, List.take_left]
  have e2 : (d.counts ++ d.syms ++ tail).drop 16 = d.syms ++ tail := by
    rw [List.append_assoc, ← h3, List.drop_left]
  have e3 : countSum d.counts = d.syms.length := by rw [countSum, h5]
  have e4 : (d.counts ++ d.syms ++ tail).drop (16 + d.syms.length) = tail := by
    rw [← List.drop_drop, e2, List.drop_left]
  have hl : (d.counts ++ d.syms ++ tail).length = 16 + d.syms.length + tail.length := by
    simp only [List.length_append, h3]
  simp only [DhtParts.bytes, List.cons_append, dhtDef, hs, dif_pos, if_neg (by omega : ¬ 1 < hiNibble d.head), hl,
    if_neg (by omega : ¬ 16 + d.syms.length + tail.length < 16), e1, e2, e3, e4,
    if_neg (by omega : ¬ 256 < d.syms.length),
    if_neg (by omega : ¬ 16 + d.syms.length + tail.length < 16 + d.syms.length), canonCodes_good d.counts h3 h6,
    List.take_left]

theorem setHuff_eq (s : State) (d : DhtParts) (hs : loNibble d.head < 4) (rest : List Byte) :
    s.setHuff { cls := if hiNibble d.head = 0 then .dc else .ac
                slot := ⟨loNibble d.head, hs⟩
                counts := d.counts
                codes := (List.range' 1 16).map
                  (fun k => (startCode (lengthCount d.counts) k, firstSymbol (lengthCount d.counts) k))
                syms := d.syms
                rest := rest } = s.storeDht d := by
  have key : ∀ old, DhtDef.table
      { cls := if hiNibble d.head = 0 then .dc else .ac
        slot := ⟨loNibble d.head, hs⟩
        counts := d.counts
        codes := (List.range' 1 16).map
          (fun k => (startCode (lengthCount d.counts) k, firstSymbol (lengthCount d.counts) k))
        syms := d.syms
        rest := rest } old = d.table old := by
    intro old
    simp only [DhtDef.table, DhtParts.table, HuffTable.mk.injEq, true_and, byteAt]
    refine ⟨?_, ?_⟩ <;>
    · apply Vector.ext
      intro i hi
      simp [hi, Nat.add_comm]
  unfold State.setHuff State.storeDht
  rw [key]
  by_cases h0 : hiNibble d.head = 0
  · simp only [h0, if_true, State.setHt, State.ht]
    simp [getAt_lt, hs, setIfInBounds_of_lt]
  · simp only [h0, if_false, State.setHt, State.ht]
    simp [getAt_lt, hs, setIfInBounds_of_lt]

theorem dhtDefs_good (moff : Nat) (defs : List DhtParts) (tail : List Byte) (fuel : Nat) (s : State)
    (hd : ∀ d ∈ defs, GoodDht d) (hf : (defs.flatMap DhtParts.bytes ++ tail).length ≤ fuel) :
    ∃ fuel', tail.length ≤ fuel' ∧
      dhtDefs moff fuel (defs.flatMap DhtParts.bytes ++ tail) s =
        dhtDefs moff fuel' tail (defs.foldl State.storeDht s) := by
  induction defs generalizing fuel s with
  | nil => exact ⟨fuel, hf, rfl⟩
  | cons d ds ih =>
    obtain ⟨hs, hdef⟩ := dhtDef_good d (ds.flatMap DhtParts.bytes ++ tail) (hd d (by simp))
    simp only [List.flatMap_cons, List.append_assoc] at hf ⊢
    rw [List.length_append] at hf
    have hb : d.bytes = d.head :: (d.counts ++ d.syms) := rfl
    have : 1 ≤ d.bytes.length := by rw [hb]; simp
    obtain ⟨n, rfl⟩ : ∃ n, fuel = n + 1 := ⟨fuel - 1, by omega⟩
    obtain ⟨f', h1, h2⟩ := ih n (s.storeDht d) (fun e he => hd e (by simp [he])) (by omega)
    refine ⟨f', h1, ?_⟩
    rw [hb, List.cons_append] at hdef ⊢
    simp only [dhtDefs, hdef, setHuff_eq, h2, List.foldl_cons]

theorem dhtDef_badSlot (h : Byte) (q : List Byte) (hb : 3 < loNibble h ∨ 1 < hiNibble h) :
    dhtDef (h :: q) = .error .malformedContainer := by
  by_cases h1 : loNibble h < 4
  · simp only [dhtDef, h1, dif_pos, if_pos (by omega : 1 < hiNibble h)]
  · simp only [dhtDef, h1, dif_neg, not_false_eq_true]

theorem dhtDef_badTable (h : Byte) (q : List Byte) (h1 : loNibble h ≤ 3) (h2 : hiNibble h ≤ 1)
    (hb : q.length < 16 ∨ 256 < ((q.take 16).map BitVec.toNat).sum ∨
      q.length < 16 + ((q.take 16).map BitVec.toNat).sum ∨
      ∃ n, 1 ≤ n ∧ n ≤ 16 ∧ 2 ^ n < startCode (lengthCount (q.take 16)) n + lengthCount (q.take 16) n) :
    dhtDef (h :: q) = .error .invalidHuffmanTable := by
  have hs : loNibble h < 4 := by omega
  simp only [dhtDef, hs, dif_pos, if_neg (by omega : ¬ 1 < hiNibble h)]
  by_cases c1 : q.length < 16
  · rw [if_pos c1]
  · rw [if_neg c1]
    by_cases c2 : 256 < countSum (q.take 16)
    · rw [if_pos c2]
    · rw [if_neg c2]
      by_cases c3 : q.length < 16 + countSum (q.take 16)
      · rw [if_pos c3]
      · rw [if_neg c3]
        obtain ⟨n, a, b, c⟩ : ∃ n, 1 ≤ n ∧ n ≤ 16 ∧
            2 ^ n < startCode (lengthCount (q.take 16)) n + lengthCount (q.take 16) n := by
          rcases hb with hb | hb | hb | hb
          · exact absurd hb c1
          · exact absurd hb c2
          · exact absurd hb c3
          · exact hb
        rw [canonCodes_bad (q.take 16) (by rw [List.length_take]; omega) n a b c]

/-- The two kinds a DHT definition fails with (42 R131, R133). -/
theorem dhtDef_error (p : List Byte) (kind : ErrKind) (h : dhtDef p = .error kind) :
    kind = .malformedContainer ∨ kind = .invalidHuffmanTable := by
  unfold dhtDef at h
  split at h
  · cases h; exact .inl rfl
  · split at h
    · split at h
      · cases h; exact .inl rfl
      · split at h
        · cases h; exact .inr rfl
        · dsimp only at h
          split at h
          · cases h; exact .inr rfl
          · split at h
            · cases h; exact .inr rfl
            · split at h
              · cases h; exact .inr rfl
              · cases h
    · cases h; exact .inl rfl

end Sys2Proof.Machine
end

