-- ==== Sys2Proof/Laws/Moves.lean ====
section
/-! SUPPORT. Everything a step of the core can do, said once: `coreStep_move` takes a step apart into the constructors
of `CoreMove`, each with what it needs and what it changes. A rule of the whole machine is proved by cases on them. -/

namespace Sys2Proof.Machine

/-- The reader `b'` stands at or past `b`, inside the scan data that ends at `lim` when `b` does (spec 42 R146). -/
def BitReader.Onward (lim : Nat) (b b' : BitReader) : Prop :=
  b.bpos ≤ lim → b.bcnt ≤ 8 → b.bpos ≤ b'.bpos ∧ b'.bpos ≤ lim ∧ b'.bcnt ≤ 8

theorem BitReader.Onward.refl (lim : Nat) (b : BitReader) : Onward lim b b := fun h h' => ⟨le_refl _, h, h'⟩

theorem BitReader.Onward.trans {lim : Nat} {a b c : BitReader} (h : Onward lim a b) (h' : Onward lim b c) :
    Onward lim a c := by
  intro p q
  obtain ⟨x1, x2, x3⟩ := h p q
  obtain ⟨y1, y2, y3⟩ := h' x2 x3
  exact ⟨le_trans x1 y1, y2, y3⟩

/-- What a step of the core can do from `s`. -/
inductive CoreMove (s : State) : State → Prop where
  | idle : s.phase = .idle → CoreMove s s
  | failParse (pt : ParseAt) (qt : Vector QuantTable 4) (htDc htAc : Vector HuffTable 4) (c : Nat) (kind : ErrKind)
      (off : Nat) (mk : BitVec 16) : s.phase = .parse pt →
      (pt = .term → qt = s.qt ∧ htDc = s.htDc ∧ htAc = s.htAc) → kind ≠ .none → s.cur ≤ c →
      (s.cur ≤ s.csr.inLen → c ≤ s.csr.inLen) → ((pt ≠ .soi → s.cur ≤ s.csr.inLen) → off ≤ s.csr.inLen) →
      CoreMove s (State.failed { s with qt := qt, htDc := htDc, htAc := htAc } c kind off mk)
  | soi : s.phase = .parse .soi → 2 ≤ s.csr.inLen → CoreMove s { s with cur := 2, phase := .parse .marker }
  | advance (qt : Vector QuantTable 4) (htDc htAc : Vector HuffTable 4) (c : Nat) : s.phase = .parse .marker →
      s.cur < c → c ≤ s.csr.inLen → CoreMove s { s with qt := qt, htDc := htDc, htAc := htAc, cur := c }
  | frame (f : FrameRegs) (c : Nat) : s.phase = .parse .marker → s.cur < c → c ≤ s.csr.inLen →
      s.frame.valid = false → f.valid = true → f.Ok s.params →
      CoreMove s
        { s with
          cur := c
          frame := f
          csr := { s.csr with
                   imgWidth := f.x, imgHeight := f.y, imgChannels := BitVec.ofNat 2 f.nf
                   outLen := f.x.toNat * f.y.toNat * f.nf } }
  | scan (r : ScanRegs) : s.phase = .parse .marker → s.frame.valid = true → r.valid = true → s.cur < r.first →
      r.first ≤ r.stop → r.stop ≤ s.csr.inLen →
      (∀ j, j < s.frame.nf → j < 3 → s.tablesPresent j (r.comp j) = true) →
      CoreMove s { s with scan := r, cur := r.stop, phase := .parse .term }
  | fill : s.phase = .parse .term → s.cur + 1 < s.csr.inLen → CoreMove s { s with cur := s.cur + 1 }
  | endPhase1 : s.phase = .parse .term → CoreMove s s.endPhase1
  | phase2Start : s.phase = .decode .start → CoreMove s s.phase2Start
  | failScan (br : BitReader) (zz : Vector Int 64) (kind : ErrKind) :
      s.phase = .decode .dc ∨ s.phase = .decode .ac → BitReader.Onward s.scan.stop s.br br →
      kind = .malformedEntropyStream ∨ kind = .corruptBlock →
      CoreMove s (State.failScan { s with br := br, zz := zz } kind)
  | dc (br : BitReader) (pred : Vector Int 3) (zz : Vector Int 64) : s.phase = .decode .dc →
      BitReader.Onward s.scan.stop s.br br →
      CoreMove s { s with br := br, pred := pred, zz := zz, blk := { s.blk with k := 1 }, phase := .decode .ac }
  | eob (br : BitReader) : s.phase = .decode .ac → BitReader.Onward s.scan.stop s.br br →
      CoreMove s { s with br := br, phase := .decode .blockDone }
  | ac (br : BitReader) (zz : Vector Int 64) (k : Nat) : s.phase = .decode .ac → BitReader.Onward s.scan.stop s.br br →
      s.blk.k < k → k ≤ 64 → CoreMove s (State.acAt { s with br := br, zz := zz } k)
  | blockDone : s.phase = .decode .blockDone → CoreMove s s.finishBlock
  | mcuDone : s.phase = .decode .mcuDone → CoreMove s s.emitMcu
  | finish : s.phase = .decode .finish → CoreMove s s.complete

/-- The outcome is a next state reached by a move. -/
abbrev Moves (s : State) (o : Host.Outcome State Fault Refusal) : Prop := ∃ t, o = .next t ∧ CoreMove s t

/-! Markers. -/

/-- A failure in phase 1 that changes no table. -/
theorem CoreMove.failPlain {s : State} {pt : ParseAt} (c : Nat) (kind : ErrKind) (off : Nat) (mk : BitVec 16)
    (h : s.phase = .parse pt) (hk : kind ≠ .none) (h1 : s.cur ≤ c) (h2 : s.cur ≤ s.csr.inLen → c ≤ s.csr.inLen)
    (h3 : (pt ≠ .soi → s.cur ≤ s.csr.inLen) → off ≤ s.csr.inLen) : CoreMove s (s.failed c kind off mk) :=
  .failParse pt s.qt s.htDc s.htAc c kind off mk h (fun _ => ⟨rfl, rfl, rfl⟩) hk h1 h2 h3

theorem atMarker_moves (pre post : State → State) {s : State} {pt : ParseAt} (h : s.phase = .parse pt)
    (h1 : s.phase = .parse .marker → CoreMove s (pre s)) (h2 : s.phase = .parse .term → CoreMove s (post s)) :
    Moves s (atMarker pre post s) := by
  cases pt with
  | soi =>
    exact ⟨_, atMarker_soi pre post h,
      .failPlain s.cur .malformedContainer 0 0 h (by decide) (le_refl _) id (fun _ => Nat.zero_le _)⟩
  | marker => exact ⟨_, atMarker_marker pre post h, h1 h⟩
  | term => exact ⟨_, atMarker_term pre post h, h2 h⟩

theorem failMarker_move (kind : ErrKind) (code : Byte) {s : State} (h : s.phase = .parse .marker) (hk : kind ≠ .none)
    (hc : s.cur + 1 < s.csr.inLen) : CoreMove s (failMarker kind code s) :=
  .failPlain (s.cur + 2) kind s.cur (markerValue code) h hk (by omega) (fun _ => by omega) (· (by decide))

theorem failTerminator_move (kind : ErrKind) (code : Byte) {s : State} (h : s.phase = .parse .term)
    (hk : kind ≠ .none) : CoreMove s (failTerminator kind code s) :=
  .failPlain s.cur kind s.cur (markerValue code) h hk (le_refl _) id (· (by decide))

/-- The walk ends inside the stream. -/
theorem State.SosReached.lt {s : State} {w r : Nat} (h : s.SosReached w r) : r + 1 < s.csr.inLen := by
  induction h with
  | sos _ h _ _ => exact h
  | fill _ _ _ _ _ _ ih => exact ih
  | standAlone _ _ _ _ _ _ ih => exact ih
  | segment _ _ _ _ _ _ _ _ _ _ _ _ ih => exact ih

theorem walkForSos_move (code : Byte) {s : State} (h : s.phase = .parse .term) : CoreMove s (walkForSos code s) := by
  unfold walkForSos
  cases hw : (s.afterTerminator code).bind s.walk with
  | none => exact .failPlain s.cur _ s.cur _ h (by decide) (le_refl _) id (· (by decide))
  | some w =>
    obtain ⟨a, -, hr⟩ := Option.bind_eq_some_iff.1 hw
    have := ((s.walk_iff a w).1 hr).lt
    exact .failPlain s.cur _ w _ h (by decide) (le_refl _) id (fun _ => by omega)

/-- A segment moves as its body does on a segment that lies inside the stream. -/
theorem segment_move (code : Byte) (body : Nat → List Byte → Nat → State → State) {s : State}
    (h : s.phase = .parse .marker) (hc : s.cur + 1 < s.csr.inLen)
    (hb : ∀ lh, s.HasSegment lh → CoreMove s (body s.cur (s.segPayload lh) (s.cur + 2 + lh) s.pastMarker)) :
    CoreMove s (segment code body s) := by
  rcases s.hasSegment_or_bad with ⟨lh, hs⟩ | hs
  · rw [segment_good code body hs]; exact hb lh hs
  · rw [segment_bad code body hs]
    exact .failPlain (s.cur + 2) _ s.cur _ h (by decide) (by omega) (fun _ => by omega) (· (by decide))

theorem skipSegment_move (code : Byte) {s : State} (h : s.phase = .parse .marker) (hc : s.cur + 1 < s.csr.inLen) :
    CoreMove s (skipSegment code s) :=
  segment_move code _ h hc (fun _ hs => .advance s.qt s.htDc s.htAc _ h (by omega) hs.2.2.2)

theorem unsupportedSegment_move (code : Byte) {s : State} (h : s.phase = .parse .marker)
    (hc : s.cur + 1 < s.csr.inLen) : CoreMove s (unsupportedSegment code s) :=
  segment_move code _ h hc
    (fun _ _ => .failPlain (s.cur + 2) _ s.cur _ h (by decide) (by omega) (fun _ => by omega) (· (by decide)))

/-! Tables. -/

/-- `t` is `s` with other tables, or that state after a failure at `moff`. -/
def TablesOnly (moff : Nat) (s : State) : Except State State → Prop
  | .ok t => ∃ qt dc ac, t = { s with qt := qt, htDc := dc, htAc := ac }
  | .error t => ∃ qt dc ac kind mk, kind ≠ .none ∧
      t = State.failed { s with qt := qt, htDc := dc, htAc := ac } s.cur kind moff mk

theorem TablesOnly.mono {moff : Nat} {s s' : State} {r : Except State State}
    (h : ∃ qt dc ac, s' = { s with qt := qt, htDc := dc, htAc := ac }) (hr : TablesOnly moff s' r) :
    TablesOnly moff s r := by
  obtain ⟨q, d, a, rfl⟩ := h
  cases r with
  | ok t => obtain ⟨q', d', a', rfl⟩ := hr; exact ⟨q', d', a', rfl⟩
  | error t => obtain ⟨q', d', a', k, m, hk, rfl⟩ := hr; exact ⟨q', d', a', k, m, hk, rfl⟩

theorem dqtDef_kind {p : List Byte} {kind : ErrKind} (h : dqtDef p = .error kind) : kind ≠ .none := by
  rw [dqtDef_error p kind h]; decide

theorem dhtDef_kind {p : List Byte} {kind : ErrKind} (h : dhtDef p = .error kind) : kind ≠ .none := by
  rcases dhtDef_error p kind h with rfl | rfl <;> decide

theorem dqtDefs_tablesOnly (moff fuel : Nat) (p : List Byte) (s : State) :
    TablesOnly moff s (dqtDefs moff fuel p s) := by
  induction fuel generalizing p s with
  | zero => cases p <;> exact ⟨_, _, _, rfl⟩
  | succ fuel ih =>
    cases p with
    | nil => exact ⟨_, _, _, rfl⟩
    | cons h q =>
      unfold dqtDefs
      cases hd : dqtDef (h :: q) with
      | error kind => exact ⟨s.qt, s.htDc, s.htAc, kind, _, dqtDef_kind hd, rfl⟩
      | ok d => exact (ih _ _).mono ⟨_, _, _, rfl⟩

theorem dhtDefs_tablesOnly (moff fuel : Nat) (p : List Byte) (s : State) :
    TablesOnly moff s (dhtDefs moff fuel p s) := by
  induction fuel generalizing p s with
  | zero => cases p <;> exact ⟨_, _, _, rfl⟩
  | succ fuel ih =>
    cases p with
    | nil => exact ⟨_, _, _, rfl⟩
    | cons h q =>
      unfold dhtDefs
      cases hd : dhtDef (h :: q) with
      | error kind => exact ⟨s.qt, s.htDc, s.htAc, kind, _, dhtDef_kind hd, rfl⟩
      | ok d =>
        refine (ih _ _).mono ?_
        unfold State.setHuff State.setHt
        cases d.cls <;> exact ⟨_, _, _, rfl⟩

theorem tables_move (code : Byte) (defs : Nat → Nat → List Byte → State → Except State State)
    (hd : ∀ moff fuel p s, TablesOnly moff s (defs moff fuel p s)) {s : State} (h : s.phase = .parse .marker)
    (hc : s.cur + 1 < s.csr.inLen) :
    CoreMove s (segment code (fun moff p segend s => afterDefs segend (defs moff p.length p s)) s) := by
  refine segment_move code _ h hc (fun lh hs => ?_)
  have ht := hd s.cur (s.segPayload lh).length (s.segPayload lh) s.pastMarker
  revert ht
  generalize defs s.cur (s.segPayload lh).length (s.segPayload lh) s.pastMarker = r
  intro ht
  cases r with
  | ok t =>
    obtain ⟨q, d, a, rfl⟩ := ht
    exact .advance q d a _ h (by omega) hs.2.2.2
  | error t =>
    obtain ⟨q, d, a, k, m, hk, rfl⟩ := ht
    exact .failParse _ q d a (s.cur + 2) k s.cur m h (fun h => by cases h) hk (by omega) (fun _ => by omega) (· (by decide))

/-! Frame and scan. -/

theorem sofComps_ok (n : Nat) (seen : List Byte) (p : List Byte) (cs : List FrameComp)
    (h : sofComps n seen p = .ok cs) :
    cs.length = n ∧ ∀ c ∈ cs, 1 ≤ c.h ∧ c.h ≤ 2 ∧ 1 ≤ c.v ∧ c.v ≤ 2 := by
  induction n generalizing seen p cs with
  | zero => simp only [sofComps, Except.ok.injEq] at h; subst h; simp
  | succ n ih =>
    rcases p with _ | ⟨c, _ | ⟨hv, _ | ⟨t, p⟩⟩⟩
    · simp [sofComps] at h
    · simp [sofComps] at h
    · simp [sofComps] at h
    · simp only [sofComps] at h
      split at h
      · cases h
      · split at h
        · cases h
        · split at h
          · split at h
            · cases h
            · split at h
              · cases h
              · rename_i l hl
                cases h
                obtain ⟨a, b⟩ := ih _ _ _ hl
                refine ⟨by simp [a], ?_⟩
                intro x hx
                rcases List.mem_cons.1 hx with rfl | hx
                · simp only; omega
                · exact b x hx
          · cases h

theorem sofComps_kind (n : Nat) (seen : List Byte) (p : List Byte) (kind : ErrKind)
    (h : sofComps n seen p = .error kind) : kind ≠ .none := by
  induction n generalizing seen p with
  | zero => cases h
  | succ n ih =>
    rcases p with _ | ⟨c, _ | ⟨hv, _ | ⟨t, p⟩⟩⟩
    · cases h; decide
    · cases h; decide
    · cases h; decide
    · simp only [sofComps] at h
      split at h
      · cases h; decide
      · split at h
        · cases h; decide
        · split at h
          · split at h
            · cases h; decide
            · split at h
              · rename_i k hk; cases h; exact ih _ _ hk
              · cases h
          · cases h; decide

theorem sofParse_kind {v : Bool} {m : Nat} {p : List Byte} {kind : ErrKind} (h : sofParse v m p = .error kind) :
    kind ≠ .none := by
  unfold sofParse at h
  dsimp only at h
  split at h
  · cases h; decide
  split at h
  · cases h; decide
  split at h
  · cases h; decide
  split at h
  · cases h; decide
  split at h
  · cases h; decide
  split at h
  · cases h; decide
  split at h
  · cases h; decide
  split at h
  · rename_i k hk; cases h; exact sofComps_kind _ _ _ _ hk
  · split at h <;> cases h
    decide

theorem be16_lt (a b : Byte) : be16 a b < 2 ^ 16 := by
  have := a.isLt; have := b.isLt
  unfold be16; omega

theorem sofParse_ok {v : Bool} {m : Nat} {p : List Byte} {f : SofFields} (h : sofParse v m p = .ok f) :
    v = false ∧ (f.nf = 1 ∨ f.nf = 3) ∧ 1 ≤ f.x.toNat ∧ 1 ≤ f.y.toNat ∧ f.comps.length = f.nf ∧
    (∀ c ∈ f.comps, 1 ≤ c.h ∧ c.h ≤ 2 ∧ 1 ≤ c.v ∧ c.v ≤ 2) ∧ f.x.toNat * f.y.toNat * f.nf ≤ m := by
  unfold sofParse at h
  dsimp only at h
  split at h
  · cases h
  rename_i hv
  split at h
  · cases h
  split at h
  · cases h
  split at h
  · cases h
  split at h
  · cases h
  rename_i hn
  split at h
  · cases h
  rename_i hx
  split at h
  · cases h
  rename_i hy
  split at h
  · cases h
  · rename_i l hl
    split at h
    · cases h
    · rename_i hs
      cases h
      obtain ⟨a, b⟩ := sofComps_ok _ _ _ _ hl
      simp only [BitVec.toNat_ofNat, Nat.mod_eq_of_lt (be16_lt _ _)]
      refine ⟨by simpa using hv, by omega, by omega, by omega, a, b, by omega⟩

theorem acceptFrame_ok {s : State} {f : SofFields} {v : Bool} {p : List Byte} (h : sofParse v s.params.outMax p = .ok f) :
    (s.acceptFrame f).frame.Ok s.params := by
  obtain ⟨-, h1, h2, h3, h4, h5, h6⟩ := sofParse_ok h
  refine ⟨h1, h2, h3, ?_, h6⟩
  intro j hj
  have hj3 : j < 3 := by have : j < f.nf := hj; omega
  have e : (s.acceptFrame f).frame.comp j = f.comps[j]'(by rw [h4]; exact hj) := by
    have hj' : j < f.nf := hj
    have hl : j < f.comps.length := by omega
    simp only [State.acceptFrame, FrameRegs.comp, getAt_tabulate, hj3, hj', if_true, List.getD_eq_getElem?_getD,
      List.getElem?_eq_getElem hl, Option.getD_some]
  rw [e]
  exact h5 _ (List.getElem_mem _)

theorem sof0_move {s : State} (h : s.phase = .parse .marker) (hc : s.cur + 1 < s.csr.inLen) :
    CoreMove s (segment 0xC0 (fun moff p segend s =>
      match sofParse s.frame.valid s.params.outMax p with
      | .error kind => s.raise kind moff 0xFFC0
      | .ok f => (s.acceptFrame f).skipTo segend) s) := by
  refine segment_move _ _ h hc (fun lh hs => ?_)
  simp only [State.pastMarker_fields]
  cases hp : sofParse s.frame.valid s.params.outMax (s.segPayload lh) with
  | error kind =>
    exact .failPlain (s.cur + 2) kind s.cur _ h (sofParse_kind hp) (by omega) (fun _ => by omega) (· (by decide))
  | ok f =>
    exact .frame (s.acceptFrame f).frame (s.cur + 2 + lh) h (by omega) hs.2.2.2 (sofParse_ok hp).1 rfl
      (acceptFrame_ok hp)

theorem sosComps_kind (f : FrameRegs) (n j : Nat) (p : List Byte) (kind : ErrKind)
    (h : sosComps f n j p = .error kind) : kind ≠ .none := by
  induction n generalizing j p with
  | zero => cases h
  | succ n ih =>
    rcases p with _ | ⟨c, _ | ⟨t, p⟩⟩
    · cases h; decide
    · cases h; decide
    · simp only [sosComps] at h
      split at h
      · cases h; decide
      · split at h
        · split at h
          · split at h
            · rename_i k hk; cases h; exact ih _ _ hk
            · cases h
          · cases h; decide
        · cases h; decide

theorem sosParse_kind {s : State} {p : List Byte} {kind : ErrKind} (h : sosParse s p = .error kind) :
    kind ≠ .none := by
  unfold sosParse at h
  dsimp only at h
  split at h
  · cases h; decide
  split at h
  · cases h; decide
  split at h
  · cases h; decide
  split at h
  · cases h; decide
  split at h
  · rename_i k hk; cases h; exact sosComps_kind _ _ _ _ _ hk
  split at h
  · cases h; decide
  split at h
  · cases h; decide
  split at h
  · cases h
  · cases h; decide

theorem sosParse_ok {s : State} {p : List Byte} {comps : List ScanComp} (h : sosParse s p = .ok comps) :
    s.frame.valid = true ∧ ∀ j, j < s.frame.nf → s.tablesPresent j (comps.getD j default) = true := by
  unfold sosParse at h
  dsimp only at h
  split at h
  · cases h
  rename_i hv
  split at h
  · cases h
  split at h
  · cases h
  split at h
  · cases h
  split at h
  · cases h
  split at h
  · cases h
  split at h
  · cases h
  split at h
  · rename_i ha
    cases h
    refine ⟨by simpa using hv, fun j hj => ?_⟩
    exact List.all_eq_true.1 ha j (List.mem_range.2 hj)
  · cases h

theorem sos_move {s : State} (h : s.phase = .parse .marker) (hc : s.cur + 1 < s.csr.inLen) :
    CoreMove s (segment 0xDA (fun moff p segend s =>
      match sosParse s p with
      | .error kind => s.raise kind moff 0xFFDA
      | .ok comps => s.acceptScan comps segend) s) := by
  refine segment_move _ _ h hc (fun lh hs => ?_)
  cases hp : sosParse s.pastMarker (s.segPayload lh) with
  | error kind =>
    exact .failPlain (s.cur + 2) kind s.cur _ h (sosParse_kind hp) (by omega) (fun _ => by omega) (· (by decide))
  | ok comps =>
    obtain ⟨h1, h2⟩ := sosParse_ok hp
    obtain ⟨b1, b2⟩ := s.pastMarker.scanEnd_bounds (s.cur + 2 + lh) hs.2.2.2
    refine .scan (s.pastMarker.acceptScan comps (s.cur + 2 + lh)).scan h h1 rfl
      (show s.cur < s.cur + 2 + lh by omega) b1 b2 ?_
    intro j hj hj3
    have := h2 j hj
    have e : (s.pastMarker.acceptScan comps (s.cur + 2 + lh)).scan.comp j = comps.getD j default := by
      have hj' : j < s.pastMarker.frame.nf := hj
      simp only [State.acceptScan, ScanRegs.comp, getAt_tabulate, hj3, hj', if_true]
    rw [e]
    exact this

/-! The items of the stream. -/

theorem decodeMarkerCode_format (c : Byte) : (decodeMarkerCode c).format = .marker := by
  revert c; decide

/-- Every marker, at every place of phase 1. -/
theorem marker_moves (i : Instr) (hi : i.format = .marker) {s : State} {pt : ParseAt} (h : s.phase = .parse pt)
    (hc : pt ≠ .soi → s.cur + 1 < s.csr.inLen) (hs : i = .soi → pt = .soi → 2 ≤ s.csr.inLen) :
    Moves s (exec i s) := by
  have hc1 : s.phase = .parse .marker → s.cur + 1 < s.csr.inLen := by
    intro h'; rw [h] at h'; cases h'; exact hc (by decide)
  have hc2 : s.phase = .parse .term → s.cur + 1 < s.csr.inLen := by
    intro h'; rw [h] at h'; cases h'; exact hc (by decide)
  have skip (code : Byte) : Moves s (atMarker (skipSegment code) (walkForSos code) s) :=
    atMarker_moves _ _ h (fun h' => skipSegment_move code h' (hc1 h')) (walkForSos_move code)
  have unsupported (code : Byte) : Moves s (atMarker (unsupportedSegment code) (walkForSos code) s) :=
    atMarker_moves _ _ h (fun h' => unsupportedSegment_move code h' (hc1 h')) (walkForSos_move code)
  have standAlone (code : Byte) (kind : ErrKind) (hk : kind ≠ .none) :
      Moves s (atMarker (failMarker .malformedContainer code) (failTerminator kind code) s) :=
    atMarker_moves _ _ h (fun h' => failMarker_move _ code h' (by decide) (hc1 h'))
      (fun h' => failTerminator_move kind code h' hk)
  cases i
  case stuff00 =>
    have e : exec .stuff00 s = atMarker (fun s => s.raise .malformedContainer s.cur 0xFF00)
        (failTerminator .malformedEntropyStream 0x00) s := by simp only [exec, execStuff00, h]
    rw [e]
    exact atMarker_moves _ _ h
      (fun h' => .failPlain s.cur _ s.cur _ h' (by decide) (le_refl _) id (· (by decide)))
      (fun h' => failTerminator_move _ _ h' (by decide))
  case tem =>
    exact atMarker_moves _ _ h
      (fun h' => .advance s.qt s.htDc s.htAc _ h' (by omega) (by have := hc1 h'; omega)) (walkForSos_move _)
  case fill =>
    exact atMarker_moves _ _ h
      (fun h' => .advance s.qt s.htDc s.htAc _ h' (by omega) (by have := hc1 h'; omega))
      (fun h' => .fill h' (hc2 h'))
  case soi =>
    cases pt with
    | soi => exact ⟨_, by simp only [exec, execSoi, h], .soi h (hs rfl rfl)⟩
    | marker =>
      have e : exec .soi s = atMarker (failMarker .malformedContainer 0xD8)
          (failTerminator .malformedEntropyStream 0xD8) s := by simp only [exec, execSoi, h]
      rw [e]; exact standAlone _ _ (by decide)
    | term =>
      have e : exec .soi s = atMarker (failMarker .malformedContainer 0xD8)
          (failTerminator .malformedEntropyStream 0xD8) s := by simp only [exec, execSoi, h]
      rw [e]; exact standAlone _ _ (by decide)
  case eoi =>
    exact atMarker_moves _ _ h (fun h' => failMarker_move _ _ h' (by decide) (hc1 h')) (fun h' => .endPhase1 h')
  case rstm m => exact standAlone _ _ (by decide)
  case dqt =>
    exact atMarker_moves _ _ h (fun h' => tables_move _ dqtDefs dqtDefs_tablesOnly h' (hc1 h')) (walkForSos_move _)
  case dht =>
    exact atMarker_moves _ _ h (fun h' => tables_move _ dhtDefs dhtDefs_tablesOnly h' (hc1 h')) (walkForSos_move _)
  case sof0 => exact atMarker_moves _ _ h (fun h' => sof0_move h' (hc1 h')) (walkForSos_move _)
  case sos =>
    exact atMarker_moves _ _ h (fun h' => sos_move h' (hc1 h')) (fun h' => failTerminator_move _ _ h' (by decide))
  all_goals first | exact skip _ | exact unsupported _ | cases hi

/-- The word `0xFF, code`, or a word that is no marker and fails at `off`. -/
theorem markerAt_cases (s : State) (a b : Byte) (off : Nat) :
    s.markerAt (a ++ b) off = .item (decodeMarkerCode b) s ∧ a = 0xFF ∨
    s.markerAt (a ++ b) off = .plain (s.raise .malformedContainer off 0x0000) := by
  have e1 : (a ++ b).extractLsb' 8 8 = a := by
    apply BitVec.eq_of_toNat_eq
    simp only [BitVec.extractLsb'_toNat, BitVec.toNat_append, Nat.shiftLeft_eq, Nat.shiftRight_eq_div_pow]
    have := a.isLt; have := b.isLt
    rw [Nat.mul_comm, ← Nat.two_pow_add_eq_or_of_lt b.isLt]
    omega
  have e2 : (a ++ b).setWidth 8 = b := by
    apply BitVec.eq_of_toNat_eq
    simp only [BitVec.toNat_setWidth, BitVec.toNat_append, Nat.shiftLeft_eq]
    have := a.isLt; have := b.isLt
    rw [Nat.mul_comm, ← Nat.two_pow_add_eq_or_of_lt b.isLt]
    omega
  simp only [State.markerAt, decodeMarker, e1, e2]
  by_cases h : a = 0xFF
  · exact .inl ⟨by rw [if_pos h], h⟩
  · exact .inr (by rw [if_neg h])

/-! Symbols. -/

theorem withRaw_move {s u : State} {zz : Vector Int 64} {b : BitReader} (n : Nat) (f : Nat → State → State)
    (hp : s.phase = .decode .dc ∨ s.phase = .decode .ac) (hb : BitReader.Onward s.scan.stop s.br b)
    (hu : u = { s with br := b, zz := zz })
    (hf : ∀ v b', BitReader.Onward s.scan.stop s.br b' → CoreMove s (f v { s with br := b', zz := zz })) :
    CoreMove s (u.withRaw n f) := by
  subst hu
  simp only [State.withRaw]
  cases hr : b.readBits (State.inByte { s with br := b, zz := zz }) s.scan.stop n with
  | fail b' =>
    refine .failScan b' zz _ hp (hb.trans ?_) (.inl rfl)
    intro h1 h2
    exact (BitReader.readBits_bounds h1 h2).2 b' hr
  | ok v b' =>
    refine hf v b' (hb.trans ?_)
    intro h1 h2
    exact (BitReader.readBits_bounds h1 h2).1 v b' hr

theorem dcSymbol_moves (sym : Byte) {s : State} {b : BitReader} (h : s.phase = .decode .dc)
    (hb : BitReader.Onward s.scan.stop s.br b) :
    Moves s (exec (decodeDcSym sym) { s.clearZz with br := b }) := by
  have h' : State.phase { s.clearZz with br := b } = .decode .dc := h
  unfold decodeDcSym
  split
  · exact ⟨_, atDc_dc (State.setDc 0) h', .dc b _ _ h hb⟩
  · split
    · refine ⟨_, atDc_dc (fun s => s.clearZz.withRaw (sym.setWidth 4).toNat
          (fun v s => s.setDc (extend v (sym.setWidth 4).toNat))) h', withRaw_move (zz := Vector.replicate 64 0) _ _ (.inl h) hb rfl (fun v b' hb' => ?_)⟩
      exact .dc b' _ _ h hb'
    · exact ⟨_, atDc_dc (fun s => s.clearZz.failScan .corruptBlock) h',
        .failScan b (Vector.replicate 64 0) _ (.inl h) hb (.inr rfl)⟩

theorem acCoef_move (run size : Nat) {s : State} {b : BitReader} (h : s.phase = .decode .ac)
    (hb : BitReader.Onward s.scan.stop s.br b) : CoreMove s (State.acCoef run size { s with br := b }) := by
  unfold State.acCoef
  dsimp only
  split
  · exact .failScan b s.zz _ (.inr h) hb (.inr rfl)
  · exact withRaw_move (zz := s.zz) _ _ (.inr h) hb rfl
      (fun v b' hb' => .ac b' _ _ h hb' (by omega) (by omega))

theorem acSymbol_moves (sym : Byte) {s : State} {b : BitReader} (h : s.phase = .decode .ac)
    (hb : BitReader.Onward s.scan.stop s.br b) :
    Moves s (exec (decodeAcSym sym) { s with br := b }) := by
  have h' : State.phase { s with br := b } = .decode .ac := h
  unfold decodeAcSym
  dsimp only
  split
  · exact ⟨_, atAc_ac (fun s => { s with phase := .decode .blockDone }) h', .eob b h hb⟩
  · split
    · refine ⟨_, atAc_ac
        (fun s => if 64 < s.blk.k + 16 then s.failScan .corruptBlock else s.acAt (s.blk.k + 16)) h', ?_⟩
      dsimp only
      split
      · exact .failScan b s.zz _ (.inr h) hb (.inr rfl)
      · exact .ac b s.zz _ h hb (by omega) (by omega)
    · split
      · exact ⟨_, atAc_ac (State.acCoef _ 0) h', acCoef_move _ _ h hb⟩
      · exact ⟨_, atAc_ac (State.acCoef _ _) h', acCoef_move _ _ h hb⟩

/-- One step of the core, from any state: it goes on, by a move. -/
theorem coreStep_move (s : State) : Moves s (coreStep s) := by
  have item {i : Instr} {s' : State} (h : s.fetch = .item i s') : coreStep s = exec i s' := by
    unfold coreStep; rw [h]
  have plain {s' : State} (h : s.fetch = .plain s') : coreStep s = .next s' := by
    unfold coreStep; rw [h]
  have fp : s.fetch = s.fetch := rfl
  conv_rhs at fp => unfold State.fetch
  cases hp : s.phase with
  | idle => rw [hp] at fp; exact ⟨_, plain fp, .idle hp⟩
  | parse pt =>
    rw [hp] at fp
    cases pt with
    | soi =>
      dsimp only at fp
      unfold State.fetchSoi at fp
      by_cases h2 : s.csr.inLen < 2
      · rw [if_pos h2] at fp
        exact ⟨_, plain fp,
          .failPlain s.cur _ 0 _ hp (by decide) (le_refl _) id (fun _ => Nat.zero_le _)⟩
      · rw [if_neg h2] at fp
        rcases markerAt_cases s (s.inByte 0) (s.inByte 1) 0 with ⟨e, -⟩ | e <;> rw [e] at fp
        · rw [item fp]
          exact marker_moves _ (decodeMarkerCode_format _) hp (fun h => absurd rfl h) (fun _ _ => by omega)
        · exact ⟨_, plain fp,
            .failPlain s.cur _ 0 _ hp (by decide) (le_refl _) id (fun _ => Nat.zero_le _)⟩
    | marker =>
      dsimp only at fp
      unfold State.fetchMarker at fp
      split at fp
      · exact ⟨_, plain fp, .failPlain s.cur _ _ _ hp (by decide) (le_refl _) id (fun _ => le_refl _)⟩
      · split at fp
        · exact ⟨_, plain fp, .failPlain s.cur _ _ _ hp (by decide) (le_refl _) id (· (by decide))⟩
        · rcases markerAt_cases s (s.inByte s.cur) (s.inByte (s.cur + 1)) s.cur with ⟨e, -⟩ | e <;> rw [e] at fp
          · rw [item fp]
            exact marker_moves _ (decodeMarkerCode_format _) hp (fun _ => by omega) (fun _ h => by cases h)
          · exact ⟨_, plain fp, .failPlain s.cur _ _ _ hp (by decide) (le_refl _) id (· (by decide))⟩
    | term =>
      dsimp only at fp
      unfold State.fetchTerminator at fp
      split at fp
      · exact ⟨_, plain fp, .endPhase1 hp⟩
      · split at fp
        · exact ⟨_, plain fp, .failPlain s.cur _ _ _ hp (by decide) (le_refl _) id (· (by decide))⟩
        · rcases markerAt_cases s 0xFF#8 (s.inByte (s.cur + 1)) s.cur with ⟨e, -⟩ | e <;> rw [e] at fp
          · rw [item fp]
            exact marker_moves _ (decodeMarkerCode_format _) hp (fun _ => by omega) (fun _ h => by cases h)
          · exact ⟨_, plain fp, .failPlain s.cur _ _ _ hp (by decide) (le_refl _) id (· (by decide))⟩
  | decode d =>
    rw [hp] at fp
    cases d with
    | start => exact ⟨_, plain fp, .phase2Start hp⟩
    | dc =>
      dsimp only at fp
      unfold State.fetchSymbol at fp
      split at fp
      · rename_i br hr
        refine ⟨_, plain fp, .failScan br (Vector.replicate 64 0) _ (.inl hp) ?_ (.inl rfl)⟩
        exact fun h1 h2 => (HuffTable.decodeFrom_bounds _ _ _ _ _ _ h1 h2).2 br hr
      · rename_i sym br hr
        rw [item fp]
        exact dcSymbol_moves sym hp (fun h1 h2 => (HuffTable.decodeFrom_bounds _ _ _ _ _ _ h1 h2).1 sym br hr)
    | ac =>
      dsimp only at fp
      unfold State.fetchSymbol at fp
      split at fp
      · rename_i br hr
        refine ⟨_, plain fp, .failScan br s.zz _ (.inr hp) ?_ (.inl rfl)⟩
        exact fun h1 h2 => (HuffTable.decodeFrom_bounds _ _ _ _ _ _ h1 h2).2 br hr
      · rename_i sym br hr
        rw [item fp]
        exact acSymbol_moves sym hp (fun h1 h2 => (HuffTable.decodeFrom_bounds _ _ _ _ _ _ h1 h2).1 sym br hr)
    | blockDone => exact ⟨_, plain fp, .blockDone hp⟩
    | mcuDone => exact ⟨_, plain fp, .mcuDone hp⟩
    | finish => exact ⟨_, plain fp, .finish hp⟩

/-- A step of the core, taken apart. -/
theorem coreStep_cases {s t : State} (h : coreStep s = .next t) : CoreMove s t := by
  obtain ⟨u, e, m⟩ := coreStep_move s
  rw [h] at e
  cases e
  exact m

end Sys2Proof.Machine
end

