-- ==== Sys2Proof/Laws/HostMoves.lean ====
section
/-! SUPPORT. Everything an event of the host can do (`hostStep_move`), and a step of the machine taken apart into a
core move or a host move (`step_cases`). -/

namespace Sys2Proof.Machine

/-- What the host's event `e` can do to `s`. -/
inductive HostMove (e : HostEvent) (s : State) : State → Prop where
  | read (rdata : Word) (freeIdx : Nat) : HostMove e s { s with rdata := rdata, freeIdx := freeIdx }
  | irqEn (b : Bool) : HostMove e s { s with csr := { s.csr with irqEn := b } }
  | start (r : HostReq) (v : Word) : e = .access r →
      decodeHost s.params r.addr r.acc = .csrCtrl 0 ⟨.four, .write, v⟩ → v.getLsbD 0 = true → s.busy = false →
      HostMove e s (State.startDecode { s with csr := { s.csr with irqEn := v.getLsbD 1 } })
  | ack (r : HostReq) (v : Word) : e = .access r →
      decodeHost s.params r.addr r.acc = .csrStatus 0 ⟨.four, .write, v⟩ →
      HostMove e s { s with csr := s.csr.ackStatus v }
  | inLen (n : Nat) : s.busy = false → n ≤ s.params.inMax → HostMove e s { s with csr := { s.csr with inLen := n } }
  | inBuf (cells : List Host.Cell) : s.busy = false → (s.params.legal → ∀ c ∈ cells, c.1 < s.params.inMax) →
      HostMove e s { s with inBuf := s.inBuf.writes cells }
  | outBuf (cells : List Host.Cell) : s.busy = false → (s.params.legal → ∀ c ∈ cells, c.1 < s.params.outMax) →
      HostMove e s { s with outBuf := s.outBuf.writes cells }
  | reset : e = .reset → HostMove e s s.hardReset

/-- The outcome is a next state reached by a host move. -/
abbrev HostMoves (e : HostEvent) (s : State) (o : Host.Outcome State Fault Refusal) : Prop :=
  ∃ t, o = .next t ∧ HostMove e s t

theorem ignoredAccess_move (e : HostEvent) (s : State) (a : Access) : HostMove e s (ignoredAccess a s) := by
  unfold ignoredAccess
  cases a.dir with
  | read => exact .read 0 s.freeIdx
  | write => exact .read s.rdata s.freeIdx

/-- A CSR access moves as its write does. -/
theorem csrAccess_move (e : HostEvent) (s : State) (lane : BitVec 2) (a : Access) (rd : Word) (wr : State → State)
    (h : lane = 0 → a = ⟨.four, .write, a.data⟩ → HostMove e s (wr s)) : HostMove e s (csrAccess lane a rd wr s) := by
  unfold csrAccess
  split
  · rename_i hf
    cases hd : a.dir with
    | read => exact .read rd s.freeIdx
    | write =>
      refine h hf.2 ?_
      rcases a with ⟨w, d, v⟩
      obtain ⟨h1, h2⟩ := hf
      simp only at h1 hd
      rw [h1, hd]
  · exact ignoredAccess_move e s a

theorem readOnlyCsr_move (e : HostEvent) (s : State) (lane : BitVec 2) (a : Access) (rd : Word) :
    HostMove e s (readOnlyCsr lane a rd s) :=
  csrAccess_move e s lane a rd id (fun _ _ => .read s.rdata s.freeIdx)

/-- The bytes a buffer write stores lie inside a buffer whose size is a multiple of 4. -/
theorem storedBytes_lt {i n : Nat} {a : Access} (hi : i < n) (hn : n % 4 = 0) :
    ∀ c ∈ storedBytes i a, c.1 < n := by
  intro c hc
  unfold storedBytes at hc
  split at hc
  · simp only [List.mem_singleton] at hc; rw [hc]; exact hi
  · split at hc
    · rename_i hw
      simp only [List.mem_map, List.mem_range] at hc
      obtain ⟨k, hk, rfl⟩ := hc
      have := hw.2
      show i + k < n
      omega
    · cases hc

theorem inMax_of_legal {p : Params} (h : p.legal) : p.inMax % 4 = 0 ∧ p.inMax ≤ 2 ^ 24 := by
  refine ⟨?_, Nat.pow_le_pow_right (by decide) h.2.1⟩
  obtain ⟨k, hk⟩ := Nat.exists_eq_add_of_le h.1
  unfold Params.inMax
  rw [hk, Nat.pow_add, Nat.mul_mod]
  norm_num

theorem outMax_of_legal {p : Params} (h : p.legal) : p.outMax % 4 = 0 ∧ p.outMax ≤ 2 ^ 24 := by
  refine ⟨?_, Nat.pow_le_pow_right (by decide) h.2.2.2⟩
  obtain ⟨k, hk⟩ := Nat.exists_eq_add_of_le h.2.2.1
  unfold Params.outMax
  rw [hk, Nat.pow_add, Nat.mul_mod]
  norm_num

theorem sub_base_lt {addr base : Word} {n : Nat} (h1 : base.toNat ≤ addr.toNat) (h2 : addr.toNat < base.toNat + n)
    (hn : n ≤ 2 ^ 24) : ((addr - base).setWidth 24).toNat < n := by
  rw [BitVec.toNat_setWidth, BitVec.toNat_sub_of_le (by simpa [BitVec.le_def] using h1)]
  rw [Nat.mod_eq_of_lt (by omega)]
  omega

theorem execInbuf_moves (e : HostEvent) (s : State) (i : BitVec 24) (a : Access)
    (hi : s.params.legal → i.toNat < s.params.inMax) : HostMoves e s (execInbuf i a s) := by
  unfold execInbuf
  cases a.dir with
  | read => exact ⟨_, rfl, .read _ s.freeIdx⟩
  | write =>
    refine ⟨_, rfl, ?_⟩
    cases hb : s.busy with
    | true => exact .read s.rdata s.freeIdx
    | false => exact .inBuf _ hb (fun hp => storedBytes_lt (hi hp) (inMax_of_legal hp).1)

theorem execOutbuf_moves (e : HostEvent) (s : State) (i : BitVec 24) (a : Access)
    (hi : s.params.legal → i.toNat < s.params.outMax) : HostMoves e s (execOutbuf i a s) := by
  unfold execOutbuf
  cases a.dir with
  | read => exact ⟨_, rfl, .read _ _⟩
  | write =>
    refine ⟨_, rfl, ?_⟩
    cases hb : s.busy with
    | true => exact .read s.rdata s.freeIdx
    | false => exact .outBuf _ hb (fun hp => storedBytes_lt (hi hp) (outMax_of_legal hp).1)

theorem csrCtrl_moves (r : HostReq) (s : State) (lane : BitVec 2)
    (h : decodeHost s.params r.addr r.acc = .csrCtrl lane r.acc) :
    HostMoves (.access r) s (execCsrCtrl lane r.acc s) := by
  refine ⟨_, rfl, csrAccess_move _ s lane r.acc _ _ (fun hl ha => ?_)⟩
  unfold State.writeCtrl
  dsimp only
  split
  · rename_i hv
    exact .start r r.acc.data rfl (by rw [h, hl, ← ha]) hv.1 hv.2
  · exact .irqEn _

theorem csrStatus_moves (r : HostReq) (s : State) (lane : BitVec 2)
    (h : decodeHost s.params r.addr r.acc = .csrStatus lane r.acc) :
    HostMoves (.access r) s (execCsrStatus lane r.acc s) :=
  ⟨_, rfl, csrAccess_move _ s lane r.acc _ _ (fun hl ha => .ack r r.acc.data rfl (by rw [h, hl, ← ha]))⟩

theorem csrInLen_moves (e : HostEvent) (s : State) (lane : BitVec 2) (a : Access) :
    HostMoves e s (execCsrInLen lane a s) := by
  refine ⟨_, rfl, csrAccess_move _ s lane a _ _ (fun _ _ => ?_)⟩
  unfold State.writeInLen
  cases hb : s.busy with
  | true => exact .read s.rdata s.freeIdx
  | false => exact .inLen _ hb (Nat.min_le_right _ _)

/-- One event of the host, in any state: the machine goes on, by a move. -/
theorem hostStep_move (e : HostEvent) (s : State) : HostMoves e s (hostStep e s) := by
  cases e with
  | reset => exact ⟨_, rfl, .reset rfl⟩
  | access r =>
    unfold hostStep
    dsimp only
    obtain ⟨i, hi⟩ : ∃ i, decodeHost s.params r.addr r.acc = i := ⟨_, rfl⟩
    have hd := hi
    rw [hi]
    unfold decodeHost at hd
    split at hd
    · unfold decodeCsr at hd
      dsimp only at hd
      split at hd <;> subst hd
      case h_2 => exact csrCtrl_moves r s _ hi
      case h_3 => exact csrStatus_moves r s _ hi
      case h_4 => exact csrInLen_moves _ s _ _
      case h_11 => exact ⟨_, rfl, ignoredAccess_move _ s _⟩
      all_goals exact ⟨_, rfl, readOnlyCsr_move _ s _ _ _⟩
    · split at hd
      · rename_i hw
        subst hd
        exact execInbuf_moves _ s _ _ (fun hp => sub_base_lt hw.1 hw.2 (inMax_of_legal hp).2)
      · split at hd
        · rename_i hw
          subst hd
          exact execOutbuf_moves _ s _ _ (fun hp => sub_base_lt hw.1 hw.2 (outMax_of_legal hp).2)
        · subst hd
          exact ⟨_, rfl, ignoredAccess_move _ s _⟩

/-- A step of the machine, taken apart: the core moves, over a queue that has counted down, or the host's first event
takes effect. -/
theorem step_cases {s t : State} (h : step s = .next t) :
    (∃ q, (∀ e rest, s.host ≠ ⟨0, e⟩ :: rest) ∧ (s.host = [] → q = []) ∧ CoreMove { s with host := q } t) ∨
    (∃ e rest, s.host = ⟨0, e⟩ :: rest ∧ HostMove e { s with host := rest } t) := by
  unfold step at h
  split at h
  · rename_i hh
    refine .inl ⟨[], fun e rest => by rw [hh]; simp, fun _ => rfl, ?_⟩
    have := coreStep_cases h
    have e : { s with host := [] } = s := by rw [← hh]
    rw [e]; exact this
  · rename_i e rest hh
    obtain ⟨u, hu, m⟩ := hostStep_move e { s with host := rest }
    rw [h] at hu
    cases hu
    exact .inr ⟨e, rest, hh, m⟩
  · rename_i n e rest hh
    exact .inl ⟨⟨n, e⟩ :: rest, fun e rest => by rw [hh]; simp, fun h' => by rw [hh] at h'; simp at h',
      coreStep_cases h⟩

end Sys2Proof.Machine
end

