-- ==== Sys2Proof/Laws/PerInstr.lean ====
section
/-! SUPPORT. The family EncodedLength: how many bytes an item's encoding has, per constructor (spec 30 R70). -/

namespace Sys2Proof.Laws.EncodedLength

/-- A marker is two bytes, a symbol one (30 R71, R82, R83); a host access is nine in the model's layout (log 14). -/
def Statement (i : Instr) : Prop :=
  (encode i).length = match i.format with
    | .marker => 2
    | .dcsym => 1
    | .acsym => 1
    | .hostacc => 9

theorem stuff00 : Statement .stuff00 := rfl
theorem tem : Statement .tem := rfl
theorem res (code : BitVec 8) : Statement (.res code) := rfl
theorem sof0 : Statement .sof0 := rfl
theorem sof1 : Statement .sof1 := rfl
theorem sof2 : Statement .sof2 := rfl
theorem sof3 : Statement .sof3 := rfl
theorem dht : Statement .dht := rfl
theorem sof5 : Statement .sof5 := rfl
theorem sof6 : Statement .sof6 := rfl
theorem sof7 : Statement .sof7 := rfl
theorem jpg : Statement .jpg := rfl
theorem sof9 : Statement .sof9 := rfl
theorem sof10 : Statement .sof10 := rfl
theorem sof11 : Statement .sof11 := rfl
theorem dac : Statement .dac := rfl
theorem sof13 : Statement .sof13 := rfl
theorem sof14 : Statement .sof14 := rfl
theorem sof15 : Statement .sof15 := rfl
theorem rstm (m : BitVec 3) : Statement (.rstm m) := rfl
theorem soi : Statement .soi := rfl
theorem eoi : Statement .eoi := rfl
theorem sos : Statement .sos := rfl
theorem dqt : Statement .dqt := rfl
theorem dnl : Statement .dnl := rfl
theorem dri : Statement .dri := rfl
theorem dhp : Statement .dhp := rfl
theorem exp : Statement .exp := rfl
theorem appn (n : BitVec 4) : Statement (.appn n) := rfl
theorem jpgn (n : BitVec 4) : Statement (.jpgn n) := rfl
theorem com : Statement .com := rfl
theorem fill : Statement .fill := rfl
theorem dcZero : Statement .dcZero := rfl
theorem dcDiff (size : BitVec 4) : Statement (.dcDiff size) := rfl
theorem dcBad (sym : BitVec 8) : Statement (.dcBad sym) := rfl
theorem eob : Statement .eob := rfl
theorem zrl : Statement .zrl := rfl
theorem acR0 (run : BitVec 4) : Statement (.acR0 run) := rfl
theorem acRs (run size : BitVec 4) : Statement (.acRs run size) := rfl
theorem csrId (lane : BitVec 2) (a : Access) : Statement (.csrId lane a) := rfl
theorem csrCtrl (lane : BitVec 2) (a : Access) : Statement (.csrCtrl lane a) := rfl
theorem csrStatus (lane : BitVec 2) (a : Access) : Statement (.csrStatus lane a) := rfl
theorem csrInLen (lane : BitVec 2) (a : Access) : Statement (.csrInLen lane a) := rfl
theorem csrErrOffset (lane : BitVec 2) (a : Access) : Statement (.csrErrOffset lane a) := rfl
theorem csrErrMarker (lane : BitVec 2) (a : Access) : Statement (.csrErrMarker lane a) := rfl
theorem csrImgWidth (lane : BitVec 2) (a : Access) : Statement (.csrImgWidth lane a) := rfl
theorem csrImgHeight (lane : BitVec 2) (a : Access) : Statement (.csrImgHeight lane a) := rfl
theorem csrImgChannels (lane : BitVec 2) (a : Access) : Statement (.csrImgChannels lane a) := rfl
theorem csrOutLen (lane : BitVec 2) (a : Access) : Statement (.csrOutLen lane a) := rfl
theorem csrRsvd (offset : BitVec 12) (a : Access) : Statement (.csrRsvd offset a) := rfl
theorem inbuf (i : BitVec 24) (a : Access) : Statement (.inbuf i a) := rfl
theorem outbuf (i : BitVec 24) (a : Access) : Statement (.outbuf i a) := rfl
theorem unmapped (addr : BitVec 32) (a : Access) : Statement (.unmapped addr a) := rfl

end Sys2Proof.Laws.EncodedLength
end

