-- ==== Sys2Proof/Laws/Pipeline.lean ====
section
/-! SUPPORT. The MCU geometry of a frame (spec 10 R40, 43 R157) and the cells an MCU writes (45 R180, R181). -/

namespace Sys2Proof.Machine

theorem maxOver_le (nf : Nat) (f : Nat → Nat) (b : Nat) (h : ∀ j, j < nf → f j ≤ b) : maxOver nf f ≤ b := by
  unfold maxOver
  have : ∀ (l : List Nat) (a : Nat), a ≤ b → (∀ j ∈ l, f j ≤ b) → l.foldl (fun m j => max m (f j)) a ≤ b := by
    intro l
    induction l with
    | nil => intro a ha _; exact ha
    | cons x xs ih =>
      intro a ha hx
      exact ih _ (Nat.max_le.2 ⟨ha, hx x (by simp)⟩) (fun j hj => hx j (by simp [hj]))
  exact this _ _ (Nat.zero_le _) (fun j hj => h j (List.mem_range.1 hj))

theorem le_maxOver (nf : Nat) (f : Nat → Nat) (j : Nat) (h : j < nf) : f j ≤ maxOver nf f := by
  unfold maxOver
  have mono : ∀ (l : List Nat) (a : Nat), a ≤ l.foldl (fun m j => max m (f j)) a := by
    intro l
    induction l with
    | nil => intro a; exact le_refl _
    | cons x xs ih => intro a; exact le_trans (Nat.le_max_left _ _) (ih _)
  have : ∀ (l : List Nat) (a : Nat), j ∈ l → f j ≤ l.foldl (fun m j => max m (f j)) a := by
    intro l
    induction l with
    | nil => intro a hj; simp at hj
    | cons x xs ih =>
      intro a hj
      rcases List.mem_cons.1 hj with rfl | hj
      · exact le_trans (Nat.le_max_right _ _) (mono xs _)
      · exact ih _ hj
  exact this _ _ (List.mem_range.2 h)

theorem maxOver_eq (nf : Nat) (f : Nat → Nat) (h : 0 < nf) (hf : ∀ j, j < nf → 1 ≤ f j) :
    ∃ j, j < nf ∧ f j = maxOver nf f := by
  unfold maxOver
  have : ∀ (l : List Nat) (a : Nat), l.foldl (fun m j => max m (f j)) a = a ∨
      ∃ j ∈ l, f j = l.foldl (fun m j => max m (f j)) a := by
    intro l
    induction l with
    | nil => intro a; exact .inl rfl
    | cons x xs ih =>
      intro a
      simp only [List.foldl_cons]
      rcases ih (max a (f x)) with e | ⟨j, hj, e⟩
      · rw [e]
        rcases Nat.le_total a (f x) with c | c
        · exact .inr ⟨x, by simp, by rw [Nat.max_eq_right c]⟩
        · exact .inl (Nat.max_eq_left c)
      · exact .inr ⟨j, by simp [hj], e⟩
  rcases this (List.range nf) 0 with e | ⟨j, hj, e⟩
  · have h1 := le_maxOver nf f 0 h
    have h2 := hf 0 h
    unfold maxOver at h1
    omega
  · exact ⟨j, List.mem_range.1 hj, e⟩

theorem ceilDiv_bounds (a b : Nat) (ha : 1 ≤ a) (hb : 1 ≤ b) :
    b * (ceilDiv a b - 1) < a ∧ a ≤ b * ceilDiv a b ∧ 1 ≤ ceilDiv a b := by
  unfold ceilDiv
  have h1 := Nat.div_add_mod (a + b - 1) b
  have h2 := Nat.mod_lt (a + b - 1) (show b > 0 by omega)
  have h3 : 1 ≤ (a + b - 1) / b := by
    rw [Nat.le_div_iff_mul_le (by omega)]; omega
  refine ⟨?_, by omega, h3⟩
  rw [Nat.mul_sub, Nat.mul_one]
  omega

/-- The geometry of an accepted frame: factors 1 or 2, and MCU counts that just cover the image. -/
theorem FrameRegs.Ok.geometry {f : FrameRegs} {p : Params} (h : f.Ok p) :
    1 ≤ f.mcuRegs.hmax ∧ f.mcuRegs.hmax ≤ 2 ∧ 1 ≤ f.mcuRegs.vmax ∧ f.mcuRegs.vmax ≤ 2 ∧
    1 ≤ f.mcuRegs.mcux ∧ 1 ≤ f.mcuRegs.mcuy ∧
    8 * f.mcuRegs.hmax * (f.mcuRegs.mcux - 1) < f.x.toNat ∧ f.x.toNat ≤ 8 * f.mcuRegs.hmax * f.mcuRegs.mcux ∧
    8 * f.mcuRegs.vmax * (f.mcuRegs.mcuy - 1) < f.y.toNat ∧ f.y.toNat ≤ 8 * f.mcuRegs.vmax * f.mcuRegs.mcuy := by
  have hnf : 0 < f.nf := by have := h.nf; omega
  have a1 : 1 ≤ f.mcuRegs.hmax := le_trans (h.comps 0 hnf).1 (le_maxOver _ (fun j => (f.comp j).h) 0 hnf)
  have a2 : f.mcuRegs.hmax ≤ 2 := maxOver_le _ _ _ (fun j hj => (h.comps j hj).2.1)
  have a3 : 1 ≤ f.mcuRegs.vmax := le_trans (h.comps 0 hnf).2.2.1 (le_maxOver _ (fun j => (f.comp j).v) 0 hnf)
  have a4 : f.mcuRegs.vmax ≤ 2 := maxOver_le _ _ _ (fun j hj => (h.comps j hj).2.2.2)
  have b1 := ceilDiv_bounds f.x.toNat (8 * f.mcuRegs.hmax) h.x (by omega)
  have b2 := ceilDiv_bounds f.y.toNat (8 * f.mcuRegs.vmax) h.y (by omega)
  exact ⟨a1, a2, a3, a4, b1.2.2, b2.2.2, b1.1, b1.2.1, b2.1, b2.2.1⟩

/-! The cells of an MCU. -/

theorem State.mem_mcuCells (s : State) (c : Host.Cell) :
    c ∈ s.mcuCells ↔ ∃ py, py < 8 * s.mcu.vmax ∧ ∃ px, px < 8 * s.mcu.hmax ∧ c ∈ s.pixelCells py px := by
  simp only [State.mcuCells, List.mem_flatMap, List.mem_range]

theorem State.mem_pixelCells (s : State) (py px : Nat) (c : Host.Cell) :
    c ∈ s.pixelCells py px ↔
      s.pixelCol px < s.frame.x.toNat ∧ s.pixelRow py < s.frame.y.toNat ∧
      ∃ ch, ∃ h : ch < (s.pixel px py).length,
        c = ((s.pixelRow py * s.frame.x.toNat + s.pixelCol px) * s.frame.nf + ch, (s.pixel px py)[ch]) := by
  unfold State.pixelCells
  simp only [State.pixelCol, State.pixelRow, FrameRegs.rasterIndex]
  split
  · rename_i h
    simp only [List.mem_mapIdx, h.1, h.2, true_and]
    constructor
    · rintro ⟨i, hi, e⟩; exact ⟨i, hi, e.symm⟩
    · rintro ⟨i, hi, e⟩; exact ⟨i, hi, e.symm⟩
  · rename_i h
    simp only [List.not_mem_nil, false_iff]
    rintro ⟨a, b, -⟩
    exact h ⟨a, b⟩

theorem State.pixel_length (s : State) (px py : Nat) (h : s.frame.nf = 1 ∨ s.frame.nf = 3) :
    (s.pixel px py).length = s.frame.nf := by
  unfold State.pixel
  rcases h with h | h
  · rw [h]; rfl
  · rw [h]; rfl

/-- A raster index determines its pixel and channel. -/
theorem raster_injective {w nf x y ch x' y' ch' : Nat} (hx : x < w) (hx' : x' < w) (hc : ch < nf) (hc' : ch' < nf)
    (h : (y * w + x) * nf + ch = (y' * w + x') * nf + ch') : x = x' ∧ y = y' ∧ ch = ch' := by
  have e1 : ch = ch' := by
    have := congrArg (· % nf) h
    simpa [Nat.mul_comm _ nf, Nat.mul_add_mod, Nat.mod_eq_of_lt hc, Nat.mod_eq_of_lt hc'] using this
  subst e1
  have e2 : y * w + x = y' * w + x' :=
    Nat.eq_of_mul_eq_mul_right (by omega : 0 < nf) (by omega : (y * w + x) * nf = (y' * w + x') * nf)
  have e3 : x = x' := by
    have := congrArg (· % w) e2
    simpa [Nat.mul_comm _ w, Nat.mul_add_mod, Nat.mod_eq_of_lt hx, Nat.mod_eq_of_lt hx'] using this
  subst e3
  exact ⟨rfl, Nat.eq_of_mul_eq_mul_right (by omega : 0 < w) (by omega : y * w = y' * w), rfl⟩

/-- Every cell an MCU writes lies below `X * Y * Nf` (45 R181). -/
theorem State.mcuCells_bound (s : State) (h : s.frame.nf = 1 ∨ s.frame.nf = 3) (c : Host.Cell) (hc : c ∈ s.mcuCells) :
    c.1 < s.frame.x.toNat * s.frame.y.toNat * s.frame.nf := by
  obtain ⟨py, -, px, -, hm⟩ := (s.mem_mcuCells c).1 hc
  obtain ⟨h1, h2, ch, hch, rfl⟩ := (s.mem_pixelCells py px c).1 hm
  rw [s.pixel_length px py h] at hch
  generalize s.pixelRow py = y at *
  generalize s.pixelCol px = x at *
  show (y * s.frame.x.toNat + x) * s.frame.nf + ch < _
  calc (y * s.frame.x.toNat + x) * s.frame.nf + ch
      < (y * s.frame.x.toNat + x + 1) * s.frame.nf := by rw [Nat.succ_mul]; omega
    _ ≤ (s.frame.x.toNat * s.frame.y.toNat) * s.frame.nf := by
        apply Nat.mul_le_mul_right
        have : (y + 1) * s.frame.x.toNat ≤ s.frame.y.toNat * s.frame.x.toNat := Nat.mul_le_mul_right _ h2
        rw [Nat.succ_mul] at this
        rw [Nat.mul_comm s.frame.x.toNat]
        omega

end Sys2Proof.Machine
end

