-- ==== Sys2Proof/Laws/Step.lean ====
section
/-! SUPPORT. What the sequencer fetches at each place, and what a step with no host event due is (spec 70 R240; logs 1,
2). -/

namespace Sys2Proof.Machine

theorem State.busy_eq_true (s : State) : s.busy = true ↔ s.phase ≠ .idle := by simp [State.busy]

theorem State.busy_eq_false (s : State) : s.busy = false ↔ s.phase = .idle := by simp [State.busy]

theorem step_of_host_nil {s : State} (h : s.host = []) : step s = coreStep s := by simp [step, h]

theorem coreStep_of_item {s s' : State} {i : Instr} (h : s.fetch = .item i s') : coreStep s = exec i s' := by
  unfold coreStep; rw [h]

theorem coreStep_of_plain {s s' : State} (h : s.fetch = .plain s') : coreStep s = .next s' := by
  unfold coreStep; rw [h]

theorem fetch_idle {s : State} (h : s.phase = .idle) : s.fetch = .plain s := by
  unfold State.fetch; rw [h]

theorem fetch_soi {s : State} (h : s.phase = .parse .soi) : s.fetch = s.fetchSoi := by
  unfold State.fetch; rw [h]

theorem fetch_marker {s : State} (h : s.phase = .parse .marker) : s.fetch = s.fetchMarker := by
  unfold State.fetch; rw [h]

theorem fetch_term {s : State} (h : s.phase = .parse .term) : s.fetch = s.fetchTerminator := by
  unfold State.fetch; rw [h]

theorem fetch_start {s : State} (h : s.phase = .decode .start) : s.fetch = .plain s.phase2Start := by
  unfold State.fetch; rw [h]

theorem fetch_dc {s : State} (h : s.phase = .decode .dc) :
    s.fetch = s.clearZz.fetchSymbol s.dcTable decodeDcSym := by
  unfold State.fetch; rw [h]

theorem fetch_ac {s : State} (h : s.phase = .decode .ac) : s.fetch = s.fetchSymbol s.acTable decodeAcSym := by
  unfold State.fetch; rw [h]

theorem fetch_blockDone {s : State} (h : s.phase = .decode .blockDone) : s.fetch = .plain s.finishBlock := by
  unfold State.fetch; rw [h]

theorem fetch_mcuDone {s : State} (h : s.phase = .decode .mcuDone) : s.fetch = .plain s.emitMcu := by
  unfold State.fetch; rw [h]

theorem fetch_finish {s : State} (h : s.phase = .decode .finish) : s.fetch = .plain s.complete := by
  unfold State.fetch; rw [h]

/-- One step at the head of a run. -/
theorem run_succ {k : Nat} {s t : State} (h : step s = .next t) :
    Sys2Proof.core.run (k + 1) s = Sys2Proof.core.run k t := by
  have h' : Sys2Proof.core.step s = .next t := h
  simp only [Host.Core.run, h']

end Sys2Proof.Machine
end

