-- ==== Sys2Proof/Laws/Stream.lean ====
section
/-! SUPPORT. The segment reader depends on IN_LEN and on the bytes below it only (spec 20 R69). -/

namespace Sys2Proof.Machine

/-- Two states that give the segment reader the same stream. -/
structure SameStream (s t : State) : Prop where
  len  : t.csr.inLen = s.csr.inLen
  byte : ∀ i, i < s.csr.inLen → t.inByte i = s.inByte i

theorem SameStream.segLength {s t : State} (h : SameStream s t) (start : Nat) :
    t.segLength start = s.segLength start := by
  unfold State.segLength
  rw [h.len]
  split
  · rfl
  · rename_i h1
    have e : t.be16At start = s.be16At start := by
      simp only [State.be16At, h.byte start (by omega), h.byte (start + 1) (by omega)]
    rw [e]

theorem SameStream.inBytes {s t : State} (h : SameStream s t) (i n : Nat) (hn : i + n ≤ s.csr.inLen) :
    t.inBytes i n = s.inBytes i n := by
  apply List.map_congr_left
  intro k hk
  rw [List.mem_range] at hk
  exact h.byte _ (by omega)

theorem SameStream.payload {s t : State} (h : SameStream s t) (start lh : Nat) (hl : s.segLength start = some lh) :
    t.payload start lh = s.payload start lh := by
  obtain ⟨a, b, c, -⟩ := State.segLength_some hl
  exact h.inBytes _ _ (by omega)

theorem SameStream.scanEndFrom {s t : State} (h : SameStream s t) (fuel q : Nat) :
    t.scanEndFrom fuel q = s.scanEndFrom fuel q := by
  induction fuel generalizing q with
  | zero => exact h.len
  | succ fuel ih =>
    simp only [State.scanEndFrom, h.len, ih]
    split
    · rename_i h1
      rw [h.byte q (by omega), h.byte (q + 1) h1]
    · rfl

theorem SameStream.scanEnd {s t : State} (h : SameStream s t) (first : Nat) : t.scanEnd first = s.scanEnd first := by
  unfold State.scanEnd
  rw [h.len, h.scanEndFrom]

theorem SameStream.walkFrom {s t : State} (h : SameStream s t) (fuel w : Nat) :
    t.walkFrom fuel w = s.walkFrom fuel w := by
  induction fuel generalizing w with
  | zero => rfl
  | succ fuel ih =>
    by_cases h0 : s.csr.inLen ≤ w + 1
    · simp only [State.walkFrom, h.len, h0, true_or, if_true]
    · simp only [State.walkFrom, h.len, ih, h.segLength, h.byte w (by omega), h.byte (w + 1) (by omega)]

theorem SameStream.walk {s t : State} (h : SameStream s t) (w : Nat) : t.walk w = s.walk w := by
  unfold State.walk
  rw [h.len, h.walkFrom]

end Sys2Proof.Machine
end

