-- ==== Sys2Proof/Tests/Slice0.lean ====
section
/-! SUPPORT. The model's own tests: ill-formed terms refused, words written out from the spec's tables decoded, single
steps whose results stand in spec/95 or are worked out by hand from a rule, and for every obligation with hypotheses a
concrete state and operands that meet them (`witness_…`). -/

namespace Sys2Proof.Tests

open Sys2Proof Sys2Proof.Machine

/-! Helpers. -/

/-- A state at a place of a decode, with the stream `l` in IN_BUF and IN_LEN its length. -/
def at_ (phase : Phase) (cur : Nat) (l : List Byte) : State :=
  { State.reset with
    phase := phase
    cur := cur
    csr := { Csr.reset with inLen := l.length }
    inBuf := l.zipIdx.map (fun p => (p.2, p.1)) }

/-- Before the scan, at the start of the stream `l`. -/
def marker (l : List Byte) : State := at_ (.parse .marker) 0 l

/-- The state after an outcome, if it is a next state. -/
def after (o : Host.Outcome State Fault Refusal) : Option State :=
  match o with
  | .next s => some s
  | .fault _ => none
  | .refused _ => none

/-- What a step recorded as a failure: kind, offset, marker. -/
def failure (o : Host.Outcome State Fault Refusal) : Option (Bool × ErrKind × Nat × BitVec 16) :=
  (after o).map (fun s => (s.csr.err, s.csr.errKind, s.csr.errOffset, s.csr.errMarker))

/-- The word a step answers. -/
def answer (o : Host.Outcome State Fault Refusal) : Option Word := (after o).map (fun s => s.rdata)

/-- The reset state with one host access due. -/
def hosted (addr : Word) (acc : Access) : State := { State.reset with host := [⟨0, .access ⟨addr, acc⟩⟩] }

/-- A 32-bit read. -/
def r32 : Access := ⟨.four, .read, 0⟩

/-! Ill-formed terms. -/

theorem test_wf_refuses_res_below : (Instr.res 0x01).wf .default = false := by decide
theorem test_wf_refuses_res_above : (Instr.res 0xC0).wf .default = false := by decide
theorem test_wf_refuses_jpgn : (Instr.jpgn 14).wf .default = false := by decide
theorem test_wf_refuses_dcDiff : (Instr.dcDiff 0).wf .default = false ∧ (Instr.dcDiff 12).wf .default = false := by
  decide
theorem test_wf_refuses_dcBad : (Instr.dcBad 11).wf .default = false := by decide
theorem test_wf_refuses_acR0 : (Instr.acR0 0).wf .default = false ∧ (Instr.acR0 15).wf .default = false := by decide
theorem test_wf_refuses_acRs : (Instr.acRs 3 0).wf .default = false := by decide
theorem test_wf_refuses_csrRsvd : (Instr.csrRsvd 0x027 r32).wf .default = false := by decide
theorem test_wf_refuses_inbuf : (Instr.inbuf 0x100000 r32).wf .default = false := by decide
theorem test_wf_refuses_outbuf : (Instr.outbuf 0x400000 r32).wf .default = false := by decide
theorem test_wf_refuses_unmapped :
    (Instr.unmapped 0x00000FFF r32).wf .default = false ∧ (Instr.unmapped 0x010FFFFF r32).wf .default = false := by
  decide

/-! Words from the spec's tables: 30 R73 (markers), R82 and R83 (symbols), 10 R22 and 20 R58 (host addresses). -/

theorem test_decode_codes_that_are_no_markers :
    decode .default .marker [0xFF, 0x00] = .ok .stuff00 ∧ decode .default .marker [0xFF, 0xFF] = .ok .fill := by
  decide
theorem test_decode_stand_alone :
    decode .default .marker [0xFF, 0x01] = .ok .tem ∧ decode .default .marker [0xFF, 0xD0] = .ok (.rstm 0) ∧
    decode .default .marker [0xFF, 0xD7] = .ok (.rstm 7) ∧ decode .default .marker [0xFF, 0xD8] = .ok .soi ∧
    decode .default .marker [0xFF, 0xD9] = .ok .eoi := by decide
theorem test_decode_frames :
    decode .default .marker [0xFF, 0xC0] = .ok .sof0 ∧ decode .default .marker [0xFF, 0xC1] = .ok .sof1 ∧
    decode .default .marker [0xFF, 0xC2] = .ok .sof2 ∧ decode .default .marker [0xFF, 0xC3] = .ok .sof3 ∧
    decode .default .marker [0xFF, 0xC5] = .ok .sof5 ∧ decode .default .marker [0xFF, 0xC6] = .ok .sof6 ∧
    decode .default .marker [0xFF, 0xC7] = .ok .sof7 ∧ decode .default .marker [0xFF, 0xC9] = .ok .sof9 ∧
    decode .default .marker [0xFF, 0xCA] = .ok .sof10 ∧ decode .default .marker [0xFF, 0xCB] = .ok .sof11 ∧
    decode .default .marker [0xFF, 0xCD] = .ok .sof13 ∧ decode .default .marker [0xFF, 0xCE] = .ok .sof14 ∧
    decode .default .marker [0xFF, 0xCF] = .ok .sof15 := by decide
theorem test_decode_tables_and_scan :
    decode .default .marker [0xFF, 0xC4] = .ok .dht ∧ decode .default .marker [0xFF, 0xCC] = .ok .dac ∧
    decode .default .marker [0xFF, 0xDA] = .ok .sos ∧ decode .default .marker [0xFF, 0xDB] = .ok .dqt ∧
    decode .default .marker [0xFF, 0xDC] = .ok .dnl ∧ decode .default .marker [0xFF, 0xDD] = .ok .dri := by decide
theorem test_decode_skipped :
    decode .default .marker [0xFF, 0x02] = .ok (.res 0x02) ∧ decode .default .marker [0xFF, 0xBF] = .ok (.res 0xBF) ∧
    decode .default .marker [0xFF, 0xC8] = .ok .jpg ∧ decode .default .marker [0xFF, 0xDE] = .ok .dhp ∧
    decode .default .marker [0xFF, 0xDF] = .ok .exp ∧ decode .default .marker [0xFF, 0xE0] = .ok (.appn 0) ∧
    decode .default .marker [0xFF, 0xEF] = .ok (.appn 15) ∧ decode .default .marker [0xFF, 0xF0] = .ok (.jpgn 0) ∧
    decode .default .marker [0xFF, 0xFD] = .ok (.jpgn 13) ∧ decode .default .marker [0xFF, 0xFE] = .ok .com := by
  decide
theorem test_decode_not_a_marker : decode .default .marker [0xFE, 0xD8] = .error .notMarker := by decide
theorem test_decode_dc_symbols :
    decode .default .dcsym [0b00000000] = .ok .dcZero ∧ decode .default .dcsym [0b00000001] = .ok (.dcDiff 1) ∧
    decode .default .dcsym [0b00001011] = .ok (.dcDiff 11) ∧ decode .default .dcsym [0b00001100] = .ok (.dcBad 12) ∧
    decode .default .dcsym [0b11111111] = .ok (.dcBad 255) := by decide
theorem test_decode_ac_symbols :
    decode .default .acsym [0b00000000] = .ok .eob ∧ decode .default .acsym [0b11110000] = .ok .zrl ∧
    decode .default .acsym [0b00010000] = .ok (.acR0 1) ∧ decode .default .acsym [0b11100000] = .ok (.acR0 14) ∧
    decode .default .acsym [0b00110101] = .ok (.acRs 3 5) ∧ decode .default .acsym [0b11111111] = .ok (.acRs 15 15) := by
  decide
theorem test_decode_csrs :
    decodeHost .default 0x000 r32 = .csrId 0 r32 ∧ decodeHost .default 0x004 r32 = .csrCtrl 0 r32 ∧
    decodeHost .default 0x008 r32 = .csrStatus 0 r32 ∧ decodeHost .default 0x00C r32 = .csrInLen 0 r32 ∧
    decodeHost .default 0x010 r32 = .csrErrOffset 0 r32 ∧ decodeHost .default 0x014 r32 = .csrErrMarker 0 r32 ∧
    decodeHost .default 0x018 r32 = .csrImgWidth 0 r32 ∧ decodeHost .default 0x01C r32 = .csrImgHeight 0 r32 ∧
    decodeHost .default 0x020 r32 = .csrImgChannels 0 r32 ∧ decodeHost .default 0x024 r32 = .csrOutLen 0 r32 ∧
    decodeHost .default 0x028 r32 = .csrRsvd 0x028 r32 ∧ decodeHost .default 0xFFF r32 = .csrRsvd 0xFFF r32 ∧
    decodeHost .default 0x00B r32 = .csrStatus 3 r32 := by decide
theorem test_decode_windows :
    decodeHost .default 0x01000000 r32 = .inbuf 0 r32 ∧ decodeHost .default 0x010FFFFF r32 = .inbuf 0xFFFFF r32 ∧
    decodeHost .default 0x01100000 r32 = .unmapped 0x01100000 r32 ∧
    decodeHost .default 0x02000000 r32 = .outbuf 0 r32 ∧ decodeHost .default 0x023FFFFF r32 = .outbuf 0x3FFFFF r32 ∧
    decodeHost .default 0x02400000 r32 = .unmapped 0x02400000 r32 ∧
    decodeHost .default 0x00001000 r32 = .unmapped 0x1000 r32 := by decide
theorem test_decode_host_access_bytes :
    decode .default .hostacc [0x0C, 0x00, 0x00, 0x00, 0x04, 0x78, 0x56, 0x34, 0x12] =
      .ok (.csrInLen 0 ⟨.four, .write, 0x12345678⟩) ∧
    decode .default .hostacc [0x0C, 0x00, 0x00, 0x00, 0x03, 0, 0, 0, 0] = .error .badControl := by decide

/-! Table words run as the first instruction after reset. -/

theorem test_table_word_marker :
    decodeTableWord 16 0xFFDB = some .dqt ∧
    (after (step (State.reset.withFetchWord 16 0xFFD8))).map (fun s => (s.phase, s.cur)) =
      some (.parse .marker, 2) := by decide
theorem test_table_word_symbol :
    decodeTableWord 8 0x10 = some (.dcBad 0x10) ∧ decodeTableWord 8 0xF0 = some .zrl ∧
    (after (step (State.reset.withFetchWord 8 0xF0))).map (fun s => (s.phase, s.blk.k)) =
      some (.decode .ac, 17) := by decide
theorem test_table_word_host :
    decodeTableWord 32 0x008 = some (.csrStatus 0 r32) ∧
    answer (step (State.reset.withFetchWord 32 0x000)) = some 0x4A504547 := by decide

/-! Single steps; the expected results are vectors of spec/95 or worked out by hand from the rule named. -/

/-- VS-2: `FF D9` is no SOI. -/
theorem test_soi_check : failure (step (at_ (.parse .soi) 0 [0xFF, 0xD9])) =
    some (true, .malformedContainer, 0, 0x0000) := by decide

/-- VS-4: a byte other than FF at a marker position. -/
theorem test_no_marker : failure (step (at_ (.parse .marker) 2 [0xFF, 0xD8, 0x00])) =
    some (true, .malformedContainer, 2, 0x0000) := by decide

/-- VS-6 and VS-7. -/
theorem test_header_failures :
    failure (step (at_ (.parse .marker) 2 [0xFF, 0xD8, 0xFF, 0x00])) =
      some (true, .malformedContainer, 2, 0xFF00) ∧
    failure (step (at_ (.parse .marker) 2 [0xFF, 0xD8, 0xFF, 0xD9])) =
      some (true, .malformedContainer, 2, 0xFFD9) := by decide

/-- VS-10: TEM is ignored. -/
theorem test_tem : (after (step (at_ (.parse .marker) 2 [0xFF, 0xD8, 0xFF, 0x01, 0xFF, 0xD9]))).map (fun s => s.cur) =
    some 4 := by decide

/-- VS-12: a length beyond the buffer. -/
theorem test_length_check : failure (step (at_ (.parse .marker) 2 [0xFF, 0xD8, 0xFF, 0xFE, 0x00, 0x05, 0x41])) =
    some (true, .malformedContainer, 2, 0xFFFE) := by decide

/-- VS-14: COM is skipped. -/
theorem test_com :
    (after (step (at_ (.parse .marker) 2 [0xFF, 0xD8, 0xFF, 0xFE, 0x00, 0x03, 0x41, 0xFF, 0xD9]))).map
      (fun s => s.cur) = some 7 := by decide

/-- VS-20 to VS-22. -/
theorem test_unsupported :
    failure (step (at_ (.parse .marker) 2 [0xFF, 0xD8, 0xFF, 0xC2, 0x00, 0x02])) =
      some (true, .unsupportedFeature, 2, 0xFFC2) ∧
    failure (step (at_ (.parse .marker) 2 [0xFF, 0xD8, 0xFF, 0xCC, 0x00, 0x02])) =
      some (true, .unsupportedFeature, 2, 0xFFCC) ∧
    failure (step (at_ (.parse .marker) 2 [0xFF, 0xD8, 0xFF, 0xDD, 0x00, 0x04, 0x00, 0x00])) =
      some (true, .unsupportedFeature, 2, 0xFFDD) := by decide

/-- VS-16: an empty DQT is accepted. -/
theorem test_dqt_empty :
    (after (step (at_ (.parse .marker) 2 [0xFF, 0xD8, 0xFF, 0xDB, 0x00, 0x02, 0xFF, 0xD9]))).map (fun s => s.cur) =
      some 6 := by decide

/-- VE-6: slot 7 writes nothing. -/
theorem test_dqt_slot : failure (step (marker ([0xFF, 0xDB, 0x00, 0x43, 0x07] ++ List.replicate 64 0x01))) =
    some (true, .malformedContainer, 0, 0xFFDB) := by decide

/-- The SOF0 segment of stream `G` of spec/95: 8 × 8, one component. -/
def sof0Gray : List Byte := [0xFF, 0xC0, 0x00, 0x0B, 0x08, 0x00, 0x08, 0x00, 0x08, 0x01, 0x01, 0x11, 0x00]

/-- 41 R117 on that segment. -/
theorem test_sof0 :
    (after (step (marker sof0Gray))).map
      (fun s => (s.frame.valid, s.csr.imgWidth, s.csr.imgChannels, s.csr.outLen, s.cur)) =
      some (true, 8, 1, 64, 13) := by decide

/-- VS-26: the precision is checked before the number of components. -/
theorem test_sof0_order :
    failure (step (marker
      [0xFF, 0xC0, 0x00, 0x0E, 0x0C, 0x00, 0x08, 0x00, 0x08, 0x02, 0x01, 0x11, 0x00, 0x02, 0x11, 0x00])) =
      some (true, .unsupportedFeature, 0, 0xFFC0) := by decide

/-- 42 R133 on the DC table of program P1: code "0" stands for symbol 0, and MINCODE[2] = 2. -/
theorem test_dht :
    (after (step (marker ([0xFF, 0xC4, 0x00, 0x14, 0x00, 0x01] ++ List.replicate 15 0x00 ++ [0x00])))).map
      (fun s => (s.htDc[0].valid, s.htDc[0].mincode[1], s.htDc[0].valptr[1], s.cur)) = some (true, 2, 1, 22) := by
  decide

/-- VE-2: the canonical codes of the counts 0,1,5,1,1,1,1,1,1. -/
theorem test_canonical_codes :
    canonCodes [0, 1, 5, 1, 1, 1, 1, 1, 1, 0, 0, 0, 0, 0, 0, 0] 1 0 0 =
      some [(0, 0), (0, 0), (2, 1), (14, 6), (30, 7), (62, 8), (126, 9), (254, 10), (510, 11), (1022, 12), (2044, 12),
        (4088, 12), (8176, 12), (16352, 12), (32704, 12), (65408, 12)] := by decide

/-- A canonical table whose only code is "0", for `sym` (42 R133). -/
def oneCode (sym : Byte) : HuffTable :=
  DhtParts.table ⟨0x00, 1 :: List.replicate 15 0, [sym]⟩ HuffTable.reset

/-- A grayscale frame of `x` by `y` pixels. -/
def gray (x y : BitVec 16) : FrameRegs := ⟨true, x, y, 1, Vector.replicate 3 ⟨1, 1, 1, 0⟩⟩

/-- A YCbCr 4:2:0 frame. -/
def ycc (x y : BitVec 16) : FrameRegs :=
  ⟨true, x, y, 3, #v[⟨1, 2, 2, 0⟩, ⟨2, 1, 1, 0⟩, ⟨3, 1, 1, 0⟩]⟩

/-- Inside the scan data `l` of a decode of frame `f` whose DC and AC tables know one symbol each. -/
def scanning (d : DecodeAt) (f : FrameRegs) (dc ac : Byte) (k : Nat) (l : List Byte) : State :=
  { at_ (.decode d) 0 l with
    frame := f
    csr := { (at_ (.decode d) 0 l).csr with
             imgWidth := f.x, imgHeight := f.y, imgChannels := BitVec.ofNat 2 f.nf
             outLen := f.x.toNat * f.y.toNat * f.nf }
    qt := Vector.replicate 4 ⟨true, Vector.replicate 64 1⟩
    htDc := Vector.replicate 4 (oneCode dc)
    htAc := Vector.replicate 4 (oneCode ac)
    scan := ⟨true, Vector.replicate 3 ⟨0, 0⟩, 0, l.length⟩
    mcu := f.mcuRegs
    blk := ⟨0, 0, 0, k⟩ }

/-- The scan of P1: DC size 0, then EOB, in the byte 3F. -/
theorem test_dc_zero :
    (after (step (scanning .dc (gray 8 8) 0x00 0x00 1 [0x3F]))).map
      (fun s => (s.phase, s.br.bpos, s.br.bcnt, s.pred[0])) = some (.decode .ac, 1, 7, 0) := by decide

/-- 43 R150, 42 R145: code 0, then size 3 with raw bits 010, which is 2 - 7 = -5. -/
theorem test_dc_diff :
    (after (step (scanning .dc (gray 8 8) 0x03 0x00 1 [0b00101111]))).map (fun s => (s.pred[0], s.zz[0], s.br.bcnt)) =
      some (-5, -5, 4) := by decide

/-- VK-8: a DC symbol above 11, at BPOS. -/
theorem test_dc_bad : failure (step (scanning .dc (gray 8 8) 0x0C 0x00 1 [0x3F])) =
    some (true, .corruptBlock, 1, 0xFFDA) := by decide

/-- 43 R153. -/
theorem test_eob : (after (step (scanning .ac (gray 8 8) 0x00 0x00 5 [0x3F]))).map (fun s => s.phase) =
    some (.decode .blockDone) := by decide

/-- VK-3 and VK-4: ZRL at 49 fails, at 48 it ends the block. -/
theorem test_zrl :
    failure (step (scanning .ac (gray 8 8) 0x00 0xF0 49 [0x3F])) = some (true, .corruptBlock, 1, 0xFFDA) ∧
    (after (step (scanning .ac (gray 8 8) 0x00 0xF0 48 [0x3F]))).map (fun s => (s.phase, s.blk.k)) =
      some (.decode .blockDone, 64) := by decide

/-- VK-9: 0x20 at k = 1 leaves k = 4. -/
theorem test_ac_r0 : (after (step (scanning .ac (gray 8 8) 0x00 0x20 1 [0x3F]))).map (fun s => (s.phase, s.blk.k)) =
    some (.decode .ac, 4) := by decide

/-- VK-6 and 43 R152: run 1, size 1 at k = 63 fails; at k = 62 it places the value 1 at 63. -/
theorem test_ac_rs :
    failure (step (scanning .ac (gray 8 8) 0x00 0x11 63 [0x7F])) = some (true, .corruptBlock, 1, 0xFFDA) ∧
    (after (step (scanning .ac (gray 8 8) 0x00 0x11 62 [0x7F]))).map (fun s => (s.phase, s.zz[63])) =
      some (.decode .blockDone, 1) := by decide

/-- VE-3: a DC-only block of value 1016 is 255 everywhere. -/
theorem test_dc_only_block :
    (after (step { scanning .blockDone (gray 8 8) 0x00 0x00 1 [0x3F] with
                   zz := (Vector.replicate 64 0).set 0 1016 })).map
      (fun s => (s.phase, s.planeAt 0 0 0, s.planeAt 0 7 7)) = some (.decode .mcuDone, 255, 255) := by decide

/-- VI-3: COEF[1] = 8 gives samples 129 and 127 at the ends of a row, 128 at column 3. -/
theorem test_idct_general :
    (let smp := idct .standard ((Vector.replicate 64 0).set 1 8); (smp[0], smp[3], smp[63])) = (129, 128, 127) := by
  decide

/-- 45 R177 and the tie 221.5 of spec/95 section 8. -/
theorem test_colour :
    ycc2rgb 76 85 255 = [254, 0, 0] ∧ ycc2rgb 0 253 128 = [0, 0, 222] ∧ ycc2rgb 255 255 255 = [255, 121, 255] := by
  decide

/-- P1: the image is 128 everywhere and OUT_BUF lists 64 bytes. -/
theorem test_emit :
    (after (step { scanning .mcuDone (gray 8 8) 0x00 0x00 1 [0x3F] with
                   plane := Vector.replicate 3 (Vector.replicate 256 0x80) })).map
      (fun s => (s.phase, s.outBuf.length, s.outBuf.getLast?)) = some (.decode .finish, 64, some (63, 0x80)) := by
  decide

/-- VX-1, VX-5 and VX-6. -/
theorem test_host_reads :
    answer (step (hosted 0x000 r32)) = some 0x4A504547 ∧ answer (step (hosted 0x028 r32)) = some 0 ∧
    answer (step (hosted 0x002 r32)) = some 0 ∧ answer (step (hosted 0x04000000 r32)) = some 0 := by decide

/-- VX-4: IN_LEN takes at most IN_MAX. -/
theorem test_in_len :
    (after (step (hosted 0x00C ⟨.four, .write, 0xFFFFFFFF⟩))).map (fun s => s.inLenWord) = some 0x00100000 := by decide

/-- VX-7: the bytes of a word written to IN_BUF. -/
theorem test_in_buf :
    (after (step (hosted 0x01000000 ⟨.four, .write, 0xE0FFD8FF⟩))).map (fun s => s.inBuf) =
      some [(0, 0xFF), (1, 0xD8), (2, 0xFF), (3, 0xE0)] := by decide

/-- VX-8 and VX-9: STATUS after the failure of an empty stream, and after ERR is acknowledged. -/
theorem test_status :
    ((after (step (at_ (.parse .soi) 0 []))).map (fun s => s.statusWord)) = some 0x14 ∧
    ((after (step (at_ (.parse .soi) 0 []))).bind
      (fun s => after (exec (.csrStatus 0 ⟨.four, .write, 0x4⟩) s))).map (fun s => s.statusWord) = some 0x10 := by
  decide

/-- VX-10 and VX-11: START enters PARSE and sets IRQ_EN; a write to IN_BUF while busy is dropped. -/
theorem test_start :
    (after (step (hosted 0x004 ⟨.four, .write, 0x3⟩))).map (fun s => (s.phase, s.ctrlWord, s.statusWord)) =
      some (.parse .soi, 2, 1) ∧
    (after (exec (.inbuf 0 ⟨.one, .write, 0⟩) (at_ (.parse .soi) 0 [0xFF]))).map (fun s => s.inBuf) =
      some [(0, 0xFF)] := by decide

/-! Witnesses: for every obligation with hypotheses, states and operands that meet all of them together, each clause
at a boundary of its range. -/

theorem test_witness_DecodeEncodeRoundTrip :
    (Params.mk 24 12 .standard).legal ∧ (Instr.inbuf 0xFFFFFF r32).wf (Params.mk 24 12 .standard) = true ∧
    (Instr.outbuf 0xFFF r32).wf (Params.mk 24 12 .standard) = true ∧
    decode (Params.mk 24 12 .standard) .acsym [0xFF] = .ok (.acRs 15 15) := by decide

theorem test_witness_StepRunsItem_markers :
    (let s := at_ (.parse .soi) 0 [0xFF, 0xD8]
     s.host = [] ∧ s.phase = .parse .soi ∧ 2 ≤ s.csr.inLen ∧
       decode s.params .marker [s.inByte 0, s.inByte 1] = .ok .soi) ∧
    (let s := at_ (.parse .marker) 2 [0xFF, 0xD8, 0xFF, 0xDB]
     s.phase = .parse .marker ∧ s.cur + 1 < s.csr.inLen ∧
       decode s.params .marker [s.inByte s.cur, s.inByte (s.cur + 1)] = .ok .dqt) ∧
    (let s := at_ (.parse .term) 0 [0xFF, 0xD9]
     s.phase = .parse .term ∧ s.scan.stop ≠ s.csr.inLen ∧ s.cur + 1 < s.csr.inLen ∧
       decode s.params .marker [0xFF, s.inByte (s.cur + 1)] = .ok .eoi) := by decide

theorem test_witness_StepRunsItem_symbols :
    (let s := scanning .dc (gray 8 8) 0x0B 0xF0 1 [0x3F]
     s.host = [] ∧ s.phase = .decode .dc ∧ decode s.params .dcsym [0x0B] = .ok (.dcDiff 11)) ∧
    (let s := scanning .dc (gray 8 8) 0x0B 0xF0 1 [0x3F]
     s.dcTable.decodeSym s.inByte s.scan.stop s.br = .ok 0x0B ⟨1, 0x3F, 7⟩) ∧
    (let s := scanning .ac (gray 8 8) 0x0B 0xF0 1 [0x3F]
     s.phase = .decode .ac ∧ decode s.params .acsym [0xF0] = .ok .zrl) ∧
    (let s := scanning .ac (gray 8 8) 0x0B 0xF0 1 [0x3F]
     s.acTable.decodeSym s.inByte s.scan.stop s.br = .ok 0xF0 ⟨1, 0x3F, 7⟩) :=
  ⟨by decide, rfl, by decide, rfl⟩

theorem test_witness_StepRunsHostAccess :
    (let s := hosted 0x00000FFF r32
     s.host = ⟨0, .access ⟨0x00000FFF, r32⟩⟩ :: [] ∧
       decode s.params .hostacc (encodeHost 0x00000FFF r32) = .ok (.csrRsvd 0xFFF r32)) ∧
    (let s := { State.reset with host := [⟨1, .reset⟩] }; s.host = ⟨0 + 1, .reset⟩ :: []) ∧
    (State.reset.host = [] ∧ State.reset.phase = .idle) := by decide

theorem test_witness_SoiCheck :
    (let s := at_ (.parse .soi) 0 [0xFF, 0xD8]
     s.host = [] ∧ s.phase = .parse .soi ∧ 2 ≤ s.csr.inLen ∧ s.inByte 0 = 0xFF ∧ s.inByte 1 = 0xD8) ∧
    (at_ (.parse .soi) 0 [0xFF]).csr.inLen < 2 ∧ (at_ (.parse .soi) 0 [0xFE, 0xD8]).inByte 0 ≠ 0xFF ∧
    (at_ (.parse .soi) 0 [0xFF, 0xD9]).inByte 1 ≠ 0xD8 := by decide

theorem test_witness_HeaderStandAloneMarkers : (marker [0xFF, 0x01]).phase = .parse .marker := by decide

theorem test_witness_MarkerFetch :
    (let s := marker [0xFF, 0xFF, 0xFF]
     s.host = [] ∧ s.phase = .parse .marker ∧ s.cur + 2 < s.csr.inLen ∧
       (∀ k, k ≤ 2 → s.inByte (s.cur + k) = 0xFF) ∧ s.cur + 2 + 1 = s.csr.inLen) ∧
    (marker []).csr.inLen ≤ (marker []).cur ∧
    (let s := marker [0xFE, 0xDB]; s.cur < s.csr.inLen ∧ s.inByte s.cur ≠ 0xFF ∧ s.cur + 1 < s.csr.inLen) ∧
    (let s := marker [0xFF]; s.cur + 1 = s.csr.inLen) := by decide

theorem test_witness_SegmentLengthCheck :
    Instr.hasLength .sos = true ∧ (marker [0xFF, 0xDA, 0x00]).BadSegment ∧
    (marker [0xFF, 0xDA, 0x00, 0x01]).BadSegment ∧ (marker [0xFF, 0xDA, 0x00, 0x03]).BadSegment := by decide

theorem test_witness_SkippedSegments :
    Instr.isSkipped .com = true ∧ Instr.isSkipped (.res 0x02) = true ∧
    (marker [0xFF, 0xFE, 0x00, 0x02]).phase = .parse .marker ∧ (marker [0xFF, 0xFE, 0x00, 0x02]).HasSegment 2 := by
  decide

theorem test_witness_UnsupportedFrames :
    Instr.isUnsupportedFrame .sof1 = true ∧ Instr.isUnsupportedFrame .sof15 = true ∧
    (marker [0xFF, 0xC1, 0x00, 0x02]).phase = .parse .marker ∧ (marker [0xFF, 0xC1, 0x00, 0x02]).HasSegment 2 := by
  decide

theorem test_witness_UnsupportedSegments :
    Instr.isUnsupportedSegment .dac = true ∧ Instr.isUnsupportedSegment .dnl = true ∧
    (marker [0xFF, 0xDD, 0x00, 0x02]).phase = .parse .marker ∧ (marker [0xFF, 0xDD, 0x00, 0x02]).HasSegment 2 := by
  decide

theorem test_witness_DqtStores :
    (let s := marker ([0xFF, 0xDB, 0x00, 0x43, 0x03] ++ List.replicate 64 0x01)
     s.phase = .parse .marker ∧ s.HasSegment 67 ∧
       s.segPayload 67 = [((0x03 : Byte), List.replicate 64 (0x01 : Byte))].flatMap (fun d => d.1 :: d.2) ∧
       ∀ d ∈ [((0x03 : Byte), List.replicate 64 (0x01 : Byte))], GoodDqt d) ∧
    GoodDqt (0x13, List.replicate 128 0x01) ∧ 3 = loNibble 0x13 ∧ 2 ≠ loNibble 0x13 := by decide

theorem test_witness_DqtBadDefinition :
    (let s := marker [0xFF, 0xDB, 0x00, 0x03, 0x04]
     s.phase = .parse .marker ∧ s.HasSegment 3 ∧
       s.segPayload 3 = ([] : List (Byte × List Byte)).flatMap (fun d => d.1 :: d.2) ++ 0x04 :: [] ∧
       BadDqt 0x04 []) ∧
    BadDqt 0x20 (List.replicate 64 0) ∧ BadDqt 0x03 (List.replicate 63 0) ∧
    BadDqt 0x13 (List.replicate 127 0) := by decide

/-- The DC table of program P1, in slot 3. -/
def dhtOne : DhtParts := ⟨0x13, 1 :: List.replicate 15 0, [0x00]⟩

theorem test_witness_DhtStores :
    let s := marker ([0xFF, 0xC4, 0x00, 0x14, 0x13, 0x01] ++ List.replicate 15 0x00 ++ [0x00])
    s.phase = .parse .marker ∧ s.HasSegment 20 ∧ s.segPayload 20 = [dhtOne].flatMap DhtParts.bytes ∧
      GoodDht dhtOne ∧ 0 < dhtOne.syms.length := by decide

theorem test_witness_DhtBadDefinition :
    (let s := marker [0xFF, 0xC4, 0x00, 0x03, 0x04]
     s.phase = .parse .marker ∧ s.HasSegment 3 ∧
       s.segPayload 3 = ([] : List DhtParts).flatMap DhtParts.bytes ++ 0x04 :: [] ∧ 3 < loNibble 0x04) ∧
    (let s := marker [0xFF, 0xC4, 0x00, 0x03, 0x13]
     s.phase = .parse .marker ∧ s.HasSegment 3 ∧
       s.segPayload 3 = ([] : List DhtParts).flatMap DhtParts.bytes ++ 0x13 :: [] ∧ loNibble 0x13 ≤ 3 ∧
       hiNibble 0x13 ≤ 1 ∧ ([] : List Byte).length < 16) ∧
    (let q : List Byte := 255 :: 2 :: List.replicate 14 0; 256 < ((q.take 16).map BitVec.toNat).sum) ∧
    (let q : List Byte := 1 :: List.replicate 15 0; q.length < 16 + ((q.take 16).map BitVec.toNat).sum) ∧
    (let q : List Byte := 3 :: List.replicate 15 0
     2 ^ 1 < startCode (lengthCount (q.take 16)) 1 + lengthCount (q.take 16) 1) ∧
    (let q : List Byte := List.replicate 14 0 ++ [0, 255]
     ¬ 2 ^ 16 < startCode (lengthCount (q.take 16)) 16 + lengthCount (q.take 16) 16) := by decide

/-- An SOF0 segment of three components, the first 2 × 2. -/
def sof0Colour : List Byte :=
  [0xFF, 0xC0, 0x00, 0x11, 0x08, 0x00, 0x01, 0x00, 0x01, 0x03, 0x01, 0x22, 0x03, 0x02, 0x11, 0x00, 0x03, 0x11, 0x00]

theorem test_witness_Sof0Accepts :
    (let s := marker sof0Colour
     let comps : List SofComp := [⟨1, 0x22, 3⟩, ⟨2, 0x11, 0⟩, ⟨3, 0x11, 0⟩]
     s.phase = .parse .marker ∧ s.HasSegment 17 ∧ s.frame.valid = false ∧
       s.segPayload 17 = sofPayload 8 0 1 0 1 3 comps ∧ comps.length = (3 : Byte).toNat ∧ be16 0 1 ≠ 0 ∧
       (comps.map SofComp.id).Nodup ∧ (∀ c ∈ comps, c.Good) ∧ be16 0 1 * be16 0 1 * 3 ≤ s.params.outMax) ∧
    (let s := marker sof0Gray
     s.HasSegment 11 ∧ s.segPayload 11 = sofPayload 8 0 8 0 8 1 [⟨1, 0x11, 0⟩]) := by decide

theorem test_witness_Sof0HeaderChecks :
    (let s := { marker sof0Gray with frame := gray 8 8 }
     s.phase = .parse .marker ∧ s.HasSegment 11 ∧ s.frame.valid = true) ∧
    (let s := marker [0xFF, 0xC0, 0x00, 0x07, 8, 0, 1, 0, 1]; s.HasSegment 7 ∧ (s.segPayload 7).length < 6) ∧
    (let s := marker [0xFF, 0xC0, 0x00, 0x08, 8, 0, 1, 0, 1, 1]
     s.HasSegment 8 ∧ s.frame.valid = false ∧ s.segPayload 8 = 8 :: 0 :: 1 :: 0 :: 1 :: 1 :: [] ∧
       ([] : List Byte).length ≠ 3 * (1 : Byte).toNat) ∧
    (let s := marker [0xFF, 0xC0, 0x00, 0x08, 9, 0, 1, 0, 1, 0]
     s.HasSegment 8 ∧ s.segPayload 8 = 9 :: 0 :: 1 :: 0 :: 1 :: 0 :: [] ∧
       ([] : List Byte).length = 3 * (0 : Byte).toNat ∧ (9 : Byte) ≠ 8) ∧
    (let s := marker [0xFF, 0xC0, 0x00, 0x08, 8, 0, 1, 0, 1, 0]
     s.HasSegment 8 ∧ s.segPayload 8 = 8 :: 0 :: 1 :: 0 :: 1 :: 0 :: [] ∧ (0 : Byte) ≠ 1 ∧ (0 : Byte) ≠ 3) ∧
    (let s := marker [0xFF, 0xC0, 0x00, 0x0B, 8, 0, 1, 0, 0, 1, 1, 0x11, 0]
     s.HasSegment 11 ∧ s.segPayload 11 = 8 :: 0 :: 1 :: 0 :: 0 :: 1 :: [1, 0x11, 0] ∧ be16 0 0 = 0) ∧
    (let s := marker [0xFF, 0xC0, 0x00, 0x0B, 8, 0, 0, 0, 1, 1, 1, 0x11, 0]
     s.HasSegment 11 ∧ s.segPayload 11 = 8 :: 0 :: 0 :: 0 :: 1 :: 1 :: [1, 0x11, 0] ∧ be16 0 1 ≠ 0) := by decide

theorem test_witness_Sof0ComponentChecks :
    (let s := marker [0xFF, 0xC0, 0x00, 0x0B, 8, 0, 1, 0, 1, 1, 1, 0x31, 0]
     let comps : List SofComp := [⟨1, 0x31, 0⟩]
     s.phase = .parse .marker ∧ s.HasSegment 11 ∧ s.frame.valid = false ∧
       s.segPayload 11 = sofPayload 8 0 1 0 1 1 comps ∧ comps.length = (1 : Byte).toNat ∧ be16 0 1 ≠ 0 ∧
       comps = [] ++ ⟨1, 0x31, 0⟩ :: [] ∧ SofComp.error [] ⟨1, 0x31, 0⟩ = some .unsupportedFeature) ∧
    SofComp.error [1] ⟨1, 0x11, 0⟩ = some .malformedContainer ∧
    SofComp.error [] ⟨1, 0x01, 0⟩ = some .malformedContainer ∧
    SofComp.error [] ⟨1, 0x15, 0⟩ = some .malformedContainer ∧
    SofComp.error [] ⟨1, 0x22, 4⟩ = some .malformedContainer ∧
    SofComp.error [] ⟨1, 0x14, 3⟩ = some .unsupportedFeature ∧
    (let s := marker [0xFF, 0xC0, 0x00, 0x0B, 8, 0x08, 0x00, 0x08, 0x01, 1, 1, 0x11, 0]
     s.HasSegment 11 ∧ s.segPayload 11 = sofPayload 8 0x08 0x00 0x08 0x01 1 [⟨1, 0x11, 0⟩] ∧
       s.params.outMax < be16 0x08 0x01 * be16 0x08 0x00 * (1 : Byte).toNat) := by decide

/-- A header with frame `f` and all tables, at an SOS segment with the payload `p`. -/
def beforeScan (f : FrameRegs) (p : List Byte) : State :=
  { marker ([0xFF, 0xDA, 0x00, BitVec.ofNat 8 (p.length + 2)] ++ p) with
    frame := f
    qt := Vector.replicate 4 ⟨true, Vector.replicate 64 1⟩
    htDc := Vector.replicate 4 (oneCode 0)
    htAc := Vector.replicate 4 (oneCode 0) }

theorem test_witness_SosAccepts :
    let s := beforeScan (ycc 8 8) [3, 1, 0x00, 2, 0x33, 3, 0x30, 0, 63, 0]
    let comps : List SosComp := [⟨1, 0x00⟩, ⟨2, 0x33⟩, ⟨3, 0x30⟩]
    (s.phase = .parse .marker ∧ s.HasSegment 12 ∧ s.frame.valid = true ∧
      s.segPayload 12 = sosPayload 3 comps 0 63 0 ∧ comps.length = (3 : Byte).toNat ∧
      (3 : Byte).toNat = s.frame.nf) ∧
    ∀ j : Fin 3, s.GoodSosComp j (comps.getD j ⟨0, 0⟩) ∧
      s.tablesPresent j (comps.getD j ⟨0, 0⟩).reg = true := by decide

theorem test_witness_SosChecks :
    (let s := marker [0xFF, 0xDA, 0x00, 0x02]; s.phase = .parse .marker ∧ s.HasSegment 2 ∧ s.frame.valid = false) ∧
    (let s := beforeScan (gray 8 8) [0, 0, 63, 0]
     s.HasSegment 6 ∧ s.frame.valid = true ∧ s.segPayload 6 = 0 :: [0, 63, 0] ∧ (0 : Byte).toNat < 1) ∧
    4 < (5 : Byte).toNat ∧ [(0 : Byte), 63, 0].length ≠ 3 + 2 * (1 : Byte).toNat ∧
    (let s := beforeScan (gray 8 8) [1, 2, 0x00, 0, 63, 0]
     s.HasSegment 8 ∧ s.segPayload 8 = sosPayload 1 [⟨2, 0x00⟩] 0 63 0 ∧ ¬ s.GoodSosComp 0 ⟨2, 0x00⟩) ∧
    (let s := beforeScan (gray 8 8) [1, 1, 0x40, 0, 63, 0]
     s.segPayload 8 = sosPayload 1 [⟨1, 0x40⟩] 0 63 0 ∧ ¬ s.GoodSosComp 0 ⟨1, 0x40⟩) ∧
    (let s := beforeScan (gray 8 8) [1, 1, 0x33, 0, 62, 0]
     s.segPayload 8 = sosPayload 1 [⟨1, 0x33⟩] 0 62 0 ∧ s.GoodSosComp 0 ⟨1, 0x33⟩ ∧ (62 : Byte) ≠ 63) ∧
    (let s := { beforeScan (gray 8 8) [1, 1, 0x33, 0, 63, 0] with htAc := State.reset.htAc }
     s.segPayload 8 = sosPayload 1 [⟨1, 0x33⟩] 0 63 0 ∧ s.GoodSosComp 0 ⟨1, 0x33⟩ ∧ (1 : Byte).toNat = s.frame.nf ∧
       s.tablesPresent 0 (SosComp.reg ⟨1, 0x33⟩) = false) := by decide

theorem test_witness_TerminatingMarkers :
    (let s := at_ (.parse .term) 0 []; s.phase = .parse .term ∧ s.host = [] ∧ s.scan.stop = s.csr.inLen) ∧
    (let s := at_ (.parse .term) 0 [0xFF]; s.scan.stop < s.csr.inLen ∧ s.cur + 1 = s.csr.inLen) := by decide

/-- At a terminating TEM, followed by `l`. -/
def afterTem (l : List Byte) : State := at_ (.parse .term) 0 ([0xFF, 0x01] ++ l)

theorem test_witness_OtherTerminators :
    ((afterTem []).phase = .parse .term ∧ Instr.hasLength .dqt = true ∧ Instr.dqt ≠ .sos ∧
      (Instr.res 0xBF).wf (afterTem []).params = true) ∧
    (afterTem [0xFF, 0xDA]).SosAfter .tem 2 ∧ ¬ ∃ r, (afterTem [0xFF, 0xD9]).SosAfter .tem r := by
  refine ⟨by decide, .sos 2 (by decide) (by decide) (by decide), ?_⟩
  rintro ⟨r, h⟩
  have := ((afterTem [0xFF, 0xD9]).walk_iff 2 r).2 h
  rw [(by decide : (afterTem [0xFF, 0xD9]).walk 2 = none)] at this
  cases this

/-- Stream bytes for the bit reader: FF 00 at 0, FF D9 at 2, zeros after. -/
def bytes (i : Nat) : Byte := ([0xFF, 0x00, 0xFF, 0xD9] : List Byte).getD i 0

theorem test_witness_ReadBitRule :
    0 < (BitReader.mk 0 0x80 1).bcnt ∧
    ((BitReader.mk 4 0 0).bcnt = 0 ∧ 4 < 5 ∧ bytes 4 ≠ 0xFF) ∧
    (0 + 1 < 2 ∧ bytes 0 = 0xFF ∧ bytes (0 + 1) = 0x00) ∧
    (4 ≤ 4 ∧ bytes 2 = 0xFF ∧ bytes (2 + 1) ≠ 0x00 ∧ 3 ≤ 2 + 1) := by decide

theorem test_witness_ReadBitsMsbFirst :
    BitReader.readBits bytes 2 3 ⟨0, 0, 0⟩ = .ok 7 ⟨2, 0xFF, 5⟩ ∧
    BitReader.readBits bytes 2 5 ⟨2, 0xFF, 5⟩ = .ok 31 ⟨2, 0xFF, 0⟩ ∧
    BitReader.readBit bytes 2 ⟨2, 0xFF, 0⟩ = .fail ⟨2, 0xFF, 0⟩ ∧
    BitReader.readBit bytes 2 ⟨2, 0xFE, 2⟩ = .ok 1 ⟨2, 0xFE, 1⟩ ∧
    BitReader.readBits bytes 2 1 ⟨2, 0xFE, 1⟩ = .ok 0 ⟨2, 0xFE, 0⟩ ∧
    BitReader.readBits bytes 2 2 ⟨2, 0xFE, 1⟩ = .fail ⟨2, 0xFE, 0⟩ := ⟨rfl, rfl, rfl, rfl, rfl, rfl⟩

theorem test_witness_ExtendRanges : 1 ≤ 15 ∧ 32767 < 2 ^ 15 ∧ 2 ^ (15 - 1) ≤ 32767 ∧ 0 < 2 ^ (1 - 1) := by decide

theorem oneCode_canonical : (oneCode 5).Canonical := by
  intro n h1 h2
  interval_cases n <;> decide

theorem test_witness_HuffmanMatch :
    (oneCode 5).Canonical ∧ 0 < (getAt (oneCode 5).counts (1 - 1) 0).toNat ∧
    BitReader.readBits (fun _ => 0x7F) 1 1 ⟨0, 0, 0⟩ = .ok ((getAt (oneCode 5).mincode (1 - 1) 0).toNat + 0) ⟨1, 0x7F, 7⟩ ∧
    BitReader.readBits (fun _ => 0xFE) 2 16 ⟨0, 0, 0⟩ = .ok 0xFEFE ⟨2, 0xFE, 0⟩ ∧
    ∀ n, 1 ≤ n → n ≤ 16 →
      ¬ ((getAt (oneCode 5).mincode (n - 1) 0).toNat ≤ 0xFEFE / 2 ^ (16 - n) ∧
         0xFEFE / 2 ^ (16 - n) <
           (getAt (oneCode 5).mincode (n - 1) 0).toNat + (getAt (oneCode 5).counts (n - 1) 0).toNat) := by
  refine ⟨oneCode_canonical, by decide, rfl, rfl, ?_⟩
  intro n h1 h2
  interval_cases n <;> decide

/-- Every component of a frame of the tests is in range. -/
theorem gray_ok : (gray 17 9).Ok .default :=
  ⟨by decide, by decide, by decide, fun j hj => by
    have : j = 0 := by have : j < 1 := hj; omega
    subst this; decide, by decide⟩

theorem ycc_ok : (ycc 13 11).Ok .default :=
  ⟨by decide, by decide, by decide, fun j hj => by
    have : j < 3 := hj
    interval_cases j <;> decide, by decide⟩

theorem test_witness_Phase2Start :
    let s := scanning .start (ycc 13 11) 0 0 1 [0x3F]
    s.host = [] ∧ s.phase = .decode .start ∧ s.frame.Ok s.params := ⟨rfl, rfl, ycc_ok⟩

theorem test_witness_DcSymbols :
    let s := scanning .dc (gray 8 8) 0 0 1 [0xFF, 0x00, 0xE0]
    s.phase = .decode .dc ∧ s.br.readBits s.inByte s.scan.stop (11 : BitVec 4).toNat = .ok 2047 ⟨3, 0xE0, 5⟩ :=
  ⟨rfl, rfl⟩

theorem test_witness_EobAndZrl :
    (scanning .ac (gray 8 8) 0 0xF0 1 [0x3F]).phase = .decode .ac ∧
    (scanning .ac (gray 8 8) 0 0xF0 47 [0x3F]).blk.k < 48 ∧
    (scanning .ac (gray 8 8) 0 0xF0 48 [0x3F]).blk.k = 48 ∧
    49 ≤ (scanning .ac (gray 8 8) 0 0xF0 49 [0x3F]).blk.k := by decide

theorem test_witness_AcCoefficients :
    (scanning .ac (gray 8 8) 0 0xF0 49 [0xFF, 0x00, 0xFE]).phase = .decode .ac ∧
    63 < (scanning .ac (gray 8 8) 0 0xF0 49 [0xFF, 0x00, 0xFE]).blk.k + (15 : BitVec 4).toNat ∧
    (scanning .ac (gray 8 8) 0 0xF0 48 [0xFF, 0x00, 0xFE]).blk.k + (15 : BitVec 4).toNat ≤ 63 ∧
    (let s := scanning .ac (gray 8 8) 0 0xF0 48 [0xFF, 0x00, 0xFE]
     s.br.readBits s.inByte s.scan.stop (15 : BitVec 4).toNat = .ok 32767 ⟨3, 0xFE, 1⟩) :=
  ⟨by decide, by decide, by decide, rfl⟩

theorem test_witness_ScanDataExhausted :
    (let s := scanning .dc (gray 8 8) 0 0 1 []
     s.host = [] ∧ s.phase = .decode .dc ∧ s.dcTable.decodeSym s.inByte s.scan.stop s.br = .fail ⟨0, 0, 0⟩) ∧
    (let s := scanning .ac (gray 8 8) 0 0 1 [0xFF]
     s.phase = .decode .ac ∧ s.acTable.decodeSym s.inByte s.scan.stop s.br = .fail ⟨0, 0, 0⟩) ∧
    (let s := scanning .dc (gray 8 8) 0 0 1 [0x3F]
     s.br.readBits s.inByte s.scan.stop (9 : BitVec 4).toNat = .fail ⟨1, 0x3F, 0⟩) ∧
    (let s := scanning .ac (gray 8 8) 0 0 1 [0x3F]
     s.blk.k + (15 : BitVec 4).toNat ≤ 63 ∧
       s.br.readBits s.inByte s.scan.stop (9 : BitVec 4).toNat = .fail ⟨1, 0x3F, 0⟩) :=
  ⟨⟨rfl, rfl, rfl⟩, ⟨rfl, rfl⟩, rfl, ⟨by decide, rfl⟩⟩

theorem test_witness_StuffedPair :
    let s := scanning .dc (gray 8 8) 0 0 1 [0xFF, 0x00]
    s.phase = .decode .dc ∧ s.br.bcnt = 0 ∧ s.br.bpos + 1 < s.scan.stop ∧ s.inByte s.br.bpos = 0xFF ∧
      s.inByte (s.br.bpos + 1) = 0x00 := by decide

/-- A finished block at row and column of a component. -/
def blockAt (f : FrameRegs) (comp : Fin 3) (row col : Nat) : State :=
  { scanning .blockDone f 0 0 1 [0x3F] with blk := ⟨comp, row, col, 64⟩ }

theorem test_witness_BlockDone :
    (let s := blockAt (ycc 13 11) 0 1 0
     s.host = [] ∧ s.phase = .decode .blockDone ∧ s.frame.Ok s.params ∧ s.BlockOk ∧
       s.blk.col + 1 < (s.frame.comp s.blk.comp.val).h) ∧
    (let s := blockAt (ycc 13 11) 0 0 1
     s.BlockOk ∧ s.blk.col + 1 = (s.frame.comp s.blk.comp.val).h ∧ s.blk.row + 1 < (s.frame.comp s.blk.comp.val).v) ∧
    (let s := blockAt (ycc 13 11) 0 1 1
     s.BlockOk ∧ s.blk.col + 1 = (s.frame.comp s.blk.comp.val).h ∧ s.blk.row + 1 = (s.frame.comp s.blk.comp.val).v ∧
       s.blk.comp.val + 1 < s.frame.nf) ∧
    (let s := blockAt (ycc 13 11) 2 0 0
     s.BlockOk ∧ s.blk.col + 1 = (s.frame.comp s.blk.comp.val).h ∧ s.blk.row + 1 = (s.frame.comp s.blk.comp.val).v ∧
       s.blk.comp.val + 1 = s.frame.nf) :=
  ⟨⟨rfl, rfl, ycc_ok, by decide, by decide⟩, by decide, by decide, by decide⟩

theorem test_witness_IdctDcOnly :
    ∀ k, 1 ≤ k → k < 64 → getAt ((Vector.replicate 64 (0 : Int)).set 0 (-1024)) k 0 = 0 := by
  have h : ∀ k : Fin 64, 1 ≤ k.val → getAt ((Vector.replicate 64 (0 : Int)).set 0 (-1024)) k.val 0 = 0 := by decide
  exact fun k h1 h2 => h ⟨k, h2⟩ h1

theorem test_witness_IdctDefault_and_IdctVariants :
    7 < 8 ∧ 63 < 64 ∧ ∃ k, 1 ≤ k ∧ k < 64 ∧ getAt ((Vector.replicate 64 (0 : Int)).set 63 100) k 0 ≠ 0 :=
  ⟨by decide, by decide, 63, by decide, by decide, by decide⟩

theorem test_witness_EmitMcu :
    (let s := { scanning .mcuDone (gray 17 9) 0 0 1 [0x3F] with mcu := { (gray 17 9).mcuRegs with idx := 5 } }
     s.host = [] ∧ s.phase = .decode .mcuDone ∧ s.frame.nf = 1 ∧ s.InFootprint 0 0 ∧ ¬ s.InFootprint 1 0) ∧
    (let s := scanning .mcuDone (ycc 13 11) 0 0 1 [0x3F]
     s.frame.nf = 3 ∧ s.InFootprint 12 10 ∧ ¬ s.InFootprint 12 11) := by decide

theorem test_witness_EveryPixelInOneMcu : (gray 17 9).Ok .default ∧ 16 < (gray 17 9).x.toNat ∧ 8 < (gray 17 9).y.toNat :=
  ⟨gray_ok, by decide, by decide⟩

/-- At the end of a decode, the interrupt enabled. -/
def finishing : State :=
  let s := scanning .finish (gray 8 8) 0 0 1 [0x3F]
  { s with csr := { s.csr with irqEn := true }, mcu := { s.mcu with idx := 1 } }

theorem test_witness_Completion :
    finishing.host = [] ∧ finishing.phase = .decode .finish ∧ finishing.busy = true ∧ finishing.csr.irqEn = true ∧
    step finishing = .next finishing.complete ∧ finishing.complete.busy = false :=
  ⟨rfl, rfl, rfl, rfl, rfl, rfl⟩

theorem test_witness_CtrlWrite :
    ((0x3 : Word).getLsbD 0 = true ∧ State.reset.busy = false) ∧ (0x2 : Word).getLsbD 0 = false ∧
    (at_ (.parse .soi) 0 []).busy = true := by decide

theorem test_witness_CsrReads :
    let s := { State.reset with csr := { Csr.reset with inLen := 2 ^ 20, errOffset := 2 ^ 20, outLen := 2 ^ 22 } }
    s.params.legal ∧ s.csr.inLen ≤ s.params.inMax ∧ s.csr.errOffset ≤ s.params.inMax ∧
      s.csr.outLen ≤ s.params.outMax := by decide

theorem test_witness_IgnoredAccesses :
    Instr.RefusedForm (.csrCtrl 1 r32) r32 ∧ Instr.RefusedForm (.csrId 0 ⟨.two, .write, 0⟩) ⟨.two, .write, 0⟩ ∧
    Instr.RefusedForm (.inbuf 0 ⟨.two, .read, 0⟩) ⟨.two, .read, 0⟩ ∧
    Instr.RefusedForm (.outbuf 3 ⟨.four, .write, 5⟩) ⟨.four, .write, 5⟩ ∧
    Instr.RefusedForm (.csrRsvd 0x028 r32) r32 ∧ Instr.RefusedForm (.unmapped 0x1000 r32) r32 := by
  refine ⟨⟨rfl, ?_⟩, ⟨rfl, ?_⟩, ⟨rfl, ?_⟩, ⟨rfl, ?_⟩, rfl, rfl⟩ <;> decide

theorem test_witness_BufferWrites_and_BufferReads :
    (at_ (.parse .soi) 0 []).busy = true ∧ State.reset.busy = false ∧ (0xFFFFFC : BitVec 24).toNat % 4 = 0 := by decide

theorem test_witness_HardwareReset :
    { marker [0xFF] with host := [⟨0, .reset⟩, ⟨2, .reset⟩] }.host = ⟨0, .reset⟩ :: [⟨2, .reset⟩] := by decide

/-- A run that has just passed the start of its stream. -/
def running : State := { marker [0xFF, 0xFE, 0x00, 0x02] with cur := 0 }

theorem running_statusOk : running.StatusOk := ⟨by decide, by decide, by decide, by decide⟩

theorem running_buffersOk : running.BuffersOk := ⟨by decide, by decide, by decide⟩

theorem running_streamOk : running.StreamOk :=
  ⟨by decide, by decide, by decide, fun h => absurd h (by decide), fun _ => by decide, fun h => absurd h (by decide),
    fun h => absurd h (by decide), ⟨rfl, by decide⟩⟩

theorem running_boundsOk : running.BoundsOk := by
  refine ⟨fun i hi => ?_, fun _ _ => rfl, fun _ _ => rfl, fun _ _ _ => rfl⟩
  have h : 2 ^ 20 ≤ i := hi
  have e : running.inBuf = [(0, 0xFF), (1, 0xFE), (2, 0x00), (3, 0x02)] := by decide
  rw [e]
  simp only [Memory.read, Memory.unlisted]
  rw [if_neg (by omega), if_neg (by omega), if_neg (by omega), if_neg (by omega)]

theorem test_witness_invariants :
    running.StatusOk ∧ running.BuffersOk ∧ running.StreamOk ∧ running.BoundsOk ∧
    step running = .next { running with cur := 4 } :=
  ⟨running_statusOk, running_buffersOk, running_streamOk, running_boundsOk, rfl⟩

theorem test_witness_DecodeTerminates_and_CursorMovesForward :
    running.StreamOk ∧ running.host = [] ∧ running.phase = .parse .marker ∧ ParseAt.marker ≠ .soi ∧
    step running = .next { running with cur := 4 } :=
  ⟨running_streamOk, rfl, rfl, by decide, rfl⟩

theorem test_witness_CoreReadsOnlyTheStream :
    running.StreamOk ∧
    (∀ i, i < running.csr.inLen →
      State.inByte { running with inBuf := running.inBuf ++ [(4, 0xD9)] } i = running.inByte i) ∧
    coreStep running = .next { running with cur := 4 } := ⟨running_streamOk, by decide, rfl⟩

theorem test_witness_FixedWhileBusy :
    running.busy = true ∧ (∀ rest, running.host ≠ ⟨0, .reset⟩ :: rest) ∧
    step running = .next { running with cur := 4 } ∧
    (scanning .start (gray 8 8) 0 0 1 [0x3F]).phase = .decode .start :=
  ⟨rfl, fun _ h => (by cases h), rfl, rfl⟩

theorem test_witness_Phase2FailureKinds :
    let s := scanning .dc (gray 8 8) 0x0C 0 1 [0x3F]
    s.host = [] ∧ s.phase = .decode .dc ∧ s.csr.err = false ∧ ((after (step s)).map (fun t => t.csr.err)) = some true := by
  decide

theorem test_witness_StatusWriters :
    (after (step finishing)).map (fun t => t.csr.done) ≠ some finishing.csr.done ∧
    (let s := hosted 0x004 ⟨.four, .write, 0x1⟩
     s.phase = .idle ∧ (after (step s)).map (fun t => t.phase) ≠ some .idle) := by decide

end Sys2Proof.Tests
end

section
/-! SUPPORT. What a step can do to the status flags and the recorded failure, said once (`step_status`), and the two
rules that follow from it: the status invariant and the writers of the flags (spec 10 R43, 46 R191, 60 R214, R218). -/

namespace Sys2Proof.Machine

/-! The flags and the recorded failure. -/

/-- DONE, ERR, ERR_KIND, ERR_OFFSET and ERR_MARKER (10 R25, R27, R28). -/
def Csr.status (c : Csr) : Bool × Bool × ErrKind × Nat × BitVec 16 :=
  (c.done, c.err, c.errKind, c.errOffset, c.errMarker)

theorem Csr.status_eq_iff (c : Csr) (d e : Bool) (kind : ErrKind) (off : Nat) (mk : BitVec 16) :
    c.status = (d, e, kind, off, mk) ↔
      c.done = d ∧ c.err = e ∧ c.errKind = kind ∧ c.errOffset = off ∧ c.errMarker = mk := by
  simp only [Csr.status, Prod.mk.injEq]

theorem Csr.status_ne {c d : Csr}
    (h : c.done ≠ d.done ∨ c.err ≠ d.err ∨ c.errKind ≠ d.errKind ∨ c.errOffset ≠ d.errOffset ∨
      c.errMarker ≠ d.errMarker) : c.status ≠ d.status := by
  intro e
  obtain ⟨h1, h2, h3, h4, h5⟩ := (Csr.status_eq_iff c _ _ _ _ _).1 e
  simp only [h1, h2, h3, h4, h5, ne_eq, not_true_eq_false, or_self] at h

theorem State.busy_of_phase {s : State} {p : Phase} (h : s.phase = p) (hp : p ≠ .idle) : s.busy = true :=
  (s.busy_eq_true).2 (h ▸ hp)

/-- What the core can do to the flags and to BUSY: nothing, or an end of the decode (60 R214, R218). -/
inductive CoreStatus (s t : State) : Prop where
  | same : t.busy = s.busy → t.csr.status = s.csr.status → CoreStatus s t
  | failed (kind : ErrKind) (off : Nat) (mk : BitVec 16) : s.busy = true → t.busy = false → kind ≠ .none →
      t.csr.status = (s.csr.done, true, kind, off, mk) → CoreStatus s t
  | completed : s.busy = true → t.busy = false →
      t.csr.status = (true, s.csr.err, s.csr.errKind, s.csr.errOffset, s.csr.errMarker) → CoreStatus s t

/-- What a step can do to them: what the core can, or a START (46 R191), a STATUS write (R192) or a hardware reset
(10 R44). -/
inductive StatusMove (s t : State) : Prop where
  | core : CoreStatus s t → StatusMove s t
  | started (r : HostReq) (rest : List HostSlot) (v : Word) : s.host = ⟨0, .access r⟩ :: rest →
      decodeHost s.params r.addr r.acc = .csrCtrl 0 ⟨.four, .write, v⟩ → v.getLsbD 0 = true → s.busy = false →
      t.phase = .parse .soi → t.csr.status = (false, false, .none, 0, 0) → StatusMove s t
  | acked (r : HostReq) (rest : List HostSlot) (v : Word) : s.host = ⟨0, .access r⟩ :: rest →
      decodeHost s.params r.addr r.acc = .csrStatus 0 ⟨.four, .write, v⟩ → t.busy = s.busy →
      t.csr.status = (s.csr.ackStatus v).status → StatusMove s t
  | reset (rest : List HostSlot) : s.host = ⟨0, .reset⟩ :: rest → t.phase = .idle →
      t.csr.status = (false, false, .none, 0, 0) → StatusMove s t

/-- Both states are busy and record the same. -/
theorem CoreStatus.running {s t : State} {p : Phase} (h : s.phase = p) (hp : p ≠ .idle) (ht : t.phase ≠ .idle)
    (hs : t.csr.status = s.csr.status) : CoreStatus s t :=
  .same (by rw [State.busy_of_phase h hp, State.busy_of_phase rfl ht]) hs

/-! The core. -/

theorem State.nextMcu_running (s : State) : s.nextMcu.phase ≠ .idle := by
  simp only [State.nextMcu_fields]
  split <;> exact nofun

/-- A finished block (43 R158): the working buffers aside, the next block is entered, or the MCU is finished. -/
theorem State.finishBlock_cases (s : State) : ∃ coef plane,
    (∃ b, s.frame.nextBlock s.blk = some b ∧
      s.finishBlock = { s with coef := coef, plane := plane, blk := b, phase := .decode .dc }) ∨
    (s.frame.nextBlock s.blk = none ∧
      s.finishBlock = { s with coef := coef, plane := plane, phase := .decode .mcuDone }) := by
  unfold State.finishBlock
  cases s.frame.nextBlock s.blk with
  | some b => exact ⟨_, _, .inl ⟨b, rfl, rfl⟩⟩
  | none => exact ⟨_, _, .inr ⟨rfl, rfl⟩⟩

theorem CoreMove.status {s t : State} (m : CoreMove s t) : CoreStatus s t := by
  cases m with
  | idle => exact .same rfl rfl
  | failParse _ _ _ _ _ _ _ _ h _ hk => exact .failed _ _ _ (State.busy_of_phase h nofun) rfl hk rfl
  | soi h => exact .running h nofun nofun rfl
  | advance _ _ _ _ h => exact .running h nofun (h ▸ nofun) rfl
  | frame _ _ h => exact .running h nofun (h ▸ nofun) rfl
  | scan _ h => exact .running h nofun nofun rfl
  | fill h => exact .running h nofun (h ▸ nofun) rfl
  | endPhase1 h => exact .running h nofun nofun rfl
  | phase2Start h => exact .running h nofun (State.nextMcu_running _) rfl
  | failScan _ _ kind h _ hk =>
    have hb : s.busy = true := h.elim (State.busy_of_phase · nofun) (State.busy_of_phase · nofun)
    have hn : kind ≠ .none := by rcases hk with rfl | rfl <;> decide
    exact .failed kind _ _ hb rfl hn rfl
  | dc _ _ _ h => exact .running h nofun nofun rfl
  | eob _ h => exact .running h nofun nofun rfl
  | ac _ _ k h =>
    refine .running h nofun ?_ rfl
    simp only [State.acAt_fields]
    split <;> exact nofun
  | blockDone h =>
    obtain ⟨_, _, ⟨_, -, e⟩ | ⟨-, e⟩⟩ := s.finishBlock_cases <;> rw [e] <;> exact .running h nofun nofun rfl
  | mcuDone h => exact .running h nofun (State.nextMcu_running _) rfl
  | finish h => exact .completed (State.busy_of_phase h nofun) rfl rfl

/-! The whole step. -/

theorem step_status {s t : State} (h : step s = .next t) : StatusMove s t := by
  obtain ⟨q, -, -, m⟩ | ⟨e, rest, hh, m⟩ := step_cases h
  · cases m.status with
    | same hb hs => exact .core (.same hb hs)
    | failed kind off mk hb hb' hk hs => exact .core (.failed kind off mk hb hb' hk hs)
    | completed hb hb' hs => exact .core (.completed hb hb' hs)
  · cases m with
    | read => exact .core (.same rfl rfl)
    | irqEn => exact .core (.same rfl rfl)
    | start r v he hd hv hb => exact .started r rest v (he ▸ hh) hd hv hb rfl rfl
    | ack r v he hd => exact .acked r rest v (he ▸ hh) hd rfl rfl
    | inLen => exact .core (.same rfl rfl)
    | inBuf => exact .core (.same rfl rfl)
    | outBuf => exact .core (.same rfl rfl)
    | reset he => exact .reset rest (he ▸ hh) rfl rfl

/-! The status invariant. -/

theorem State.StatusOk.of_same {s t : State} (h : s.StatusOk) (hb : t.busy = s.busy)
    (hs : t.csr.status = s.csr.status) : t.StatusOk := by
  obtain ⟨h1, h2, h3, h4, h5⟩ := (Csr.status_eq_iff _ _ _ _ _ _).1 hs
  constructor <;> simp only [hb, h1, h2, h3, h4, h5]
  exacts [h.exclusive, h.busyClear, h.errKind, h.doneKind]

/-- Nothing is recorded (46 R191, 10 R44). -/
theorem State.StatusOk.of_clear {t : State} (hs : t.csr.status = (false, false, .none, 0, 0)) : t.StatusOk := by
  obtain ⟨h1, h2, h3, h4, h5⟩ := (Csr.status_eq_iff _ _ _ _ _ _).1 hs
  constructor <;> simp [h1, h2, h3, h4, h5]

/-- A failure of a decode (60 R214): DONE is 0 as long as the machine is busy. -/
theorem State.StatusOk.of_failed {s t : State} (h : s.StatusOk) {kind : ErrKind} {off : Nat} {mk : BitVec 16}
    (hb : s.busy = true) (hb' : t.busy = false) (hk : kind ≠ .none)
    (hs : t.csr.status = (s.csr.done, true, kind, off, mk)) : t.StatusOk := by
  obtain ⟨hdone, -⟩ := h.busyClear hb
  obtain ⟨h1, h2, h3, -⟩ := (Csr.status_eq_iff _ _ _ _ _ _).1 hs
  constructor <;> simp [hb', h1, h2, h3, hdone, hk]

/-- A completion (60 R218): ERR and ERR_KIND are 0 as long as the machine is busy. -/
theorem State.StatusOk.of_completed {s t : State} (h : s.StatusOk) (hb : s.busy = true) (hb' : t.busy = false)
    (hs : t.csr.status = (true, s.csr.err, s.csr.errKind, s.csr.errOffset, s.csr.errMarker)) : t.StatusOk := by
  obtain ⟨-, herr, hkind, -⟩ := h.busyClear hb
  obtain ⟨-, h2, h3, -⟩ := (Csr.status_eq_iff _ _ _ _ _ _).1 hs
  constructor <;> simp [hb', h2, h3, herr, hkind]

/-- A STATUS write (46 R192) takes flags away and leaves the recorded failure. -/
theorem State.StatusOk.of_acked {s t : State} (h : s.StatusOk) {v : Word} (hb : t.busy = s.busy)
    (hs : t.csr.status = (s.csr.ackStatus v).status) : t.StatusOk := by
  obtain ⟨h1, h2, h3, h4, h5⟩ := (Csr.status_eq_iff _ _ _ _ _ _).1 hs
  simp only [Csr.ackStatus_fields] at h1 h2 h3 h4 h5
  constructor <;> simp only [hb, h1, h2, h3, h4, h5, Bool.and_eq_true]
  · exact fun ⟨⟨hd, _⟩, he, _⟩ => h.exclusive ⟨hd, he⟩
  · intro hbusy
    obtain ⟨hd, he, hrest⟩ := h.busyClear hbusy
    exact ⟨by rw [hd, Bool.false_and], by rw [he, Bool.false_and], hrest⟩
  · exact fun ⟨he, _⟩ => h.errKind he
  · exact fun ⟨hd, _⟩ => h.doneKind hd

/-- Settles O50, by cases on what a step can do to the flags (`step_status`). -/
theorem statusInvariant : Obligations.StatusInvariant := by
  intro s t hs h
  cases step_status h with
  | core c =>
    cases c with
    | same hb he => exact hs.of_same hb he
    | failed _ _ _ hb hb' hk he => exact hs.of_failed hb hb' hk he
    | completed hb hb' he => exact hs.of_completed hb hb' he
  | started _ _ _ _ _ _ _ _ he => exact .of_clear he
  | acked _ _ _ _ _ hb he => exact hs.of_acked hb he
  | reset _ _ _ he => exact .of_clear he

/-! The writers of the flags. -/

theorem State.idle_of_busy_eq {s t : State} (hb : t.busy = s.busy) (hs : s.phase = .idle) : t.phase = .idle :=
  (t.busy_eq_false).1 (hb.trans ((s.busy_eq_false).2 hs))

/-- Settles O58, by cases on what a step can do to the flags (`step_status`). -/
theorem statusWriters : Obligations.StatusWriters := by
  intro s t h
  cases step_status h with
  | core c =>
    cases c with
    | same hb he =>
      exact ⟨fun hd => absurd he (Csr.status_ne hd), fun hi ht => absurd (State.idle_of_busy_eq hb hi) ht⟩
    | failed _ _ _ hb hb' => exact ⟨fun _ => .inl ⟨hb, hb'⟩, fun _ ht => absurd ((t.busy_eq_false).1 hb') ht⟩
    | completed hb hb' => exact ⟨fun _ => .inl ⟨hb, hb'⟩, fun _ ht => absurd ((t.busy_eq_false).1 hb') ht⟩
  | started r rest v hh hd hv hb hp =>
    exact ⟨fun _ => .inr (.inl ⟨hb, hp⟩), fun _ _ => ⟨hp, r, rest, v, hh, hd, hv⟩⟩
  | acked r rest v hh hd hb =>
    exact ⟨fun _ => .inr (.inr (.inl ⟨r, rest, v, hh, hd⟩)),
      fun hi ht => absurd (State.idle_of_busy_eq hb hi) ht⟩
  | reset rest hh hp => exact ⟨fun _ => .inr (.inr (.inr ⟨rest, hh⟩)), fun _ ht => absurd hp ht⟩

end Sys2Proof.Machine
end

section
/-! SUPPORT. The stream invariant: `PlaceOk` place by place, what keeps it in a frame of unchanged registers, and each
move of the core and of the host (spec 10 R26 to R40, 41 R123, 42 R146); then the cursor of PARSE and the reset state,
which follow from the same facts. -/

namespace Sys2Proof.Machine

/-! The places of a decode. -/

theorem State.placeOk_idle {s : State} (h : s.phase = .idle) : s.PlaceOk := by
  simp only [State.PlaceOk, h]

theorem State.placeOk_soi {s : State} (h : s.phase = .parse .soi) :
    s.PlaceOk ↔ s.frame.valid = false ∧ s.scan.valid = false := by
  simp only [State.PlaceOk, h]

theorem State.placeOk_marker {s : State} (h : s.phase = .parse .marker) :
    s.PlaceOk ↔ s.scan.valid = false ∧ s.cur ≤ s.csr.inLen := by
  simp only [State.PlaceOk, h]

theorem State.placeOk_term {s : State} (h : s.phase = .parse .term) :
    s.PlaceOk ↔ s.scan.valid = true ∧ s.scan.stop ≤ s.cur ∧ s.cur ≤ s.csr.inLen := by
  simp only [State.PlaceOk, h]

theorem State.placeOk_start {s : State} (h : s.phase = .decode .start) : s.PlaceOk ↔ s.scan.valid = true := by
  simp only [State.PlaceOk, h]

theorem State.placeOk_dc {s : State} (h : s.phase = .decode .dc) :
    s.PlaceOk ↔ s.scan.valid = true ∧ s.McuOk ∧ s.ReaderOk ∧ s.BlockOk := by
  simp only [State.PlaceOk, h]

theorem State.placeOk_ac {s : State} (h : s.phase = .decode .ac) :
    s.PlaceOk ↔ s.scan.valid = true ∧ s.McuOk ∧ s.ReaderOk ∧ s.BlockOk ∧ 1 ≤ s.blk.k ∧ s.blk.k < 64 := by
  simp only [State.PlaceOk, h]

theorem State.placeOk_blockDone {s : State} (h : s.phase = .decode .blockDone) :
    s.PlaceOk ↔ s.scan.valid = true ∧ s.McuOk ∧ s.ReaderOk ∧ s.BlockOk := by
  simp only [State.PlaceOk, h]

theorem State.placeOk_mcuDone {s : State} (h : s.phase = .decode .mcuDone) :
    s.PlaceOk ↔ s.scan.valid = true ∧ s.McuOk ∧ s.ReaderOk ∧ s.mcu.idx < s.mcu.mcux * s.mcu.mcuy := by
  simp only [State.PlaceOk, h]

theorem State.placeOk_finish {s : State} (h : s.phase = .decode .finish) :
    s.PlaceOk ↔ s.scan.valid = true ∧ s.McuOk ∧ s.ReaderOk ∧ s.mcu.idx = s.mcu.mcux * s.mcu.mcuy := by
  simp only [State.PlaceOk, h]

/-- What the two places before a symbol have in common. -/
theorem State.PlaceOk.symbol {s : State} (hp : s.PlaceOk) (h : s.phase = .decode .dc ∨ s.phase = .decode .ac) :
    s.scan.valid = true ∧ s.McuOk ∧ s.ReaderOk ∧ s.BlockOk := by
  rcases h with h | h
  · exact (State.placeOk_dc h).1 hp
  · obtain ⟨hv, hm, hr, hb, -⟩ := (State.placeOk_ac h).1 hp
    exact ⟨hv, hm, hr, hb⟩

/-- In PARSE past the SOI check the cursor is inside the stream. -/
theorem State.PlaceOk.cur_le {s : State} (hp : s.PlaceOk) {pt : ParseAt} (h : s.phase = .parse pt) (hpt : pt ≠ .soi) :
    s.cur ≤ s.csr.inLen := by
  cases pt with
  | soi => exact absurd rfl hpt
  | marker => exact ((State.placeOk_marker h).1 hp).2
  | term => exact ((State.placeOk_term h).1 hp).2.2

/-- In PARSE before the end of the scan data no scan is accepted yet. -/
theorem State.PlaceOk.no_scan {s : State} (hp : s.PlaceOk) {pt : ParseAt} (h : s.phase = .parse pt)
    (hpt : pt ≠ .term) : s.scan.valid = false := by
  cases pt with
  | soi => exact ((State.placeOk_soi h).1 hp).2
  | marker => exact ((State.placeOk_marker h).1 hp).1
  | term => exact absurd rfl hpt

/-- A reader that moves on stays inside the scan data (42 R146). -/
theorem State.ReaderOk.onward {s : State} (h : s.ReaderOk) {b : BitReader} (hb : BitReader.Onward s.scan.stop s.br b) :
    s.scan.first ≤ b.bpos ∧ b.bpos ≤ s.scan.stop ∧ b.bcnt ≤ 8 := by
  obtain ⟨hf, hs, hc⟩ := h
  obtain ⟨h1, h2, h3⟩ := hb hs hc
  exact ⟨hf.trans h1, h2, h3⟩

/-! Moves that leave the stream, the frame and the scan as they are. -/

/-- `t` has the parameters, IN_LEN, frame, scan and image registers of `s`, and its tables once a scan uses them. A
move that writes none of these registers has it by the fields' defaults. -/
structure State.SameSetup (s t : State) : Prop where
  params : t.params = s.params := by rfl
  inLen  : t.csr.inLen = s.csr.inLen := by rfl
  image  : t.csr.imgWidth = s.csr.imgWidth ∧ t.csr.imgHeight = s.csr.imgHeight ∧
    t.csr.imgChannels = s.csr.imgChannels ∧ t.csr.outLen = s.csr.outLen := by exact ⟨rfl, rfl, rfl, rfl⟩
  frame  : t.frame = s.frame := by rfl
  scan   : t.scan = s.scan := by rfl
  tables : s.scan.valid = true → t.qt = s.qt ∧ t.htDc = s.htDc ∧ t.htAc = s.htAc := by
    exact fun _ => ⟨rfl, rfl, rfl⟩

theorem State.SameSetup.tablesPresent {s t : State} (h : s.SameSetup t) (hv : s.scan.valid = true) (j : Nat)
    (c : ScanComp) : t.tablesPresent j c = s.tablesPresent j c := by
  obtain ⟨hq, hd, ha⟩ := h.tables hv
  simp only [State.tablesPresent, h.frame, hq, hd, ha]

theorem State.StreamOk.of_sameSetup {s t : State} (h : s.StreamOk) (hs : s.SameSetup t)
    (ho : t.csr.errOffset ≤ s.params.inMax) (hb : t.busy = true → s.busy = true) (hp : t.PlaceOk) : t.StreamOk := by
  obtain ⟨hw, hh, hc, hl⟩ := hs.image
  refine ⟨?_, ?_, ?_, ?_, ?_, ?_, ?_, hp⟩
  · rw [hs.params]; exact h.params
  · rw [hs.params, hs.inLen]; exact h.inLen
  · rw [hs.params]; exact ho
  · rw [hs.frame, hs.params, hw, hh, hc, hl]; exact h.frame
  · rw [hs.frame, hw, hh, hc, hl]; exact h.noFrame
  · rw [hs.frame, hs.scan]
    intro hv
    obtain ⟨hf, ht⟩ := h.scan hv
    exact ⟨hf, fun j hj => (hs.tablesPresent hv j _).trans (ht j hj)⟩
  · rw [hs.scan, hs.inLen]
    exact fun hv hbt => h.range hv (hb hbt)

/-- A step inside a decode that changes the working registers only. -/
theorem State.StreamOk.of_running {s t : State} (h : s.StreamOk) {p : Phase} (hph : s.phase = p) (hr : p ≠ .idle)
    (hs : s.SameSetup t) (ho : t.csr.errOffset = s.csr.errOffset) (hp : t.PlaceOk) : t.StreamOk :=
  h.of_sameSetup hs (ho ▸ h.offset) (fun _ => State.busy_of_phase hph hr) hp

/-- A step that ends a decode. -/
theorem State.StreamOk.of_ended {s t : State} (h : s.StreamOk) (hs : s.SameSetup t)
    (ho : t.csr.errOffset ≤ s.params.inMax) (ht : t.phase = .idle) : t.StreamOk :=
  h.of_sameSetup hs ho (fun hb => absurd ht ((t.busy_eq_true).1 hb)) (State.placeOk_idle ht)

theorem State.StreamOk.of_host {s : State} (h : s.StreamOk) (q : List HostSlot) : State.StreamOk { s with host := q } :=
  h.of_sameSetup {} h.offset id h.place

/-! Phase 1. -/

theorem State.StreamOk.failParse {s : State} (h : s.StreamOk) {pt : ParseAt} {qt : Vector QuantTable 4}
    {htDc htAc : Vector HuffTable 4} (c : Nat) (kind : ErrKind) {off : Nat} (mk : BitVec 16)
    (hp : s.phase = .parse pt) (ht : pt = .term → qt = s.qt ∧ htDc = s.htDc ∧ htAc = s.htAc)
    (ho : (pt ≠ .soi → s.cur ≤ s.csr.inLen) → off ≤ s.csr.inLen) :
    (State.failed { s with qt := qt, htDc := htDc, htAc := htAc } c kind off mk).StreamOk := by
  have htab : s.scan.valid = true → qt = s.qt ∧ htDc = s.htDc ∧ htAc = s.htAc := by
    intro hv
    by_cases hpt : pt = .term
    · exact ht hpt
    · rw [h.place.no_scan hp hpt] at hv; cases hv
  exact h.of_ended { tables := htab }
    ((ho (h.place.cur_le hp)).trans h.inLen) rfl

theorem imgChannels_toNat {n : Nat} (h : n = 1 ∨ n = 3) : (BitVec.ofNat 2 n).toNat = n := by
  rcases h with rfl | rfl <;> rfl

theorem State.StreamOk.frameAccepted {s : State} (h : s.StreamOk) {f : FrameRegs} {c : Nat}
    (hp : s.phase = .parse .marker) (hc : c ≤ s.csr.inLen) (hv : f.valid = true) (hf : f.Ok s.params) :
    State.StreamOk
      { s with
        cur := c
        frame := f
        csr := { s.csr with
                 imgWidth := f.x, imgHeight := f.y, imgChannels := BitVec.ofNat 2 f.nf
                 outLen := f.x.toNat * f.y.toNat * f.nf } } := by
  have hscan := h.place.no_scan hp nofun
  have no_scan {P : Prop} (hv' : s.scan.valid = true) : P := by rw [hscan] at hv'; cases hv'
  exact
    { params := h.params
      inLen := h.inLen
      offset := h.offset
      frame := fun _ => ⟨hf, rfl, rfl, imgChannels_toNat hf.nf, rfl⟩
      noFrame := fun hn => by rw [hv] at hn; cases hn
      scan := no_scan
      range := no_scan
      place := (State.placeOk_marker (by exact hp)).2 ⟨hscan, hc⟩ }

theorem State.StreamOk.scanAccepted {s : State} (h : s.StreamOk) {r : ScanRegs} (hf : s.frame.valid = true)
    (hv : r.valid = true) (h1 : r.first ≤ r.stop) (h2 : r.stop ≤ s.csr.inLen)
    (ht : ∀ j, j < s.frame.nf → j < 3 → s.tablesPresent j (r.comp j) = true) :
    State.StreamOk { s with scan := r, cur := r.stop, phase := .parse .term } := by
  have hnf : s.frame.nf ≤ 3 := by have := (h.frame hf).1.nf; omega
  exact
    { params := h.params
      inLen := h.inLen
      offset := h.offset
      frame := h.frame
      noFrame := h.noFrame
      scan := fun _ => ⟨hf, fun j hj => ht j hj (lt_of_lt_of_le hj hnf)⟩
      range := fun _ _ => ⟨h1, h2⟩
      place := (State.placeOk_term rfl).2 ⟨hv, le_refl _, h2⟩ }

/-! Phase 2. -/

/-- The head of the MCU loop (43 R158): the first block of an MCU that is there, else the end. -/
theorem State.nextMcu_placeOk {s : State} (hv : s.scan.valid = true) (hf : s.frame.Ok s.params) (hm : s.McuOk)
    (hr : s.ReaderOk) (hi : s.mcu.idx ≤ s.mcu.mcux * s.mcu.mcuy) : s.nextMcu.PlaceOk := by
  by_cases hlt : s.mcu.idx < s.mcu.mcux * s.mcu.mcuy
  · have hnf : 0 < s.frame.nf := by have := hf.nf; omega
    obtain ⟨hh, -, hvv, -⟩ := hf.comps 0 hnf
    have hph : s.nextMcu.phase = .decode .dc := by simp only [State.nextMcu_fields, if_pos hlt]
    exact (State.placeOk_dc hph).2 ⟨hv, hm, hr, hlt, hnf, hvv, hh⟩
  · have hph : s.nextMcu.phase = .decode .finish := by simp only [State.nextMcu_fields, if_neg hlt]
    exact (State.placeOk_finish hph).2 ⟨hv, hm, hr, Nat.le_antisymm hi (Nat.le_of_not_lt hlt)⟩

/-- The block after a block of the MCU is one of the MCU (43 R158). -/
theorem FrameRegs.nextBlock_inside {f : FrameRegs} {p : Params} (hf : f.Ok p) {b b' : BlockPos}
    (h : f.nextBlock b = some b') (hc : b.comp.val < f.nf) (hr : b.row < (f.comp b.comp.val).v) :
    b'.comp.val < f.nf ∧ b'.row < (f.comp b'.comp.val).v ∧ b'.col < (f.comp b'.comp.val).h := by
  unfold FrameRegs.nextBlock at h
  split at h
  · rename_i hcol
    cases h
    exact ⟨hc, hr, hcol⟩
  split at h
  · rename_i hrow
    cases h
    exact ⟨hc, hrow, (hf.comps _ hc).1⟩
  split at h
  · split at h
    · rename_i hnext
      cases h
      obtain ⟨hh, -, hv, -⟩ := hf.comps _ hnext
      exact ⟨hnext, hv, hh⟩
    · cases h
  · cases h

theorem State.StreamOk.finishBlock {s : State} (h : s.StreamOk) (hp : s.phase = .decode .blockDone) :
    s.finishBlock.StreamOk := by
  obtain ⟨hv, hm, hr, hidx, hc, hrow, -⟩ := (State.placeOk_blockDone hp).1 h.place
  have hf := (h.frame (h.scan hv).1).1
  obtain ⟨_, _, ⟨b, hb, e⟩ | ⟨-, e⟩⟩ := s.finishBlock_cases <;> rw [e] <;>
    refine h.of_running hp nofun {} rfl ?_
  · exact (State.placeOk_dc rfl).2 ⟨hv, hm, hr, hidx, FrameRegs.nextBlock_inside hf hb hc hrow⟩
  · exact (State.placeOk_mcuDone rfl).2 ⟨hv, hm, hr, hidx⟩

theorem State.StreamOk.phase2Start {s : State} (h : s.StreamOk) (hp : s.phase = .decode .start) :
    s.phase2Start.StreamOk := by
  have hv := (State.placeOk_start hp).1 h.place
  have hf := (h.frame (h.scan hv).1).1
  obtain ⟨h1, -⟩ := h.range hv (State.busy_of_phase hp nofun)
  exact h.of_running hp nofun {} rfl
    (State.nextMcu_placeOk hv hf rfl ⟨le_refl _, h1, Nat.zero_le _⟩ (Nat.zero_le _))

theorem State.StreamOk.emitMcu {s : State} (h : s.StreamOk) (hp : s.phase = .decode .mcuDone) :
    s.emitMcu.StreamOk := by
  obtain ⟨hv, hm, hr, hidx⟩ := (State.placeOk_mcuDone hp).1 h.place
  have hf := (h.frame (h.scan hv).1).1
  have hm' : ({ s.mcu with idx := s.mcu.idx + 1 } : McuRegs) = { s.frame.mcuRegs with idx := s.mcu.idx + 1 } := by
    rw [hm]
  exact h.of_running hp nofun {} rfl
    (State.nextMcu_placeOk hv hf hm' hr hidx)

theorem State.StreamOk.failScan {s : State} (h : s.StreamOk) {br : BitReader} (zz : Vector Int 64) (kind : ErrKind)
    (hp : s.phase = .decode .dc ∨ s.phase = .decode .ac) (hb : BitReader.Onward s.scan.stop s.br br) :
    (State.failScan { s with br := br, zz := zz } kind).StreamOk := by
  obtain ⟨hv, -, hr, -⟩ := h.place.symbol hp
  obtain ⟨-, hle, -⟩ := hr.onward hb
  obtain ⟨-, hstop⟩ := h.range hv (hp.elim (State.busy_of_phase · nofun) (State.busy_of_phase · nofun))
  exact h.of_ended {}
    (hle.trans (hstop.trans h.inLen)) rfl

/-- The AC loop at its next position (43 R152): a coefficient of the block or its end. -/
theorem State.StreamOk.acAt {s : State} (h : s.StreamOk) {br : BitReader} (zz : Vector Int 64) {k : Nat}
    (hp : s.phase = .decode .ac) (hb : BitReader.Onward s.scan.stop s.br br) (hk : s.blk.k < k) :
    (State.acAt { s with br := br, zz := zz } k).StreamOk := by
  obtain ⟨hv, hm, hr, hblk, -, -⟩ := (State.placeOk_ac hp).1 h.place
  refine h.of_running hp nofun {} rfl ?_
  by_cases hlt : k < 64
  · refine (State.placeOk_ac ?_).2 ⟨hv, hm, hr.onward hb, hblk, Nat.one_le_of_lt hk, hlt⟩
    simp only [State.acAt_fields, if_pos hlt]
  · refine (State.placeOk_blockDone ?_).2 ⟨hv, hm, hr.onward hb, hblk⟩
    simp only [State.acAt_fields, if_neg hlt]

/-! The whole step. -/

theorem CoreMove.streamOk {s t : State} (m : CoreMove s t) (h : s.StreamOk) : t.StreamOk := by
  cases m with
  | idle => exact h
  | failParse _ _ _ _ c kind _ mk hp ht _ _ _ ho => exact h.failParse c kind mk hp ht ho
  | soi hp hlen =>
    exact h.of_running hp nofun {} rfl ((State.placeOk_marker rfl).2 ⟨h.place.no_scan hp nofun, hlen⟩)
  | advance _ _ _ c hp _ hc =>
    have hs := h.place.no_scan hp nofun
    exact h.of_running hp nofun { tables := fun hv => by rw [hs] at hv; cases hv } rfl
      ((State.placeOk_marker (by exact hp)).2 ⟨hs, hc⟩)
  | frame _ _ hp _ hc _ hv hf => exact h.frameAccepted hp hc hv hf
  | scan _ _ hf hv _ h1 h2 ht => exact h.scanAccepted hf hv h1 h2 ht
  | fill hp hc =>
    obtain ⟨hv, hs, -⟩ := (State.placeOk_term hp).1 h.place
    exact h.of_running hp nofun {} rfl
      ((State.placeOk_term (by exact hp)).2 ⟨hv, hs.trans (Nat.le_succ _), Nat.le_of_lt hc⟩)
  | endPhase1 hp =>
    exact h.of_running hp nofun {} rfl ((State.placeOk_start rfl).2 ((State.placeOk_term hp).1 h.place).1)
  | phase2Start hp => exact h.phase2Start hp
  | failScan _ zz kind hp hb => exact h.failScan zz kind hp hb
  | dc _ _ _ hp hb =>
    obtain ⟨hv, hm, hr, hblk⟩ := (State.placeOk_dc hp).1 h.place
    exact h.of_running hp nofun {} rfl
      ((State.placeOk_ac rfl).2 ⟨hv, hm, hr.onward hb, hblk, le_refl _, (by decide : 1 < 64)⟩)
  | eob _ hp hb =>
    obtain ⟨hv, hm, hr, hblk, -⟩ := (State.placeOk_ac hp).1 h.place
    exact h.of_running hp nofun {} rfl ((State.placeOk_blockDone rfl).2 ⟨hv, hm, hr.onward hb, hblk⟩)
  | ac _ zz _ hp hb hk => exact h.acAt zz hp hb hk
  | blockDone hp => exact h.finishBlock hp
  | mcuDone hp => exact h.emitMcu hp
  | finish => exact h.of_ended {} h.offset rfl

/-- Nothing is accepted and nothing is recorded: at the SOI check after START, and idle after reset. -/
theorem State.StreamOk.of_cleared {s : State} (hp : s.params.legal) (hl : s.csr.inLen ≤ s.params.inMax)
    (hf : s.frame.valid = false) (hs : s.scan.valid = false) (ho : s.csr.errOffset = 0)
    (hi : s.csr.imgWidth = 0 ∧ s.csr.imgHeight = 0 ∧ s.csr.imgChannels = 0 ∧ s.csr.outLen = 0)
    (hph : s.phase = .idle ∨ s.phase = .parse .soi) : s.StreamOk where
  params := hp
  inLen := hl
  offset := by rw [ho]; exact Nat.zero_le _
  frame := fun hv => by rw [hf] at hv; cases hv
  noFrame := fun _ => hi
  scan := fun hv => by rw [hs] at hv; cases hv
  range := fun hv => by rw [hs] at hv; cases hv
  place := hph.elim State.placeOk_idle (fun h => (State.placeOk_soi h).2 ⟨hf, hs⟩)

/-- An IN_LEN write (46 R193) comes only while no place of a decode depends on IN_LEN. -/
theorem State.StreamOk.writeInLen {s : State} (h : s.StreamOk) {n : Nat} (hb : s.busy = false)
    (hn : n ≤ s.params.inMax) : State.StreamOk { s with csr := { s.csr with inLen := n } } where
  params := h.params
  inLen := hn
  offset := h.offset
  frame := h.frame
  noFrame := h.noFrame
  scan := h.scan
  range := fun _ hbusy => by cases hb.symm.trans hbusy
  place := State.placeOk_idle ((s.busy_eq_false).1 hb)

theorem HostMove.streamOk {e : HostEvent} {s t : State} (m : HostMove e s t) (h : s.StreamOk) : t.StreamOk := by
  cases m with
  | read => exact h.of_sameSetup {} h.offset id h.place
  | irqEn => exact h.of_sameSetup {} h.offset id h.place
  | start => exact .of_cleared h.params h.inLen rfl rfl rfl ⟨rfl, rfl, rfl, rfl⟩ (.inr rfl)
  | ack => exact h.of_sameSetup {} h.offset id h.place
  | inLen n hb hn => exact h.writeInLen hb hn
  | inBuf => exact h.of_sameSetup {} h.offset id h.place
  | outBuf => exact h.of_sameSetup {} h.offset id h.place
  | reset => exact .of_cleared h.params (Nat.zero_le _) rfl rfl rfl ⟨rfl, rfl, rfl, rfl⟩ (.inl rfl)

/-- Settles O52, by cases on the moves of the core and of the host (`step_cases`). -/
theorem streamInvariant : Obligations.StreamInvariant := by
  intro s t hs h
  obtain ⟨q, -, -, m⟩ | ⟨e, rest, -, m⟩ := step_cases h
  · exact m.streamOk (hs.of_host q)
  · exact m.streamOk (hs.of_host rest)

/-! The cursor of PARSE, and reset. -/

/-- Settles O59, by cases on the moves of the core: those of phase 2 and of the SOI check start elsewhere. -/
theorem cursorMovesForward : Obligations.CursorMovesForward := by
  intro s t pt hs hh hp hpt h
  have hcur := hs.place.cur_le hp hpt
  rw [step_of_host_nil hh] at h
  cases coreStep_cases h with
  | failParse _ _ _ _ c _ _ _ _ _ _ hc hlen => exact ⟨hlen hcur, hc, nofun⟩
  | advance _ _ _ c _ hc hlen => exact ⟨hlen, hc.le, fun _ => hc⟩
  | frame _ c _ hc hlen => exact ⟨hlen, hc.le, fun _ => hc⟩
  | scan r _ _ _ hfirst hstop hlen =>
    have hc : s.cur < r.stop := hfirst.trans_le hstop
    exact ⟨hlen, hc.le, fun _ => hc⟩
  | fill _ hc => exact ⟨hc.le, Nat.le_succ _, fun _ => Nat.lt_succ_self _⟩
  | endPhase1 => exact ⟨hcur, le_refl _, nofun⟩
  | soi h' => rw [hp] at h'; cases h'; exact absurd rfl hpt
  | failScan _ _ _ h' => rw [hp] at h'; exact absurd h' (by simp)
  | idle h' | phase2Start h' | dc _ _ _ h' | eob _ h' | ac _ _ _ h' | blockDone h' | mcuDone h' | finish h' =>
    rw [hp] at h'; cases h'

/-- Settles O48: nothing is recorded or accepted at reset, and the buffers list no byte. -/
theorem resetMeetsInvariants : Obligations.ResetMeetsInvariants := by
  have hstatus : State.reset.StatusOk := .of_clear rfl
  have hbuffers : State.reset.BuffersOk := ⟨.nil, .nil, .nil⟩
  have hstream : State.reset.StreamOk :=
    .of_cleared (by decide) (Nat.zero_le _) rfl rfl rfl ⟨rfl, rfl, rfl, rfl⟩ (.inl rfl)
  have hbounds : State.reset.BoundsOk := ⟨fun _ _ => rfl, fun _ _ => rfl, fun _ _ => rfl, nofun⟩
  exact ⟨hstatus, hbuffers, hstream, hbounds⟩

end Sys2Proof.Machine
end

section
/-! SUPPORT. The buffers and the registers a running decode must not have changed under it: what the core and the host
can write of them, said once, and the rules that follow (spec 20 R56, R57, R67, R69, 42 R135, 45 R181). -/

namespace Sys2Proof.Machine

/-! What the core writes of the buffers. -/

/-- `t` has the parameters, IN_LEN, IN_BUF and the powered-on bytes of `s`, and compares OUT_BUF with the same earlier
OUT_BUF. A move that writes none of these has it by the fields' defaults. -/
structure State.SameInput (s t : State) : Prop where
  params : t.params = s.params := by rfl
  inLen  : t.csr.inLen = s.csr.inLen := by rfl
  inBuf  : t.inBuf = s.inBuf := by rfl
  epoch  : t.epoch = s.epoch := by rfl
  outOld : t.outOld = s.outOld := by rfl

/-- What a move of the core does to OUT_BUF: nothing, the bytes of a finished MCU (45 R180), or the free choice of a
failure in phase 2 (45 R182). -/
inductive OutBufMove (s t : State) : Prop where
  | same : t.outBuf = s.outBuf → OutBufMove s t
  | emitted : s.phase = .decode .mcuDone → t.csr.outLen = s.csr.outLen → t.outBuf = s.outBuf.writes s.mcuCells →
      OutBufMove s t
  | settled (keep : Nat → Bool) : t.phase = .idle → t.outBuf = Memory.settle s.csr.outLen keep s.outOld s.outBuf →
      OutBufMove s t

theorem CoreMove.sameInput {s t : State} (m : CoreMove s t) : s.SameInput t := by
  cases m with
  | blockDone => obtain ⟨_, _, ⟨_, -, e⟩ | ⟨-, e⟩⟩ := s.finishBlock_cases <;> rw [e] <;> exact {}
  | _ => exact {}

theorem CoreMove.outBufMove {s t : State} (m : CoreMove s t) : OutBufMove s t := by
  cases m with
  | failScan => exact .settled _ rfl rfl
  | blockDone => obtain ⟨_, _, ⟨_, -, e⟩ | ⟨-, e⟩⟩ := s.finishBlock_cases <;> rw [e] <;> exact .same rfl
  | mcuDone h => exact .emitted h rfl rfl
  | _ => exact .same rfl

/-! The canonical form. -/

theorem OutBufMove.wf {s t : State} (m : OutBufMove s t) (h : s.outBuf.wf) : t.outBuf.wf := by
  cases m with
  | same e => rw [e]; exact h
  | emitted _ _ e => rw [e]; exact Memory.wf_writes _ _ h
  | settled _ _ e => rw [e]; exact Memory.wf_settle _ _ _ _ h

theorem CoreMove.buffersOk {s t : State} (m : CoreMove s t) (h : s.BuffersOk) : t.BuffersOk where
  input := m.sameInput.inBuf ▸ h.input
  output := m.outBufMove.wf h.output
  before := m.sameInput.outOld ▸ h.before

theorem HostMove.buffersOk {e : HostEvent} {s t : State} (m : HostMove e s t) (h : s.BuffersOk) : t.BuffersOk := by
  cases m with
  | inBuf cells => exact ⟨Memory.wf_writes _ cells h.input, h.output, h.before⟩
  | outBuf cells => exact ⟨h.input, Memory.wf_writes _ cells h.output, h.before⟩
  | start => exact ⟨h.input, h.output, h.output⟩
  | reset => exact ⟨.nil, .nil, .nil⟩
  | read | irqEn | ack | inLen => exact ⟨h.input, h.output, h.before⟩

/-- Settles O51, by cases on what the core and the host can write of the buffers (`step_cases`). -/
theorem buffersInvariant : Obligations.BuffersInvariant := by
  intro s t hs h
  obtain ⟨q, -, -, m⟩ | ⟨e, rest, -, m⟩ := step_cases h
  · exact m.buffersOk ⟨hs.input, hs.output, hs.before⟩
  · exact m.buffersOk ⟨hs.input, hs.output, hs.before⟩

/-! The bounds. -/

theorem Memory.read_writes_beyond {m : Memory} {l : List Host.Cell} {n : Nat} (h : ∀ c ∈ l, c.1 < n) {i : Nat}
    (hi : n ≤ i) : (m.writes l).read i = m.read i :=
  m.read_writes l i (fun c hc => ((h c hc).trans_le hi).ne)

/-- A finished MCU stands in an accepted frame, so it writes below OUT_LEN, and OUT_LEN fits OUT_BUF (45 R181). -/
theorem State.StreamOk.mcuCells_lt {s : State} (h : s.StreamOk) (hp : s.phase = .decode .mcuDone) :
    (∀ c ∈ s.mcuCells, c.1 < s.csr.outLen) ∧ s.csr.outLen ≤ s.params.outMax := by
  obtain ⟨hv, -⟩ := (State.placeOk_mcuDone hp).1 h.place
  obtain ⟨hf, -, -, -, hlen⟩ := h.frame (h.scan hv).1
  rw [hlen]
  exact ⟨s.mcuCells_bound hf.nf, hf.fits⟩

/-- The core changes OUT_LEN only where it was 0, at the frame header (41 R117). -/
theorem CoreMove.outLen_le {s t : State} (m : CoreMove s t) (h : s.StreamOk) : s.csr.outLen ≤ t.csr.outLen := by
  cases m with
  | frame _ _ _ _ _ hv =>
    obtain ⟨-, -, -, h0⟩ := h.noFrame hv
    rw [h0]; exact Nat.zero_le _
  | blockDone => obtain ⟨_, _, ⟨_, -, e⟩ | ⟨-, e⟩⟩ := s.finishBlock_cases <;> rw [e]
  | _ => exact le_refl _

/-- The core never takes the machine out of IDLE (70 R233). -/
theorem CoreMove.busy_of_busy {s t : State} (m : CoreMove s t) (h : t.busy = true) : s.busy = true := by
  cases m.status with
  | same e => exact e ▸ h
  | failed _ _ _ hb => exact hb
  | completed hb => exact hb

theorem CoreMove.boundsOk {s t : State} (m : CoreMove s t) (hs : s.StreamOk) (h : s.BoundsOk) : t.BoundsOk := by
  have hin := m.sameInput
  constructor
  · rw [hin.params, hin.inBuf]; exact h.input
  · rw [hin.params]
    intro i hi
    cases m.outBufMove with
    | same e => rw [e]; exact h.output i hi
    | emitted hp _ e =>
      obtain ⟨hc, hle⟩ := hs.mcuCells_lt hp
      rw [e, Memory.read_writes_beyond hc (hle.trans hi)]; exact h.output i hi
    | settled keep _ e => rw [e]; exact Memory.settle_unlisted _ _ _ _ i (h.output i hi) (.inr (h.before i hi))
  · rw [hin.params, hin.outOld]; exact h.before
  · intro hb i hi
    have hbeyond := h.beyond (m.busy_of_busy hb) i ((m.outLen_le hs).trans hi)
    rw [hin.outOld, ← hbeyond]
    cases m.outBufMove with
    | same e => rw [e]
    | emitted hp he e => rw [e, Memory.read_writes_beyond (hs.mcuCells_lt hp).1 (he ▸ hi)]
    | settled _ ht => exact absurd ht ((t.busy_eq_true).1 hb)

theorem HostMove.boundsOk {e : HostEvent} {s t : State} (m : HostMove e s t) (hp : s.params.legal) (h : s.BoundsOk) :
    t.BoundsOk := by
  cases m with
  | inBuf cells _ hc =>
    refine ⟨fun i hi => ?_, h.output, h.before, h.beyond⟩
    exact (Memory.read_writes_beyond (hc hp) hi).trans (h.input i hi)
  | outBuf cells hb hc =>
    refine ⟨h.input, fun i hi => ?_, h.before, fun hb' => by cases hb.symm.trans hb'⟩
    exact (Memory.read_writes_beyond (hc hp) hi).trans (h.output i hi)
  | start => exact ⟨h.input, h.output, h.output, fun _ _ _ => rfl⟩
  | reset => exact ⟨fun _ _ => rfl, fun _ _ => rfl, fun _ _ => rfl, fun _ _ _ => rfl⟩
  | read | irqEn | ack | inLen => exact ⟨h.input, h.output, h.before, h.beyond⟩

/-- Settles O53, by cases on what the core and the host can write of the buffers (`step_cases`). -/
theorem boundsInvariant : Obligations.BoundsInvariant := by
  intro s t hs hb h
  obtain ⟨q, -, -, m⟩ | ⟨e, rest, -, m⟩ := step_cases h
  · exact m.boundsOk (hs.of_host q) ⟨hb.input, hb.output, hb.before, hb.beyond⟩
  · exact m.boundsOk hs.params ⟨hb.input, hb.output, hb.before, hb.beyond⟩

/-! What stays as it is while busy. -/

/-- `t` has the tables, the frame and scan registers and the image CSRs of `s`. A move that writes none of these has it
by the fields' defaults. -/
structure State.SameSettings (s t : State) : Prop where
  qt          : t.qt = s.qt := by rfl
  htDc        : t.htDc = s.htDc := by rfl
  htAc        : t.htAc = s.htAc := by rfl
  frame       : t.frame = s.frame := by rfl
  scan        : t.scan = s.scan := by rfl
  imgWidth    : t.csr.imgWidth = s.csr.imgWidth := by rfl
  imgHeight   : t.csr.imgHeight = s.csr.imgHeight := by rfl
  imgChannels : t.csr.imgChannels = s.csr.imgChannels := by rfl
  outLen      : t.csr.outLen = s.csr.outLen := by rfl

/-- The moves of phase 2 write no table, frame or scan register and no image CSR (42 R135). -/
theorem CoreMove.sameSettings {s t : State} {d : DecodeAt} (m : CoreMove s t) (hp : s.phase = .decode d) :
    s.SameSettings t := by
  cases m with
  | idle | phase2Start | failScan | dc | eob | ac | mcuDone | finish => exact {}
  | blockDone => obtain ⟨_, _, ⟨_, -, e⟩ | ⟨-, e⟩⟩ := s.finishBlock_cases <;> rw [e] <;> exact {}
  | failParse _ _ _ _ _ _ _ _ h | soi h | advance _ _ _ _ h | frame _ _ h | scan _ h | fill h | endPhase1 h =>
    rw [hp] at h; cases h

/-- While busy the host's accesses reach IRQ_EN, the status flags and the read latch only (20 R67). -/
theorem HostMove.same_of_busy {e : HostEvent} {s t : State} (m : HostMove e s t) (hb : s.busy = true)
    (he : e ≠ .reset) : s.SameInput t ∧ s.SameSettings t := by
  cases m with
  | read | irqEn | ack => exact ⟨{}, {}⟩
  | start _ _ _ _ _ h | inLen _ h | inBuf _ h | outBuf _ h => cases h.symm.trans hb
  | reset h => exact absurd h he

theorem State.SameInput.of_host {s t : State} {q : List HostSlot} (h : State.SameInput { s with host := q } t) :
    s.SameInput t := ⟨h.params, h.inLen, h.inBuf, h.epoch, h.outOld⟩

theorem State.SameSettings.of_host {s t : State} {q : List HostSlot} (h : State.SameSettings { s with host := q } t) :
    s.SameSettings t :=
  ⟨h.qt, h.htDc, h.htAc, h.frame, h.scan, h.imgWidth, h.imgHeight, h.imgChannels, h.outLen⟩

/-- Settles O56: the core keeps the input always and the settings in phase 2; while busy a host access keeps both. -/
theorem fixedWhileBusy : Obligations.FixedWhileBusy := by
  intro s t hb hr h
  have key : s.SameInput t ∧ ∀ d, s.phase = .decode d → s.SameSettings t := by
    obtain ⟨q, -, -, m⟩ | ⟨e, rest, hh, m⟩ := step_cases h
    · exact ⟨m.sameInput.of_host, fun d hp => (m.sameSettings (d := d) hp).of_host⟩
    · obtain ⟨hin, hset⟩ := m.same_of_busy hb (fun he => hr rest (he ▸ hh))
      exact ⟨hin.of_host, fun _ _ => hset.of_host⟩
  obtain ⟨hin, hset⟩ := key
  refine ⟨hin.inBuf, hin.inLen, hin.params, hin.epoch, fun d hp => ?_⟩
  obtain ⟨hq, hd, ha, hf, hs, hw, hh, hc, hl⟩ := hset d hp
  exact ⟨hq, hd, ha, hf, hs, hw, hh, hc, hl⟩

end Sys2Proof.Machine
end

section
/-! SUPPORT. The host accesses that are not performed (spec 20 R58, R61) and the CSRs that ignore writes (46 R197). -/

namespace Sys2Proof.Machine

theorem ignoredAccess_read {a : Access} (h : a.dir = .read) (s : State) :
    ignoredAccess a s = { s with rdata := 0 } := by
  simp only [ignoredAccess, h, State.answer]

theorem ignoredAccess_write {a : Access} (h : a.dir = .write) (s : State) :
    ignoredAccess a s = s := by
  simp only [ignoredAccess, h]

/-- A CSR access that is not an aligned word is not performed (20 R61). -/
theorem csrAccess_refused {lane : BitVec 2} {a : Access} (h : a.width ≠ .four ∨ lane ≠ 0) (rd : Word)
    (wr : State → State) (s : State) : csrAccess lane a rd wr s = ignoredAccess a s := by
  have hf : ¬ csrForm lane a := fun ⟨hw, hl⟩ => h.elim (· hw) (· hl)
  rw [csrAccess, if_neg hf]

/-- A buffer access of 2 bytes or of 4 misaligned bytes is in neither of the forms 20 R61 allows. -/
theorem not_bufferForm {a : Access} {k : Nat} (h : a.width = .two ∨ a.width = .four ∧ k % 4 ≠ 0) :
    ¬ byteForm a ∧ ¬ wordForm k a := by
  rcases h with h | ⟨h, hk⟩
  · simp [byteForm, wordForm, h]
  · simp [byteForm, wordForm, h, hk]

theorem loadedWord_refused {a : Access} {k : Nat} (h : ¬ byteForm a ∧ ¬ wordForm k a) (rd : Nat → Byte) :
    loadedWord rd k a = 0 := by
  rw [loadedWord, if_neg h.1, if_neg h.2]

theorem storedBytes_refused {a : Access} {k : Nat} (h : ¬ byteForm a ∧ ¬ wordForm k a) : storedBytes k a = [] := by
  rw [storedBytes, if_neg h.1, if_neg h.2]

theorem execInbuf_refused {a : Access} {k : BitVec 24} (h : ¬ byteForm a ∧ ¬ wordForm k.toNat a) (s : State) :
    execInbuf k a s = .next (ignoredAccess a s) := by
  unfold execInbuf
  cases hd : a.dir with
  | read => simp only [loadedWord_refused h, ignoredAccess, hd]
  | write =>
    simp only [storedBytes_refused h, ignoredAccess, hd]
    split <;> rfl

theorem execOutbuf_refused {a : Access} {k : BitVec 24} (h : ¬ byteForm a ∧ ¬ wordForm k.toNat a) (s : State) :
    execOutbuf k a s = .next (ignoredAccess a s) := by
  unfold execOutbuf
  cases hd : a.dir with
  | read =>
    have hdraw : ¬ (s.busy = true ∧ (byteForm a ∨ wordForm k.toNat a)) := fun ⟨_, hf⟩ => hf.elim h.1 h.2
    simp only [loadedWord_refused h, ignoredAccess, hd, if_neg hdraw]
    rfl
  | write =>
    simp only [storedBytes_refused h, ignoredAccess, hd]
    split <;> rfl

/-- Every refused form is an ignored access. -/
theorem exec_refusedForm {i : Instr} {a : Access} (h : i.RefusedForm a) (s : State) :
    exec i s = .next (ignoredAccess a s) := by
  cases i
  case csrRsvd | unmapped => cases h; rfl
  case inbuf k b => obtain ⟨rfl, h⟩ := h; exact execInbuf_refused (not_bufferForm h) s
  case outbuf k b => obtain ⟨rfl, h⟩ := h; exact execOutbuf_refused (not_bufferForm h) s
  case csrId | csrCtrl | csrStatus | csrInLen | csrErrOffset | csrErrMarker | csrImgWidth | csrImgHeight
      | csrImgChannels | csrOutLen =>
    obtain ⟨rfl, h⟩ := h
    exact congrArg Host.Outcome.next (csrAccess_refused h _ _ s)
  all_goals exact h.elim

/-- Settles O44: a refused form is an ignored access (`exec_refusedForm`), and a read-only CSR writes nothing. -/
theorem ignoredAccesses : Obligations.IgnoredAccesses := by
  refine ⟨fun i a s h => ?_, fun v s => ⟨rfl, rfl, rfl, rfl, rfl, rfl, rfl⟩⟩
  rw [exec_refusedForm h s]
  exact ⟨fun hd => by rw [ignoredAccess_read hd], fun hd => by rw [ignoredAccess_write hd]⟩

end Sys2Proof.Machine
end

section
/-! SUPPORT. What a core step depends on (spec 20 R67, R69): every meaning and every place of the sequencer is the same
function under any other IN_BUF that agrees below IN_LEN, any other host queue and any other read latch. -/

namespace Sys2Proof.Machine

/-! The state under another outside. -/

/-- What stands outside the core: IN_BUF, the host's events still to come and the read latch. -/
structure Outside where
  inBuf : Memory
  host  : List HostSlot
  rdata : Word

/-- The state with the outside replaced. -/
def State.under (s : State) (o : Outside) : State := { s with inBuf := o.inBuf, host := o.host, rdata := o.rdata }

/-- Every register of the core stays. -/
@[simp] theorem State.under_fields (s : State) (o : Outside) :
    (s.under o).params = s.params ∧
    (s.under o).csr = s.csr ∧
    (s.under o).phase = s.phase ∧
    (s.under o).cur = s.cur ∧
    (s.under o).qt = s.qt ∧
    (s.under o).htDc = s.htDc ∧
    (s.under o).htAc = s.htAc ∧
    (s.under o).frame = s.frame ∧
    (s.under o).scan = s.scan ∧
    (s.under o).pred = s.pred ∧
    (s.under o).br = s.br ∧
    (s.under o).mcu = s.mcu ∧
    (s.under o).blk = s.blk ∧
    (s.under o).zz = s.zz ∧
    (s.under o).coef = s.coef ∧
    (s.under o).plane = s.plane ∧
    (s.under o).outBuf = s.outBuf ∧
    (s.under o).outOld = s.outOld ∧
    (s.under o).freeIdx = s.freeIdx ∧
    (s.under o).epoch = s.epoch := by
  refine ⟨?_, ?_, ?_, ?_, ?_, ?_, ?_, ?_, ?_, ?_, ?_, ?_, ?_, ?_, ?_, ?_, ?_, ?_, ?_, ?_⟩ <;> rfl

/-- The outcome with the outside of its next state replaced. -/
def nextUnder (o : Outside) : Host.Outcome State Fault Refusal → Host.Outcome State Fault Refusal
  | .next t => .next (t.under o)
  | .fault r => .fault r
  | .refused r => .refused r

/-- `o` has the stream of `s`, and in phase 2 the scan data lies inside the stream. -/
structure State.Agrees (s : State) (o : Outside) : Prop where
  byte : ∀ i, i < s.csr.inLen → (s.under o).inByte i = s.inByte i
  scan : ∀ d, s.phase = .decode d → s.scan.stop ≤ s.csr.inLen

theorem State.Agrees.stream {s : State} {o : Outside} (h : s.Agrees o) : SameStream s (s.under o) := ⟨rfl, h.byte⟩

theorem State.Agrees.scanByte {s : State} {o : Outside} (h : s.Agrees o) {d : DecodeAt} (hp : s.phase = .decode d) :
    ∀ i, i < s.scan.stop → (s.under o).inByte i = s.inByte i :=
  fun i hi => h.byte i (hi.trans_le (h.scan d hp))

/-! Markers. -/

section
variable {s : State} {o : Outside}

theorem atMarker_under {pre post : State → State} (h1 : pre (s.under o) = (pre s).under o)
    (h2 : post (s.under o) = (post s).under o) :
    atMarker pre post (s.under o) = nextUnder o (atMarker pre post s) := by
  simp only [atMarker, State.under_fields, h1, h2]
  rcases s.phase with _ | (_ | _ | _) | _ <;> rfl

theorem segment_under (h : s.Agrees o) (code : Byte) {body : Nat → List Byte → Nat → State → State}
    (hb : ∀ p e, body s.cur p e (s.pastMarker.under o) = (body s.cur p e s.pastMarker).under o) :
    segment code body (s.under o) = (segment code body s).under o := by
  simp only [segment, State.under_fields, h.stream.segLength]
  cases hs : s.segLength (s.cur + 2) with
  | none => rfl
  | some lh => simp only [h.stream.payload _ _ hs]; exact hb _ _

theorem afterTerminator_under (h : s.Agrees o) (code : Byte) :
    (s.under o).afterTerminator code = s.afterTerminator code := by
  simp only [State.afterTerminator, State.under_fields, h.stream.segLength]

theorem walkForSos_under (h : s.Agrees o) (code : Byte) :
    walkForSos code (s.under o) = (walkForSos code s).under o := by
  have hw : (s.under o).walk = s.walk := funext h.stream.walk
  unfold walkForSos
  rw [afterTerminator_under h, hw]
  cases (s.afterTerminator code).bind s.walk <;> rfl

theorem dqtDefs_under (moff segend fuel : Nat) (p : List Byte) (s : State) :
    afterDefs segend (dqtDefs moff fuel p (s.under o)) = (afterDefs segend (dqtDefs moff fuel p s)).under o := by
  induction fuel generalizing p s with
  | zero => cases p <;> rfl
  | succ fuel ih =>
    cases p with
    | nil => rfl
    | cons b q =>
      unfold dqtDefs
      cases dqtDef (b :: q) with
      | error kind => rfl
      | ok d => exact ih d.rest (s.setQuant d.slot d.vals)

theorem setHuff_under (d : DhtDef) : (s.under o).setHuff d = (s.setHuff d).under o := by
  unfold State.setHuff State.setHt
  cases d.cls <;> rfl

theorem dhtDefs_under (moff segend fuel : Nat) (p : List Byte) (s : State) :
    afterDefs segend (dhtDefs moff fuel p (s.under o)) = (afterDefs segend (dhtDefs moff fuel p s)).under o := by
  induction fuel generalizing p s with
  | zero => cases p <;> rfl
  | succ fuel ih =>
    cases p with
    | nil => rfl
    | cons b q =>
      unfold dhtDefs
      cases dhtDef (b :: q) with
      | error kind => rfl
      | ok d =>
        simp only [setHuff_under]
        exact ih d.rest (s.setHuff d)

theorem acceptScan_under (h : s.Agrees o) (comps : List ScanComp) (e : Nat) :
    (s.under o).acceptScan comps e = (s.acceptScan comps e).under o := by
  unfold State.acceptScan
  rw [h.stream.scanEnd]
  rfl

/-- Every marker means the same (41 R100 to R128). -/
theorem exec_marker_under (h : s.Agrees o) {i : Instr} (hi : i.format = .marker) :
    exec i (s.under o) = nextUnder o (exec i s) := by
  have skip (code : Byte) : atMarker (skipSegment code) (walkForSos code) (s.under o) =
      nextUnder o (atMarker (skipSegment code) (walkForSos code) s) :=
    atMarker_under (segment_under h code fun _ _ => rfl) (walkForSos_under h code)
  have unsupported (code : Byte) : atMarker (unsupportedSegment code) (walkForSos code) (s.under o) =
      nextUnder o (atMarker (unsupportedSegment code) (walkForSos code) s) :=
    atMarker_under (segment_under h code fun _ _ => rfl) (walkForSos_under h code)
  cases i
  case stuff00 =>
    simp only [exec, execStuff00, State.under_fields]
    rcases s.phase with _ | _ | (_ | _ | _ | _ | _ | _)
    case decode.dc => cases s.br.bcnt <;> rfl
    case decode.ac => cases s.br.bcnt <;> rfl
    all_goals exact atMarker_under rfl rfl
  case soi =>
    simp only [exec, execSoi, State.under_fields]
    rcases s.phase with _ | (_ | _ | _) | _
    case parse.soi => rfl
    all_goals exact atMarker_under rfl rfl
  case sof0 =>
    refine atMarker_under (segment_under h _ fun p e => ?_) (walkForSos_under h _)
    simp only [State.under_fields]
    cases sofParse s.pastMarker.frame.valid s.pastMarker.params.outMax p <;> rfl
  case sos =>
    refine atMarker_under (segment_under h _ fun p e => ?_) rfl
    have hq : sosParse (s.pastMarker.under o) p = sosParse s.pastMarker p := rfl
    rw [hq]
    cases sosParse s.pastMarker p with
    | error kind => rfl
    | ok comps => exact acceptScan_under (s := s.pastMarker) ⟨h.byte, h.scan⟩ comps e
  case dqt => exact atMarker_under (segment_under h _ fun p e => dqtDefs_under _ _ _ _ _) (walkForSos_under h _)
  case dht => exact atMarker_under (segment_under h _ fun p e => dhtDefs_under _ _ _ _ _) (walkForSos_under h _)
  case tem => exact atMarker_under rfl (walkForSos_under h _)
  case fill | rstm | eoi => exact atMarker_under rfl rfl
  case res | jpg | dhp | exp | appn | jpgn | com => exact skip _
  case sof1 | sof2 | sof3 | sof5 | sof6 | sof7 | sof9 | sof10 | sof11 | sof13 | sof14 | sof15 | dac | dri | dnl =>
    exact unsupported _
  all_goals cases hi

/-! Symbols. -/

theorem withRaw_under (h : s.Agrees o) {d : DecodeAt} (hp : s.phase = .decode d) (n : Nat) {f : Nat → State → State}
    (hf : ∀ v t, f v (t.under o) = (f v t).under o) : (s.under o).withRaw n f = (s.withRaw n f).under o := by
  simp only [State.withRaw, State.under_fields, BitReader.readBits_congr (h.scanByte hp)]
  cases s.br.readBits s.inByte s.scan.stop n with
  | fail b => rfl
  | ok v b => exact hf v { s with br := b }

theorem atDc_under {f : State → State} (hf : s.phase = .decode .dc → f (s.under o) = (f s).under o) :
    atDc f (s.under o) = nextUnder o (atDc f s) := by
  simp only [atDc, State.under_fields]
  split
  next h => rw [hf h]; rfl
  next => rfl

theorem atAc_under {f : State → State} (hf : s.phase = .decode .ac → f (s.under o) = (f s).under o) :
    atAc f (s.under o) = nextUnder o (atAc f s) := by
  simp only [atAc, State.under_fields]
  split
  next h => rw [hf h]; rfl
  next => rfl

theorem acCoef_under (h : s.Agrees o) (hp : s.phase = .decode .ac) (run size : Nat) :
    State.acCoef run size (s.under o) = (State.acCoef run size s).under o := by
  simp only [State.acCoef, State.under_fields]
  split
  · rfl
  · exact withRaw_under h hp size (fun _ _ => rfl)

/-- Every symbol means the same (43 R150 to R155). -/
theorem exec_symbol_under (h : s.Agrees o) {i : Instr} (hi : i.format = .dcsym ∨ i.format = .acsym) :
    exec i (s.under o) = nextUnder o (exec i s) := by
  cases i
  case dcZero => simp only [exec, execDcZero]; exact atDc_under fun _ => rfl
  case dcDiff size =>
    simp only [exec, execDcDiff]
    exact atDc_under fun hp => withRaw_under (s := s.clearZz) ⟨h.byte, h.scan⟩ hp _ fun _ _ => rfl
  case dcBad => simp only [exec, execDcBad]; exact atDc_under fun _ => rfl
  case eob => simp only [exec, execEob]; exact atAc_under fun _ => rfl
  case zrl =>
    simp only [exec, execZrl]
    refine atAc_under fun _ => ?_
    simp only [State.under_fields]
    split <;> rfl
  case acR0 run => simp only [exec, execAcR0]; exact atAc_under fun hp => acCoef_under h hp _ _
  case acRs run size => simp only [exec, execAcRs]; exact atAc_under fun hp => acCoef_under h hp _ _
  all_goals exact absurd hi (by simp [Instr.format])

/-! The sequencer. -/

/-- The sequencer finds the same: an item of the stream, in a state with the same stream, or the same step. -/
inductive FetchedUnder (o : Outside) : Fetched → Fetched → Prop where
  | item (i : Instr) (s : State) : i.format ≠ .hostacc → s.Agrees o →
      FetchedUnder o (.item i s) (.item i (s.under o))
  | plain (s : State) : FetchedUnder o (.plain s) (.plain (s.under o))

theorem markerAt_under (h : s.Agrees o) (w : BitVec 16) (off : Nat) :
    FetchedUnder o (s.markerAt w off) ((s.under o).markerAt w off) := by
  unfold State.markerAt decodeMarker
  by_cases hw : w.extractLsb' 8 8 = 0xFF
  · rw [if_pos hw]
    exact .item _ s (by rw [decodeMarkerCode_format]; decide) h
  · rw [if_neg hw]
    exact .plain _

theorem fetchSoi_under (h : s.Agrees o) : FetchedUnder o s.fetchSoi (s.under o).fetchSoi := by
  simp only [State.fetchSoi, State.under_fields]
  split
  · exact .plain _
  · rw [h.byte 0 (by omega), h.byte 1 (by omega)]; exact markerAt_under h _ _

theorem fetchMarker_under (h : s.Agrees o) : FetchedUnder o s.fetchMarker (s.under o).fetchMarker := by
  simp only [State.fetchMarker, State.under_fields]
  split
  · exact .plain _
  split
  · exact .plain _
  · rw [h.byte s.cur (by omega), h.byte (s.cur + 1) (by omega)]; exact markerAt_under h _ _

theorem fetchTerminator_under (h : s.Agrees o) : FetchedUnder o s.fetchTerminator (s.under o).fetchTerminator := by
  simp only [State.fetchTerminator, State.under_fields]
  split
  · exact .plain _
  split
  · exact .plain _
  · rw [h.byte (s.cur + 1) (by omega)]; exact markerAt_under h _ _

theorem fetchSymbol_under (h : s.Agrees o) {d : DecodeAt} (hp : s.phase = .decode d) (t : HuffTable)
    {dec : Byte → Instr} (hd : ∀ b, (dec b).format ≠ .hostacc) :
    FetchedUnder o (s.fetchSymbol t dec) ((s.under o).fetchSymbol t dec) := by
  simp only [State.fetchSymbol, State.under_fields, t.decodeSym_congr (h.scanByte hp)]
  cases t.decodeSym s.inByte s.scan.stop s.br with
  | fail b => exact .plain _
  | ok sym b => exact .item _ { s with br := b } (hd sym) ⟨h.byte, h.scan⟩

theorem decodeDcSym_format (b : Byte) : (decodeDcSym b).format = .dcsym := by
  unfold decodeDcSym
  split <;> [rfl; (split <;> rfl)]

theorem decodeAcSym_format (b : Byte) : (decodeAcSym b).format = .acsym := by
  unfold decodeAcSym
  dsimp only
  split <;> [rfl; (split <;> [rfl; (split <;> rfl)])]

theorem finishBlock_under (s : State) (o : Outside) : (s.under o).finishBlock = s.finishBlock.under o := by
  simp only [State.finishBlock, State.under_fields]
  cases s.frame.nextBlock s.blk <;> rfl

/-- At every place the sequencer finds the same. -/
theorem fetch_under (h : s.Agrees o) : FetchedUnder o s.fetch (s.under o).fetch := by
  cases hp : s.phase with
  | idle => rw [fetch_idle hp, fetch_idle (s := s.under o) hp]; exact .plain _
  | parse pt =>
    cases pt with
    | soi => rw [fetch_soi hp, fetch_soi (s := s.under o) hp]; exact fetchSoi_under h
    | marker => rw [fetch_marker hp, fetch_marker (s := s.under o) hp]; exact fetchMarker_under h
    | term => rw [fetch_term hp, fetch_term (s := s.under o) hp]; exact fetchTerminator_under h
  | decode d =>
    cases d with
    | start => rw [fetch_start hp, fetch_start (s := s.under o) hp]; exact .plain _
    | dc =>
      rw [fetch_dc hp, fetch_dc (s := s.under o) hp]
      exact fetchSymbol_under (s := s.clearZz) ⟨h.byte, h.scan⟩ hp _ (fun b => by rw [decodeDcSym_format]; decide)
    | ac =>
      rw [fetch_ac hp, fetch_ac (s := s.under o) hp]
      exact fetchSymbol_under h hp _ (fun b => by rw [decodeAcSym_format]; decide)
    | blockDone =>
      rw [fetch_blockDone hp, fetch_blockDone (s := s.under o) hp, finishBlock_under]; exact .plain _
    | mcuDone => rw [fetch_mcuDone hp, fetch_mcuDone (s := s.under o) hp]; exact .plain _
    | finish => rw [fetch_finish hp, fetch_finish (s := s.under o) hp]; exact .plain _

/-- An item of the stream means the same. -/
theorem exec_under (h : s.Agrees o) {i : Instr} (hi : i.format ≠ .hostacc) :
    exec i (s.under o) = nextUnder o (exec i s) := by
  cases hf : i.format with
  | marker => exact exec_marker_under h hf
  | dcsym => exact exec_symbol_under h (.inl hf)
  | acsym => exact exec_symbol_under h (.inr hf)
  | hostacc => exact absurd hf hi

theorem coreStep_under (h : s.Agrees o) : coreStep (s.under o) = nextUnder o (coreStep s) := by
  have hf := fetch_under h
  unfold coreStep
  generalize s.fetch = f at hf
  generalize (s.under o).fetch = g at hf
  cases hf with
  | item i u hi hu => exact exec_under hu hi
  | plain u => rfl

end

/-! The rule. -/

/-- In phase 2 a scan is accepted. -/
theorem State.PlaceOk.scan_valid {s : State} (h : s.PlaceOk) {d : DecodeAt} (hp : s.phase = .decode d) :
    s.scan.valid = true := by
  cases d with
  | start => exact (State.placeOk_start hp).1 h
  | dc => exact ((State.placeOk_dc hp).1 h).1
  | ac => exact ((State.placeOk_ac hp).1 h).1
  | blockDone => exact ((State.placeOk_blockDone hp).1 h).1
  | mcuDone => exact ((State.placeOk_mcuDone hp).1 h).1
  | finish => exact ((State.placeOk_finish hp).1 h).1

theorem State.StreamOk.scan_inside {s : State} (h : s.StreamOk) {d : DecodeAt} (hp : s.phase = .decode d) :
    s.scan.stop ≤ s.csr.inLen :=
  (h.range (h.place.scan_valid hp) (State.busy_of_phase hp nofun)).2

/-- Settles O55: the core step commutes with replacing the outside (`coreStep_under`). -/
theorem coreReadsOnlyTheStream : Obligations.CoreReadsOnlyTheStream := by
  intro s t m h r hs hb ht
  have ha : s.Agrees ⟨m, h, r⟩ := ⟨hb, fun _ hp => hs.scan_inside hp⟩
  have e := coreStep_under ha
  rw [ht] at e
  exact e

end Sys2Proof.Machine
end

section
/-! SUPPORT. The decoder and the encoder are inverse to each other, format by format (spec 30 R70 to R85): what each
table answers is an item that encodes to the word it was read from, and what a well-formed item encodes to is read back
as that item. -/

namespace Sys2Proof

/-- `i` is a well-formed item of format `f`, and `l` is its encoding (30 R70). -/
def Instr.IsItem (p : Params) (f : Format) (l : List Byte) (i : Instr) : Prop :=
  i.format = f ∧ i.wf p = true ∧ encode i = l

/-! Bit fields. -/

theorem eq_ofNat_of_toNat_eq {w n : Nat} {x : BitVec w} (h : x.toNat = n) : x = BitVec.ofNat w n := by
  rw [← h, BitVec.ofNat_toNat, BitVec.setWidth_eq]

theorem toNat_append_eq {m n : Nat} (hi : BitVec m) (lo : BitVec n) :
    (hi ++ lo).toNat = hi.toNat * 2 ^ n + lo.toNat := by
  rw [BitVec.toNat_append, ← Nat.shiftLeft_add_eq_or_of_lt lo.isLt, Nat.shiftLeft_eq]

/-- A word whose upper bits are `hi` is `hi` followed by its lower bits. -/
theorem append_setWidth_of_div {m n : Nat} {hi : BitVec m} {x : BitVec (m + n)} (h : x.toNat / 2 ^ n = hi.toNat) :
    hi ++ x.setWidth n = x := by
  apply BitVec.eq_of_toNat_eq
  rw [toNat_append_eq, BitVec.toNat_setWidth, ← h, Nat.div_add_mod']

/-- A word whose upper bits are 0 is its lower bits, extended. -/
theorem setWidth_setWidth_of_lt {v w : Nat} {x : BitVec w} (h : x.toNat < 2 ^ v) :
    (x.setWidth v).setWidth w = x := by
  apply BitVec.eq_of_toNat_eq
  rw [BitVec.toNat_setWidth, BitVec.toNat_setWidth, Nat.mod_eq_of_lt h, Nat.mod_eq_of_lt x.isLt]

/-! Markers (30 R71, R73). -/

theorem decode_marker (p : Params) (hi lo : Byte) :
    decode p .marker [hi, lo] = if hi = 0xFF then .ok (decodeMarkerCode lo) else .error .notMarker := by
  rw [decode, decodeMarker, BitVec.extractLsb'_append_eq_left, BitVec.setWidth_append_eq_right]

/-- The parametric rows of 30 R73 are the ranges the fixed rows leave: RES, RST, APP and JPG. -/
theorem decodeMarkerCode_isItem (p : Params) (c : Byte) :
    (decodeMarkerCode c).IsItem p .marker [0xFF, c] := by
  unfold decodeMarkerCode
  split
  case h_29 =>
    simp only [imp_false] at *
    split_ifs with hres hrst happ
    · exact ⟨rfl, decide_eq_true (by omega), rfl⟩
    · have hb : 0b11010#5 ++ c.setWidth 3 = c := append_setWidth_of_div (show _ = 26 by omega)
      exact ⟨rfl, rfl, congrArg ([0xFF, ·]) hb⟩
    · have hb : 0xE#4 ++ c.setWidth 4 = c := append_setWidth_of_div (show _ = 14 by omega)
      exact ⟨rfl, rfl, congrArg ([0xFF, ·]) hb⟩
    · have hb : 0xF#4 ++ c.setWidth 4 = c := append_setWidth_of_div (show _ = 15 by omega)
      have hn : (c.setWidth 4).toNat ≤ 13 := by rw [BitVec.toNat_setWidth]; omega
      exact ⟨rfl, decide_eq_true hn, congrArg ([0xFF, ·]) hb⟩
  all_goals
    rename_i h
    rw [eq_ofNat_of_toNat_eq h]
    exact ⟨rfl, rfl, rfl⟩

theorem decodeMarkerCode_res {c : Byte} (h : 0x02 ≤ c.toNat ∧ c.toNat ≤ 0xBF) : decodeMarkerCode c = .res c := by
  unfold decodeMarkerCode
  split
  case h_29 => exact if_pos h.2
  all_goals omega

theorem decodeMarkerCode_rstm : ∀ m : BitVec 3, decodeMarkerCode (0b11010#5 ++ m) = .rstm m := by decide

theorem decodeMarkerCode_appn : ∀ n : BitVec 4, decodeMarkerCode (0xE#4 ++ n) = .appn n := by decide

theorem decodeMarkerCode_jpgn : ∀ n : BitVec 4, n.toNat ≤ 13 → decodeMarkerCode (0xF#4 ++ n) = .jpgn n := by
  decide

/-! Symbols (30 R82, R83). -/

theorem decodeDcSym_isItem (p : Params) (sym : Byte) : (decodeDcSym sym).IsItem p .dcsym [sym] := by
  unfold decodeDcSym
  split_ifs with h0 h1
  · rw [eq_ofNat_of_toNat_eq h0]
    exact ⟨rfl, rfl, rfl⟩
  · have hn : (sym.setWidth 4).toNat = sym.toNat := by rw [BitVec.toNat_setWidth, Nat.mod_eq_of_lt (by omega)]
    exact ⟨rfl, decide_eq_true (by omega), congrArg ([·]) (setWidth_setWidth_of_lt (by omega))⟩
  · exact ⟨rfl, decide_eq_true (by omega), rfl⟩

theorem decodeDcSym_dcDiff : ∀ size : BitVec 4, 1 ≤ size.toNat ∧ size.toNat ≤ 11 →
    decodeDcSym (size.setWidth 8) = .dcDiff size := by decide

theorem decodeDcSym_dcBad {sym : Byte} (h : 12 ≤ sym.toNat) : decodeDcSym sym = .dcBad sym := by
  rw [decodeDcSym, if_neg (by omega), if_neg (by omega)]

/-- A byte is its two halves. -/
theorem append_nibbles (b : Byte) : b.extractLsb' 4 4 ++ b.setWidth 4 = b := by
  rw [BitVec.setWidth_eq_extractLsb' (by decide)]
  exact BitVec.extractLsb'_append_extractLsb'

theorem decodeAcSym_isItem (p : Params) (sym : Byte) : (decodeAcSym sym).IsItem p .acsym [sym] := by
  unfold decodeAcSym
  dsimp only
  split_ifs with heob hzrl hr0
  · rw [eq_ofNat_of_toNat_eq heob]
    exact ⟨rfl, rfl, rfl⟩
  · rw [eq_ofNat_of_toNat_eq hzrl]
    exact ⟨rfl, rfl, rfl⟩
  · have hs : sym.extractLsb' 4 4 ++ 0#4 = sym := by
      rw [← eq_ofNat_of_toNat_eq hr0]
      exact append_nibbles sym
    have hn := congrArg BitVec.toNat hs
    rw [toNat_append_eq, BitVec.toNat_ofNat] at hn
    exact ⟨rfl, decide_eq_true (by omega), congrArg ([·]) hs⟩
  · exact ⟨rfl, decide_eq_true (by omega), congrArg ([·]) (append_nibbles sym)⟩

theorem decodeAcSym_acR0 : ∀ run : BitVec 4, 1 ≤ run.toNat ∧ run.toNat ≤ 14 →
    decodeAcSym (run ++ 0#4) = .acR0 run := by decide

theorem decodeAcSym_acRs : ∀ run size : BitVec 4, 1 ≤ size.toNat →
    decodeAcSym (run ++ size) = .acRs run size := by decide

/-! Host accesses (10 R22, 20 R58, 30 R85; the bytes are the model's layout, log 14). -/

theorem wordOfBytes_bytesOfWord (w : Word) :
    wordOfBytes (w.setWidth 8) (w.extractLsb' 8 8) (w.extractLsb' 16 8) (w.extractLsb' 24 8) = w := by
  rw [wordOfBytes, BitVec.setWidth_eq_extractLsb' (by decide),
    BitVec.extractLsb'_append_extractLsb'_eq_extractLsb' (show 24 = 16 + 8 from rfl),
    BitVec.extractLsb'_append_extractLsb'_eq_extractLsb' (show 16 = 8 + 8 from rfl),
    BitVec.extractLsb'_append_extractLsb'_eq_extractLsb' (show 8 = 0 + 8 from rfl)]
  exact BitVec.extractLsb'_eq_self

theorem bytesOfWord_wordOfBytes (b0 b1 b2 b3 : Byte) : bytesOfWord (wordOfBytes b0 b1 b2 b3) = [b0, b1, b2, b3] := by
  have h0 : (b3 ++ b2 ++ b1 ++ b0).setWidth 8 = b0 := BitVec.setWidth_append_eq_right
  have h1 : (b3 ++ b2 ++ b1 ++ b0).extractLsb' 8 8 = b1 := by
    rw [BitVec.extractLsb'_append_eq_of_le (by decide), BitVec.extractLsb'_append_eq_right]
  have h2 : (b3 ++ b2 ++ b1 ++ b0).extractLsb' 16 8 = b2 := by
    rw [BitVec.extractLsb'_append_eq_of_le (by decide), BitVec.extractLsb'_append_eq_of_le (by decide),
      BitVec.extractLsb'_append_eq_right]
  have h3 : (b3 ++ b2 ++ b1 ++ b0).extractLsb' 24 8 = b3 := by
    rw [BitVec.extractLsb'_append_eq_of_le (by decide), BitVec.extractLsb'_append_eq_of_le (by decide),
      BitVec.extractLsb'_append_eq_left]
  exact congr (congrArg _ h0) (congr (congrArg _ h1) (congr (congrArg _ h2) (congrArg ([·]) h3)))

theorem decodeControl_controlOf (a : Access) : decodeControl (controlOf a) = some (a.width, a.dir) := by
  rcases a with ⟨_ | _ | _, _ | _, _⟩ <;> rfl

theorem controlOf_of_decodeControl {c : Byte} {w : Width} {d : Dir} (v : Word)
    (h : decodeControl c = some (w, d)) : controlOf ⟨w, d, v⟩ = c := by
  unfold decodeControl at h
  split at h
  case h_7 => cases h
  all_goals
    rename_i hc
    cases h
    exact (eq_ofNat_of_toNat_eq hc).symm

/-- Laid out by the encoder, the bytes carry the access. -/
theorem encodeHost_wordOfBytes {c : Byte} {w : Width} {d : Dir} (hc : decodeControl c = some (w, d))
    (a0 a1 a2 a3 d0 d1 d2 d3 : Byte) :
    encodeHost (wordOfBytes a0 a1 a2 a3) ⟨w, d, wordOfBytes d0 d1 d2 d3⟩ = [a0, a1, a2, a3, c, d0, d1, d2, d3] := by
  rw [encodeHost, bytesOfWord_wordOfBytes, bytesOfWord_wordOfBytes, controlOf_of_decodeControl _ hc]
  rfl

theorem decode_encodeHost {p : Params} {addr : Word} {a : Access} {i : Instr} (h : decodeHost p addr a = i) :
    decode p .hostacc (encodeHost addr a) = .ok i := by
  simp only [← h, encodeHost, bytesOfWord, List.cons_append, List.nil_append, decode, decodeControl_controlOf,
    wordOfBytes_bytesOfWord]

/-! The CSR window. -/

theorem toNat_csrAddr (index : BitVec 4) (lane : BitVec 2) :
    (csrAddr index lane).toNat = index.toNat * 4 + lane.toNat := by
  rw [csrAddr, BitVec.toNat_setWidth_of_le (by decide)]
  exact toNat_append_eq index lane

/-- An offset of the window is the address of its word's CSR and its lane. -/
theorem csrAddr_of_div {o : BitVec 12} {index : BitVec 4} (h : o.toNat / 4 = index.toNat) :
    csrAddr index (o.setWidth 2) = o.setWidth 32 := by
  apply BitVec.eq_of_toNat_eq
  rw [toNat_csrAddr, BitVec.toNat_setWidth, BitVec.toNat_setWidth_of_le (by decide), ← h, Nat.div_add_mod']

theorem decodeHost_window (p : Params) (o : BitVec 12) (a : Access) :
    decodeHost p (o.setWidth 32) a = decodeCsr o a := by
  have h : (o.setWidth 32).toNat < 0x1000 := by rw [BitVec.toNat_setWidth_of_le (by decide)]; exact o.isLt
  rw [decodeHost, if_pos h, BitVec.setWidth_setWidth (by decide), BitVec.setWidth_eq]

theorem decodeCsr_isItem (p : Params) (o : BitVec 12) (a : Access) :
    (decodeCsr o a).IsItem p .hostacc (encodeHost (o.setWidth 32) a) := by
  unfold decodeCsr
  dsimp only
  split
  case h_11 =>
    simp only [imp_false] at *
    exact ⟨rfl, decide_eq_true (by omega), rfl⟩
  all_goals
    rename_i h
    exact ⟨rfl, rfl, congrArg (encodeHost · a) (csrAddr_of_div h)⟩

theorem csrOffset_div : ∀ (index : BitVec 4) (lane : BitVec 2),
    ((index ++ lane).setWidth 12).toNat / 4 = index.toNat := by decide

theorem csrOffset_lane : ∀ (index : BitVec 4) (lane : BitVec 2),
    ((index ++ lane).setWidth 12).setWidth 2 = lane := by decide

theorem decodeHost_csrAddr (p : Params) (index : BitVec 4) (lane : BitVec 2) (a : Access) :
    decodeHost p (csrAddr index lane) a = decodeCsr ((index ++ lane).setWidth 12) a := by
  rw [← decodeHost_window p, csrAddr, BitVec.setWidth_setWidth (by decide)]

theorem decodeCsr_csrRsvd {o : BitVec 12} (h : 0x028 ≤ o.toNat) (a : Access) : decodeCsr o a = .csrRsvd o a := by
  unfold decodeCsr
  dsimp only
  split
  case h_11 => rfl
  all_goals omega

/-! The buffer windows. -/

theorem toNat_base_add {base : Word} (hb : base.toNat ≤ 0x02000000) (i : BitVec 24) :
    (base + i.setWidth 32).toNat = base.toNat + i.toNat := by
  rw [BitVec.toNat_add, BitVec.toNat_setWidth_of_le (by decide), Nat.mod_eq_of_lt]
  have := i.isLt
  omega

theorem base_add_sub (base : Word) (i : BitVec 24) : (base + i.setWidth 32 - base).setWidth 24 = i := by
  rw [add_sub_cancel_left, BitVec.setWidth_setWidth (by decide), BitVec.setWidth_eq]

theorem decodeHost_inbuf {p : Params} {i : BitVec 24} (h : i.toNat < p.inMax) (a : Access) :
    decodeHost p (0x01000000 + i.setWidth 32) a = .inbuf i a := by
  have e : (0x01000000 + i.setWidth 32 : Word).toNat = 0x01000000 + i.toNat := toNat_base_add (by decide) i
  rw [decodeHost, e, if_neg (by omega), if_pos (by omega), base_add_sub]

/-- The window of IN_BUF ends at or below the window of OUT_BUF, since IN_MAX is at most 2^24 (20 R58). -/
theorem decodeHost_outbuf {p : Params} (hp : p.legal) {i : BitVec 24} (h : i.toNat < p.outMax) (a : Access) :
    decodeHost p (0x02000000 + i.setWidth 32) a = .outbuf i a := by
  have e : (0x02000000 + i.setWidth 32 : Word).toNat = 0x02000000 + i.toNat := toNat_base_add (by decide) i
  have hin := (Machine.inMax_of_legal hp).2
  rw [decodeHost, e, if_neg (by omega), if_neg (by omega), if_pos (by omega), base_add_sub]

theorem decodeHost_unmapped {p : Params} {addr : Word} (h : p.isUnmapped addr) (a : Access) :
    decodeHost p addr a = .unmapped addr a := by
  obtain ⟨hcsr, hin, hout⟩ := h
  rw [decodeHost, if_neg (by omega), if_neg hin, if_neg hout]

/-- An address of a window is the window's base and the index inside it. -/
theorem base_add_index {base addr : Word} {n : Nat} (h1 : base.toNat ≤ addr.toNat)
    (h2 : addr.toNat < base.toNat + n) (hn : n ≤ 2 ^ 24) : base + ((addr - base).setWidth 24).setWidth 32 = addr := by
  have hlt : (addr - base).toNat < 2 ^ 24 := by
    rw [BitVec.toNat_sub_of_le (by simpa [BitVec.le_def] using h1)]
    omega
  rw [setWidth_setWidth_of_lt hlt, add_sub_cancel]

theorem decodeHost_isItem {p : Params} (hp : p.legal) (addr : Word) (a : Access) :
    (decodeHost p addr a).IsItem p .hostacc (encodeHost addr a) := by
  unfold decodeHost
  split_ifs with hcsr hin hout
  · have hi := decodeCsr_isItem p (addr.setWidth 12) a
    rwa [setWidth_setWidth_of_lt hcsr] at hi
  · have hn := (Machine.inMax_of_legal hp).2
    exact ⟨rfl, decide_eq_true (Machine.sub_base_lt hin.1 hin.2 hn),
      congrArg (encodeHost · a) (base_add_index hin.1 hin.2 hn)⟩
  · have hn := (Machine.outMax_of_legal hp).2
    exact ⟨rfl, decide_eq_true (Machine.sub_base_lt hout.1 hout.2 hn),
      congrArg (encodeHost · a) (base_add_index hout.1 hout.2 hn)⟩
  · exact ⟨rfl, decide_eq_true ⟨by omega, hin, hout⟩, rfl⟩

/-! All four formats. -/

/-- Encoding, then decoding: the rows without operands compute, the others are the table's lemma for the row. -/
theorem decode_encode {p : Params} (hp : p.legal) {i : Instr} (h : i.wf p = true) :
    decode p i.format (encode i) = .ok i := by
  cases i with
  | res code => exact (decode_marker ..).trans (congrArg Except.ok (decodeMarkerCode_res (of_decide_eq_true h)))
  | rstm m => exact (decode_marker ..).trans (congrArg Except.ok (decodeMarkerCode_rstm m))
  | appn n => exact (decode_marker ..).trans (congrArg Except.ok (decodeMarkerCode_appn n))
  | jpgn n => exact (decode_marker ..).trans (congrArg Except.ok (decodeMarkerCode_jpgn n (of_decide_eq_true h)))
  | dcDiff size => exact congrArg Except.ok (decodeDcSym_dcDiff size (of_decide_eq_true h))
  | dcBad sym => exact congrArg Except.ok (decodeDcSym_dcBad (of_decide_eq_true h))
  | acR0 run => exact congrArg Except.ok (decodeAcSym_acR0 run (of_decide_eq_true h))
  | acRs run size => exact congrArg Except.ok (decodeAcSym_acRs run size (of_decide_eq_true h))
  | csrId lane a | csrCtrl lane a | csrStatus lane a | csrInLen lane a | csrErrOffset lane a | csrErrMarker lane a
  | csrImgWidth lane a | csrImgHeight lane a | csrImgChannels lane a | csrOutLen lane a =>
    refine decode_encodeHost ((decodeHost_csrAddr ..).trans ?_)
    rw [decodeCsr, csrOffset_div, csrOffset_lane]
    rfl
  | csrRsvd offset a =>
    exact decode_encodeHost ((decodeHost_window ..).trans (decodeCsr_csrRsvd (of_decide_eq_true h) a))
  | inbuf i a => exact decode_encodeHost (decodeHost_inbuf (of_decide_eq_true h) a)
  | outbuf i a => exact decode_encodeHost (decodeHost_outbuf hp (of_decide_eq_true h) a)
  | unmapped addr a => exact decode_encodeHost (decodeHost_unmapped (of_decide_eq_true h) a)
  | _ => rfl

/-- Decoding, then encoding: a word of the right length is an item by its table, any other is rejected. -/
theorem isItem_of_decode {p : Params} (hp : p.legal) {f : Format} {l : List Byte} {i : Instr}
    (h : decode p f l = .ok i) : i.IsItem p f l := by
  unfold decode at h
  split at h
  case h_1 hi lo =>
    replace h : decode p .marker [hi, lo] = .ok i := h
    rw [decode_marker] at h
    split_ifs at h with hff
    cases h
    exact hff ▸ decodeMarkerCode_isItem p lo
  case h_2 sym =>
    cases h
    exact decodeDcSym_isItem p sym
  case h_3 sym =>
    cases h
    exact decodeAcSym_isItem p sym
  case h_4 a0 a1 a2 a3 c d0 d1 d2 d3 =>
    split at h
    · rename_i w d hc
      cases h
      have hi := decodeHost_isItem hp (wordOfBytes a0 a1 a2 a3) ⟨w, d, wordOfBytes d0 d1 d2 d3⟩
      rwa [encodeHost_wordOfBytes hc] at hi
    · cases h
  all_goals cases h

/-- Settles O1: encode then decode is `decode_encode`, decode then encode is `isItem_of_decode`. -/
theorem decodeEncodeRoundTrip : Obligations.DecodeEncodeRoundTrip :=
  ⟨fun _ _ hp h => decode_encode hp h, fun _ _ _ _ hp h => isItem_of_decode hp h⟩

/-- Settles O2, by running the decoder on the twelve words. -/
theorem specWordsDecode : Obligations.SpecWordsDecode := by
  unfold Obligations.SpecWordsDecode
  decide

end Sys2Proof
end

section
/-! SUPPORT. The markers by their classes: what a step fetches at the three places of phase 1, and what each class of
marker does at each of them (spec 41 R101 to R109, R126, R127). -/

namespace Sys2Proof

/-- The code byte of a marker item (30 R71). -/
def Instr.codeByte (i : Instr) : Byte := (encode i).getD 1 0

theorem Instr.marker_eq (i : Instr) : i.marker = Machine.markerValue i.codeByte := rfl

theorem codeByte_decodeMarkerCode (c : Byte) : (decodeMarkerCode c).codeByte = c := by
  obtain ⟨-, -, he⟩ := decodeMarkerCode_isItem .default c
  rw [Instr.codeByte, he]
  rfl

theorem Instr.hasLength_cases {i : Instr} (h : i.hasLength = true) :
    i.isSkipped = true ∨ (i.isUnsupportedFrame = true ∨ i.isUnsupportedSegment = true) ∨
      i = .sof0 ∨ i = .dht ∨ i = .dqt ∨ i = .sos := by
  simp only [Instr.hasLength, Bool.or_eq_true, decide_eq_true_eq] at h
  tauto

/-- 0x01 is the code byte of TEM: a reserved one is at least 0x02 (30 R73). -/
theorem Instr.codeByte_ne_one {p : Params} {i : Instr} (hi : i.hasLength = true) (hw : i.wf p = true) :
    i.codeByte ≠ 0x01 := by
  cases i
  case res code =>
    intro e
    have hc : 0x02 ≤ code.toNat := (of_decide_eq_true hw).1
    rw [show code = 0x01 from e] at hc
    exact absurd hc (by decide)
  case appn n => exact (by decide : ∀ n : BitVec 4, (Instr.appn n).codeByte ≠ 0x01) n
  case jpgn n => exact (by decide : ∀ n : BitVec 4, (Instr.jpgn n).codeByte ≠ 0x01) n
  case sof0 | sof1 | sof2 | sof3 | dht | sof5 | sof6 | sof7 | jpg | sof9 | sof10 | sof11 | dac | sof13 | sof14 | sof15
      | sos | dqt | dnl | dri | dhp | exp | com => decide
  all_goals cases hi

namespace Machine

/-! What a step fetches. -/

theorem step_of_item {s s' : State} {i : Instr} (hh : s.host = []) (hf : s.fetch = .item i s') :
    step s = exec i s' := by
  rw [step_of_host_nil hh, coreStep_of_item hf]

theorem step_of_plain {s s' : State} (hh : s.host = []) (hf : s.fetch = .plain s') : step s = .next s' := by
  rw [step_of_host_nil hh, coreStep_of_plain hf]

theorem markerAt_of_decode {p : Params} {a b : Byte} {i : Instr} (h : decode p .marker [a, b] = .ok i) (s : State)
    (off : Nat) : s.markerAt (a ++ b) off = .item i s := by
  have hd : decodeMarker (a ++ b) = .ok i := h
  rw [State.markerAt, hd]

theorem markerAt_ff {a : Byte} (ha : a = 0xFF) (s : State) (b : Byte) (off : Nat) :
    s.markerAt (a ++ b) off = .item (decodeMarkerCode b) s :=
  markerAt_of_decode (p := .default) (by rw [decode_marker, if_pos ha]) s off

theorem markerAt_of_ne {a : Byte} (ha : a ≠ 0xFF) (s : State) (b : Byte) (off : Nat) :
    s.markerAt (a ++ b) off = .plain (s.failed s.cur .malformedContainer off 0x0000) :=
  (markerAt_cases s a b off).resolve_left fun h => ha h.2

theorem fetchSoi_of_le {s : State} (h : 2 ≤ s.csr.inLen) : s.fetchSoi = s.markerAt (s.inByte 0 ++ s.inByte 1) 0 :=
  if_neg (by omega)

theorem fetchMarker_of_lt {s : State} (h : s.cur + 1 < s.csr.inLen) :
    s.fetchMarker = s.markerAt (s.inByte s.cur ++ s.inByte (s.cur + 1)) s.cur := by
  rw [State.fetchMarker, if_neg (by omega), if_neg (by omega)]

theorem fetchMarker_end {s : State} (h : s.csr.inLen ≤ s.cur) :
    s.fetchMarker = .plain (s.failed s.cur .malformedContainer s.csr.inLen 0x0000) :=
  if_pos h

theorem fetchMarker_last {s : State} (h : s.cur + 1 = s.csr.inLen) :
    s.fetchMarker = .plain (s.failed s.cur .malformedContainer s.cur 0x0000) := by
  rw [State.fetchMarker, if_neg (by omega), if_pos (by omega)]
  rfl

theorem fetchTerminator_of_lt {s : State} (hs : s.scan.stop ≠ s.csr.inLen) (h : s.cur + 1 < s.csr.inLen) :
    s.fetchTerminator = s.markerAt (0xFF#8 ++ s.inByte (s.cur + 1)) s.cur := by
  rw [State.fetchTerminator, if_neg hs, if_neg (by omega)]

theorem fetchTerminator_none {s : State} (hs : s.scan.stop = s.csr.inLen) :
    s.fetchTerminator = .plain { s with phase := .decode .start } :=
  if_pos hs

theorem fetchTerminator_last {s : State} (hs : s.scan.stop ≠ s.csr.inLen) (h : s.cur + 1 = s.csr.inLen) :
    s.fetchTerminator = .plain (s.failed s.cur .malformedContainer s.cur 0x0000) := by
  rw [State.fetchTerminator, if_neg hs, if_pos (by omega)]
  rfl

theorem fetchSymbol_of_ok {s : State} {t : HuffTable} {sym : Byte} {b : BitReader}
    (h : t.decodeSym s.inByte s.scan.stop s.br = .ok sym b) (dec : Byte → Instr) :
    s.fetchSymbol t dec = .item (dec sym) { s with br := b } := by
  rw [State.fetchSymbol, h]

/-- Settles O3, place by place: what the sequencer fetches there is the decoded item. -/
theorem stepRunsItem : Obligations.StepRunsItem := by
  intro s i hh
  refine ⟨fun hp hl hd => ?_, fun hp hl hd => ?_, fun hp hs hl hd => ?_, fun sym b hp hm hd => ?_,
    fun sym b hp hm hd => ?_⟩
  · exact step_of_item hh ((fetch_soi hp).trans ((fetchSoi_of_le hl).trans (markerAt_of_decode hd s 0)))
  · exact step_of_item hh ((fetch_marker hp).trans ((fetchMarker_of_lt hl).trans (markerAt_of_decode hd s s.cur)))
  · exact step_of_item hh
      ((fetch_term hp).trans ((fetchTerminator_of_lt hs hl).trans (markerAt_of_decode hd s s.cur)))
  · cases hd
    exact step_of_item hh ((fetch_dc hp).trans (fetchSymbol_of_ok (s := s.clearZz) hm decodeDcSym))
  · cases hd
    exact step_of_item hh ((fetch_ac hp).trans (fetchSymbol_of_ok hm decodeAcSym))

/-! The classes of markers. -/

theorem exec_skipped {i : Instr} (h : i.isSkipped = true) (s : State) :
    exec i s = atMarker (skipSegment i.codeByte) (walkForSos i.codeByte) s := by
  cases i
  case res | jpg | dhp | exp | appn | jpgn | com => rfl
  all_goals cases h

theorem exec_unsupported {i : Instr} (h : i.isUnsupportedFrame = true ∨ i.isUnsupportedSegment = true) (s : State) :
    exec i s = atMarker (unsupportedSegment i.codeByte) (walkForSos i.codeByte) s := by
  cases i
  case sof1 | sof2 | sof3 | sof5 | sof6 | sof7 | sof9 | sof10 | sof11 | sof13 | sof14 | sof15 | dac | dri | dnl => rfl
  all_goals exact absurd h (by simp [Instr.isUnsupportedFrame, Instr.isUnsupportedSegment])

/-- A marker that carries a length is its segment's rule before the scan; past it every one but SOS is the walk. -/
theorem exec_hasLength {i : Instr} (h : i.hasLength = true) :
    ∃ body post, (∀ s, exec i s = atMarker (segment i.codeByte body) post s) ∧
      (i ≠ .sos → post = walkForSos i.codeByte) := by
  obtain h | h | rfl | rfl | rfl | rfl := Instr.hasLength_cases h
  · exact ⟨_, _, exec_skipped h, fun _ => rfl⟩
  · exact ⟨_, _, exec_unsupported h, fun _ => rfl⟩
  · exact ⟨_, _, fun _ => rfl, fun _ => rfl⟩
  · exact ⟨_, _, fun _ => rfl, fun _ => rfl⟩
  · exact ⟨_, _, fun _ => rfl, fun _ => rfl⟩
  · exact ⟨_, _, fun _ => rfl, fun h => absurd rfl h⟩

/-- Where the SOI must stand, every other marker fails (41 R102). -/
theorem exec_marker_at_soi {i : Instr} (hi : i.format = .marker) (hn : i ≠ .soi) {s : State}
    (hp : s.phase = .parse .soi) : exec i s = .next (s.failed s.cur .malformedContainer 0 0x0000) := by
  have key (pre post : State → State) : atMarker pre post s = .next (s.failed s.cur .malformedContainer 0 0x0000) :=
    atMarker_soi pre post hp
  cases i
  case soi => exact absurd rfl hn
  case stuff00 => simp only [exec, execStuff00, hp]; exact key _ _
  case tem | res | sof0 | sof1 | sof2 | sof3 | dht | sof5 | sof6 | sof7 | jpg | sof9 | sof10 | sof11 | dac | sof13
      | sof14 | sof15 | rstm | eoi | sos | dqt | dnl | dri | dhp | exp | appn | jpgn | com | fill => exact key _ _
  all_goals cases hi

/-! The stand-alone markers and the two codes that are no markers. -/

theorem exec_soi_at_soi {s : State} (hp : s.phase = .parse .soi) :
    exec .soi s = .next { s with cur := 2, phase := .parse .marker } := by
  simp only [exec, execSoi, hp]

theorem exec_soi_of_ne {s : State} (hp : s.phase ≠ .parse .soi) :
    exec .soi s = atMarker (failMarker .malformedContainer 0xD8) (failTerminator .malformedEntropyStream 0xD8) s := by
  simp only [exec, execSoi]

theorem exec_stuff00 {s : State} {pt : ParseAt} (hp : s.phase = .parse pt) :
    exec .stuff00 s =
      atMarker (fun s => s.raise .malformedContainer s.cur 0xFF00) (failTerminator .malformedEntropyStream 0x00) s := by
  simp only [exec, execStuff00, hp]

/-- The code byte of RSTm in the value of the marker (30 R73). -/
theorem markerValue_rstm : ∀ m : BitVec 3, markerValue (0b11010#5 ++ m) = 0xFFD0 + m.setWidth 16 := by decide

/-- Settles O5: the first two bytes are read as a marker, and every marker but SOI fails there. -/
theorem soiCheck : Obligations.SoiCheck := by
  intro s hh hp
  have fetched {f : Fetched} (hl : 2 ≤ s.csr.inLen) (hf : s.markerAt (s.inByte 0 ++ s.inByte 1) 0 = f) :
      s.fetch = f := (fetch_soi hp).trans ((fetchSoi_of_le hl).trans hf)
  refine ⟨fun hl h0 h1 => ⟨exec_soi_at_soi hp, ?_⟩, fun hbad => ?_⟩
  · rw [step_of_item hh (fetched hl (markerAt_ff h0 s _ 0)), h1]
    exact exec_soi_at_soi hp
  · by_cases hl : 2 ≤ s.csr.inLen
    case neg => exact step_of_plain hh ((fetch_soi hp).trans (if_pos (by omega)))
    by_cases h0 : s.inByte 0 = 0xFF
    case neg => exact step_of_plain hh (fetched hl (markerAt_of_ne h0 s _ 0))
    have hn : decodeMarkerCode (s.inByte 1) ≠ .soi := fun e => by
      have h1 : s.inByte 1 = 0xD8 := by rw [← codeByte_decodeMarkerCode (s.inByte 1), e]; rfl
      exact hbad.elim (fun h => by omega) (fun h => h.elim (· h0) (· h1))
    rw [step_of_item hh (fetched hl (markerAt_ff h0 s _ 0))]
    exact exec_marker_at_soi (decodeMarkerCode_format _) hn hp

/-- Settles O6, one marker at a time. -/
theorem headerStandAloneMarkers : Obligations.HeaderStandAloneMarkers := by
  intro s m hp
  have at_marker (pre post : State → State) : atMarker pre post s = .next (pre s) := atMarker_marker pre post hp
  refine ⟨at_marker _ _, at_marker _ _, ?_, at_marker _ _, ?_, ?_⟩
  · exact (exec_soi_of_ne (by rw [hp]; decide)).trans (at_marker _ _)
  · rw [← markerValue_rstm]; exact at_marker _ _
  · exact (exec_stuff00 hp).trans (at_marker _ _)

/-! Fill bytes. -/

theorem step_fill {s : State} (hh : s.host = []) (hp : s.phase = .parse .marker) (hl : s.cur + 1 < s.csr.inLen)
    (h0 : s.inByte s.cur = 0xFF) (h1 : s.inByte (s.cur + 1) = 0xFF) : step s = .next { s with cur := s.cur + 1 } := by
  have hf : s.fetch = .item (decodeMarkerCode (s.inByte (s.cur + 1))) s :=
    (fetch_marker hp).trans ((fetchMarker_of_lt hl).trans (markerAt_ff h0 s _ _))
  rw [step_of_item hh hf, h1]
  exact atMarker_marker _ _ hp

/-- A run over fill bytes goes on from the last `0xFF` (41 R101). -/
theorem run_fill {s : State} (hh : s.host = []) (hp : s.phase = .parse .marker) (n k : Nat)
    (hl : s.cur + n < s.csr.inLen) (hb : ∀ j, j ≤ n → s.inByte (s.cur + j) = 0xFF) :
    Sys2Proof.core.run (n + k) s = Sys2Proof.core.run k { s with cur := s.cur + n } := by
  induction n generalizing s with
  | zero => rw [Nat.zero_add]; rfl
  | succ n ih =>
    have hs : step s = .next { s with cur := s.cur + 1 } :=
      step_fill hh hp (by omega) (hb 0 (by omega)) (hb 1 (by omega))
    rw [Nat.add_right_comm, run_succ hs]
    have hcur : s.cur + 1 + n = s.cur + (n + 1) := by omega
    have hrun := ih (s := { s with cur := s.cur + 1 }) hh hp (by simp only [hcur]; exact hl)
      (fun j hj => by have := hb (j + 1) (by omega); rwa [show s.cur + (j + 1) = s.cur + 1 + j by omega] at this)
    simp only [hcur] at hrun
    exact hrun

/-- Settles O7: fill bytes by induction on their number (`run_fill`), then the failures of a marker position. -/
theorem markerFetch : Obligations.MarkerFetch := by
  intro s hh hp
  have plain {t u : State} (hht : t.host = []) (hpt : t.phase = .parse .marker) (hf : t.fetchMarker = .plain u) :
      step t = .next u := step_of_plain hht ((fetch_marker hpt).trans hf)
  refine ⟨fun n hl hb => ⟨run_fill hh hp n 0 hl hb, fun he => ?_⟩, fun hl => plain hh hp (fetchMarker_end hl),
    fun _ h0 hl => plain hh hp ((fetchMarker_of_lt hl).trans (markerAt_of_ne h0 s _ _)),
    fun he => plain hh hp (fetchMarker_last he)⟩
  rw [run_fill hh hp n 1 hl hb, ← he, Nat.add_sub_cancel]
  exact run_succ (k := 0) (plain (t := { s with cur := s.cur + n }) hh hp (fetchMarker_last he))

/-! Segments before the scan. -/

/-- Settles O8: the length check is the first thing a segment's rule does (`segment_bad`). -/
theorem segmentLengthCheck : Obligations.SegmentLengthCheck := by
  intro s i hp hi hbad
  obtain ⟨body, post, he, -⟩ := exec_hasLength hi
  rw [he, atMarker_marker _ _ hp, segment_bad _ _ hbad, Instr.marker_eq]

/-- Settles O9: the rule of a skipped segment is the skip alone. -/
theorem skippedSegments : Obligations.SkippedSegments := by
  intro s i lh hp hi hs
  rw [exec_skipped hi, atMarker_marker _ _ hp, skipSegment, segment_good _ _ hs]
  rfl

theorem exec_unsupported_marker {s : State} {i : Instr} {lh : Nat} (hp : s.phase = .parse .marker)
    (hi : i.isUnsupportedFrame = true ∨ i.isUnsupportedSegment = true) (hs : s.HasSegment lh) :
    exec i s = .next (s.failed (s.cur + 2) .unsupportedFeature s.cur i.marker) := by
  rw [exec_unsupported hi, atMarker_marker _ _ hp, unsupportedSegment, segment_good _ _ hs]
  rfl

/-- Settles O10: a frame header but SOF0 fails whatever its payload. -/
theorem unsupportedFrames : Obligations.UnsupportedFrames :=
  fun _ _ _ hp hi hs => exec_unsupported_marker hp (.inl hi) hs

/-- Settles O11: DAC, DRI and DNL fail whatever their payload. -/
theorem unsupportedSegments : Obligations.UnsupportedSegments :=
  fun _ _ _ hp hi hs => exec_unsupported_marker hp (.inr hi) hs

/-! The terminating marker. -/

/-- Settles O21, one terminating marker at a time, then the two streams that end without one. -/
theorem terminatingMarkers : Obligations.TerminatingMarkers := by
  intro s m hp
  have at_term (pre post : State → State) : atMarker pre post s = .next (post s) := atMarker_term pre post hp
  refine ⟨at_term _ _, at_term _ _, at_term _ _, ?_, ?_, ?_, fun hh he => ?_, fun hh hs he => ?_⟩
  · rw [← markerValue_rstm]; exact at_term _ _
  · exact (exec_soi_of_ne (by rw [hp]; decide)).trans (at_term _ _)
  · exact (exec_stuff00 hp).trans (at_term _ _)
  · exact step_of_plain hh ((fetch_term hp).trans (fetchTerminator_none he))
  · rw [← he, Nat.add_sub_cancel]
    exact step_of_plain hh ((fetch_term hp).trans (fetchTerminator_last (by omega) he))

/-- The segment behind the terminating marker is the one its length field gives (41 R104, R126). -/
theorem afterTerminator_of_length {s : State} {code : Byte} (hc : code ≠ 0x01) (w : Nat) :
    s.afterTerminator code = some w ↔ ∃ lh, s.HasSegment lh ∧ s.cur + 2 + lh = w := by
  rw [State.afterTerminator, if_neg hc]
  constructor
  · intro h
    obtain ⟨lh, hl, rfl⟩ := Option.map_eq_some_iff.1 h
    obtain ⟨h1, h2, h3, h4⟩ := State.segLength_some hl
    exact ⟨lh, ⟨h1, h4, h2, h3⟩, rfl⟩
  · rintro ⟨lh, hs, rfl⟩
    rw [State.segLength_good hs]
    rfl

/-- The walk behind the terminating marker finds an SOS exactly where 41 R127 meets one. -/
theorem walk_afterTerminator {s : State} {i : Instr} (hi : i = .tem ∨ i.codeByte ≠ 0x01) (r : Nat) :
    (s.afterTerminator i.codeByte).bind s.walk = some r ↔ s.SosAfter i r := by
  obtain rfl | hc := hi
  · exact s.walk_iff (s.cur + 2) r
  · have hn : i ≠ .tem := fun e => hc (by rw [e]; rfl)
    rw [State.SosAfter, if_neg hn, Option.bind_eq_some_iff]
    simp only [afterTerminator_of_length hc, State.walk_iff]
    constructor
    · rintro ⟨w, ⟨lh, hs, rfl⟩, hr⟩
      exact ⟨lh, hs, hr⟩
    · rintro ⟨lh, hs, hr⟩
      exact ⟨_, ⟨lh, hs, rfl⟩, hr⟩

theorem walkForSos_found {s : State} {code : Byte} {r : Nat} (h : (s.afterTerminator code).bind s.walk = some r) :
    walkForSos code s = s.failed s.cur .unsupportedFeature r 0xFFDA := by
  rw [walkForSos, h]
  rfl

theorem walkForSos_none {s : State} {code : Byte} (h : (s.afterTerminator code).bind s.walk = none) :
    walkForSos code s = s.failed s.cur .malformedEntropyStream s.cur (markerValue code) := by
  rw [walkForSos, h]
  rfl

theorem exec_walk_at_term {i : Instr} (hi : i = .tem ∨ i.hasLength = true) (hn : i ≠ .sos) {s : State}
    (hp : s.phase = .parse .term) : exec i s = .next (walkForSos i.codeByte s) := by
  obtain rfl | hi := hi
  · exact atMarker_term _ _ hp
  · obtain ⟨body, post, he, hpost⟩ := exec_hasLength hi
    rw [he, atMarker_term _ _ hp, hpost hn]

/-- Settles O22: the marker is the walk (`exec_walk_at_term`), which finds what 41 R127 meets. -/
theorem otherTerminators : Obligations.OtherTerminators := by
  intro s i hp hi hn hw
  have hwalk := walk_afterTerminator (s := s) (hi.imp_right fun h => Instr.codeByte_ne_one h hw)
  rw [exec_walk_at_term hi hn hp]
  refine ⟨fun r hr => ?_, fun hnone => ?_⟩
  · rw [walkForSos_found ((hwalk r).2 hr)]
  · have hno : (s.afterTerminator i.codeByte).bind s.walk = none :=
      Option.eq_none_iff_forall_ne_some.2 fun r hr => hnone ⟨r, (hwalk r).1 hr⟩
    rw [walkForSos_none hno, Instr.marker_eq]

end Machine
end Sys2Proof
end

section
/-! SUPPORT. The segments that write registers before the scan: DQT (spec 41 R110 to R113), SOF0 (R114 to R117) and SOS
(R120 to R125). For each header what its checks answer on a payload written out in its parts, then what the marker
does. -/

namespace Sys2Proof.Machine

/-! DQT. -/

theorem exec_dqt_marker {s : State} {lh : Nat} (hp : s.phase = .parse .marker) (hs : s.HasSegment lh) :
    exec .dqt s = .next (afterDefs (s.cur + 2 + lh)
      (dqtDefs s.cur (s.segPayload lh).length (s.segPayload lh) s.pastMarker)) :=
  (atMarker_marker _ _ hp).trans (congrArg _ (segment_good _ _ hs))

theorem dqtDefs_nil (moff fuel : Nat) (s : State) : dqtDefs moff fuel [] s = .ok s := by
  cases fuel <;> rfl

theorem dqtDefs_bad (moff : Nat) {fuel : Nat} {h : Byte} {q : List Byte} (hb : BadDqt h q)
    (hf : (h :: q).length ≤ fuel) (s : State) :
    dqtDefs moff fuel (h :: q) s = .error (s.raise .malformedContainer moff 0xFFDB) := by
  obtain ⟨n, rfl⟩ := Nat.exists_eq_add_of_le' ((Nat.succ_pos _).trans_le hf)
  rw [dqtDefs, dqtDef_bad h q hb]

/-- Settles O12: the definitions are stored in turn (`dqtDefs_good`), and one store reaches its own slot only. -/
theorem dqtStores : Obligations.DqtStores := by
  refine ⟨fun s lh defs hp hs hpay hg => ?_, fun qt d t hg ht => ⟨fun he => ?_, fun hn => ?_⟩⟩
  · obtain ⟨fuel, -, he⟩ := dqtDefs_good s.cur defs [] _ s.pastMarker hg le_rfl
    rw [List.append_nil] at he
    rw [exec_dqt_marker hp hs, hpay, he, dqtDefs_nil]
    rfl
  · rw [getAt_storeDqt qt d t ht, if_pos he]
    refine ⟨rfl, fun k hk => ?_⟩
    rw [getAt_unzigzag _ _ _ hk, BitVec.toNat_ofNat, Nat.mod_eq_of_lt (dqtEntry_lt d k)]
  · rw [getAt_storeDqt qt d t ht, if_neg hn]

/-- Settles O13: the good definitions are stored (`dqtDefs_good`), then the bad one fails. -/
theorem dqtBadDefinition : Obligations.DqtBadDefinition := by
  intro s lh defs h q hp hs hpay hg hb
  obtain ⟨fuel, hf, he⟩ := dqtDefs_good s.cur defs (h :: q) _ s.pastMarker hg le_rfl
  rw [exec_dqt_marker hp hs, hpay, he, dqtDefs_bad _ hb hf]
  rfl

/-! The checks of SOF0. -/

/-- A 16-bit field is its two bytes (00 R11). -/
theorem toNat_append_be16 (hi lo : Byte) : (hi ++ lo).toNat = be16 hi lo := toNat_append_eq hi lo

theorem ofNat_be16 (hi lo : Byte) : BitVec.ofNat 16 (be16 hi lo) = hi ++ lo :=
  (eq_ofNat_of_toNat_eq (toNat_append_be16 hi lo)).symm

theorem sofParse_malformed {v : Bool} {p : List Byte} (h : v = true ∨ p.length < 6) (outMax : Nat) :
    sofParse v outMax p = .error .malformedContainer := by
  unfold sofParse
  dsimp only
  obtain h | h := h
  · rw [if_pos h]
  · rw [if_pos h, ite_self]

/-- The checks of a payload of at least 6 bytes, in their order. -/
theorem sofParse_cons (outMax : Nat) (precision yh yl xh xl nf : Byte) (rest : List Byte) :
    sofParse false outMax (precision :: yh :: yl :: xh :: xl :: nf :: rest) =
      if rest.length ≠ 3 * nf.toNat then .error .malformedContainer
      else if precision ≠ 8 then .error .unsupportedFeature
      else if nf ≠ 1 ∧ nf ≠ 3 then .error .unsupportedColorModel
      else if be16 xh xl = 0 then .error .malformedContainer
      else if be16 yh yl = 0 then .error .unsupportedFeature
      else (sofComps nf.toNat [] rest).bind fun comps =>
        if outMax < be16 xh xl * be16 yh yl * nf.toNat then .error .unsupportedFeature
        else .ok ⟨xh ++ xl, yh ++ yl, nf.toNat, comps⟩ := by
  have hlen : (precision :: yh :: yl :: xh :: xl :: nf :: rest).length = 6 + rest.length := by
    simp only [List.length_cons]; omega
  have hshort : ¬ 6 + rest.length < 6 := by omega
  have hwhole : 6 + rest.length ≠ 6 + 3 * nf.toNat ↔ rest.length ≠ 3 * nf.toNat := by omega
  have ne_iff (a b : Byte) : a.toNat ≠ b.toNat ↔ a ≠ b := BitVec.toNat_ne_iff_ne
  have hprec : precision.toNat ≠ 8 ↔ precision ≠ 8 := ne_iff precision 8
  have hnf : nf.toNat ≠ 1 ∧ nf.toNat ≠ 3 ↔ nf ≠ 1 ∧ nf ≠ 3 := and_congr (ne_iff nf 1) (ne_iff nf 3)
  unfold sofParse
  simp only [hlen, if_neg hshort, hwhole, byteAt, List.getD_cons_zero, List.getD_cons_succ, hprec, hnf, ofNat_be16,
    Bool.false_eq_true, if_false, List.drop_succ_cons, List.drop_zero]
  cases sofComps nf.toNat [] rest <;> rfl

/-- With its header checks passed, the component checks decide, and the raster size after them. -/
theorem sofParse_sofPayload (outMax : Nat) {yh yl xh xl nf : Byte} {comps : List SofComp}
    (hlen : comps.length = nf.toNat) (hnf : nf.toNat = 1 ∨ nf.toNat = 3) (hx : be16 xh xl ≠ 0) (hy : be16 yh yl ≠ 0) :
    sofParse false outMax (sofPayload 8 yh yl xh xl nf comps) =
      (sofComps comps.length [] (comps.flatMap fun c => [c.id, c.hv, c.tq])).bind fun l =>
        if outMax < be16 xh xl * be16 yh yl * nf.toNat then .error .unsupportedFeature
        else .ok ⟨xh ++ xl, yh ++ yl, nf.toNat, l⟩ := by
  have hrest : ¬ (comps.flatMap fun c => [c.id, c.hv, c.tq]).length ≠ 3 * nf.toNat := by
    have := sofPayload_length 8 yh yl xh xl nf comps
    simp only [sofPayload, List.length_cons] at this
    omega
  have hnf' : ¬ (nf ≠ 1 ∧ nf ≠ 3) := by
    rintro ⟨h1, h3⟩
    exact hnf.elim (fun h => h1 (eq_ofNat_of_toNat_eq h)) (fun h => h3 (eq_ofNat_of_toNat_eq h))
  rw [sofPayload, sofParse_cons, if_neg hrest, if_neg (not_not_intro rfl), if_neg hnf', if_neg hx, if_neg hy, hlen]

/-! What SOF0 does. -/

section
variable {s : State} {lh : Nat} (hp : s.phase = .parse .marker) (hs : s.HasSegment lh)
include hp hs

theorem exec_sof0_error {kind : ErrKind}
    (h : sofParse s.frame.valid s.params.outMax (s.segPayload lh) = .error kind) :
    exec .sof0 s = .next (s.failed (s.cur + 2) kind s.cur 0xFFC0) := by
  refine (atMarker_marker _ _ hp).trans ((congrArg _ (segment_good _ _ hs)).trans ?_)
  simp only [State.pastMarker_fields, h]
  rfl

theorem exec_sof0_ok {f : SofFields} (h : sofParse s.frame.valid s.params.outMax (s.segPayload lh) = .ok f) :
    exec .sof0 s = .next ((s.pastMarker.acceptFrame f).skipTo (s.cur + 2 + lh)) := by
  refine (atMarker_marker _ _ hp).trans ((congrArg _ (segment_good _ _ hs)).trans ?_)
  simp only [State.pastMarker_fields, h]

end

theorem acceptFrame_comp (s : State) (f : SofFields) {j : Nat} (hj : j < 3) :
    (s.acceptFrame f).frame.comp j = if j < f.nf then f.comps.getD j default else s.frame.comp j := by
  simp only [State.acceptFrame, FrameRegs.comp, getAt_tabulate, if_pos hj]

/-- A register below the number of listed components is that of the component. -/
theorem ite_getD_map {α β : Type} (f : α → β) (l : List α) (j : Nat) (d e : β) :
    (if j < l.length then (l.map f).getD j d else e) = if h : j < l.length then f l[j] else e := by
  by_cases h : j < l.length
  · simp [h]
  · simp [h]

/-- Settles O17: the first check that fails decides (`sofParse_cons`). -/
theorem sof0HeaderChecks : Obligations.Sof0HeaderChecks := by
  intro s lh hp hs
  refine ⟨fun h => exec_sof0_error hp hs (sofParse_malformed h _), ?_⟩
  intro precision yh yl xh xl nf rest hv hpay
  have fails {kind : ErrKind}
      (h : sofParse false s.params.outMax (precision :: yh :: yl :: xh :: xl :: nf :: rest) = .error kind) :
      exec .sof0 s = .next (s.failed (s.cur + 2) kind s.cur 0xFFC0) :=
    exec_sof0_error hp hs (by rw [hv, hpay, h])
  refine ⟨fun hl => fails ?_, fun hl h8 => fails ?_, fun hl h8 h1 h3 => fails ?_, fun hl h8 hn hx => fails ?_,
    fun hl h8 hn hx hy => fails ?_⟩
  all_goals rw [sofParse_cons]
  · rw [if_pos hl]
  · rw [if_neg (not_not_intro hl), if_pos h8]
  · rw [if_neg (not_not_intro hl), if_neg (not_not_intro h8), if_pos ⟨h1, h3⟩]
  · rw [if_neg (not_not_intro hl), if_neg (not_not_intro h8), if_neg (fun h => hn.elim h.1 h.2), if_pos hx]
  · rw [if_neg (not_not_intro hl), if_neg (not_not_intro h8), if_neg (fun h => hn.elim h.1 h.2), if_neg hx, if_pos hy]

/-- Settles O18: the first bad component decides (`sofComps_bad`), the raster size only after all are good. -/
theorem sof0ComponentChecks : Obligations.Sof0ComponentChecks := by
  intro s lh yh yl xh xl nf comps hp hs hv hpay hlen hnf hx hy
  have hparse := sofParse_sofPayload s.params.outMax hlen hnf hx hy
  refine ⟨fun before after c kind hc hnd hg he => ?_, fun hnd hg hsize => ?_⟩
  · refine exec_sof0_error hp hs ?_
    have hseen : c.error ((before.map SofComp.id).reverse ++ []) = some kind := by
      rw [SofComp.error_congr _ (before.map SofComp.id) c (by simp), he]
    have hbad := sofComps_bad before after c [] kind hg hnd (fun _ _ => List.not_mem_nil) hseen
    rw [hv, hpay, hparse, hc, hbad]
    rfl
  · refine exec_sof0_error hp hs ?_
    rw [hv, hpay, hparse, sofComps_good comps [] hg hnd fun _ _ => List.not_mem_nil]
    exact if_pos hsize

/-- Settles O16: every check passes (`sofComps_good`), and the acceptance writes what 41 R117 says. -/
theorem sof0Accepts : Obligations.Sof0Accepts := by
  intro s lh yh yl xh xl nf comps hp hs hv hpay hlen hnf hx hy hnd hg hsize
  have hparse : sofParse s.frame.valid s.params.outMax (s.segPayload lh) =
      .ok ⟨xh ++ xl, yh ++ yl, nf.toNat, comps.map SofComp.reg⟩ := by
    rw [hv, hpay, sofParse_sofPayload _ hlen hnf hx hy, sofComps_good comps [] hg hnd fun _ _ => List.not_mem_nil]
    exact if_neg (Nat.not_lt.2 hsize)
  refine ⟨_, exec_sof0_ok hp hs hparse, ?_, fun j hj => ?_⟩
  · have hlen' : (xh ++ xl).toNat * (yh ++ yl).toNat * nf.toNat = be16 xh xl * be16 yh yl * nf.toNat := by
      rw [toNat_append_be16, toNat_append_be16]
    simp only [State.acceptFrame, hlen', BitVec.ofNat_toNat]
    rfl
  · refine (acceptFrame_comp s.pastMarker _ hj).trans ?_
    simp only [State.pastMarker_fields, ← hlen, ite_getD_map]

/-! The checks of SOS. -/

theorem sosParse_malformed {s : State} {p : List Byte} (h : s.frame.valid = false ∨ p.length < 1) :
    sosParse s p = .error .malformedContainer := by
  unfold sosParse
  dsimp only
  obtain h | h := h
  · rw [if_pos h]
  · rw [if_pos h, ite_self]

theorem sosParse_badCount {s : State} {ns : Byte} {rest : List Byte}
    (h : ns.toNat < 1 ∨ 4 < ns.toNat ∨ rest.length ≠ 3 + 2 * ns.toNat) :
    sosParse s (ns :: rest) = .error .malformedContainer := by
  have hns : byteAt (ns :: rest) 0 = ns := rfl
  unfold sosParse
  dsimp only
  rw [hns]
  by_cases hrange : ns.toNat < 1 ∨ 4 < ns.toNat
  · rw [if_pos hrange, ite_self, ite_self]
  · have hlen : (ns :: rest).length ≠ 4 + 2 * ns.toNat := by rw [List.length_cons]; omega
    rw [if_pos hlen, ite_self, ite_self, ite_self]

/-- The three bytes behind the scan components. -/
theorem byteAt_sosPayload (ns : Byte) (comps : List SosComp) (ss se ahal : Byte) (k : Nat) :
    byteAt (sosPayload ns comps ss se ahal) (2 * comps.length + k + 1) = [ss, se, ahal].getD k 0 := by
  have hlen : (comps.flatMap fun c => [c.id, c.tt]).length = 2 * comps.length := by
    simp [List.length_flatMap, Nat.mul_comm]
  rw [sosPayload, byteAt, List.getD_cons_succ, List.getD_append_right _ _ _ _ (by omega), hlen, Nat.add_sub_cancel_left]

/-- With the counts right, the component checks decide, then the baseline fields, then the tables. -/
theorem sosParse_sosPayload {s : State} {ns ss se ahal : Byte} {comps : List SosComp} (hv : s.frame.valid = true)
    (hlen : comps.length = ns.toNat) (h1 : 1 ≤ ns.toNat) (h4 : ns.toNat ≤ 4) :
    sosParse s (sosPayload ns comps ss se ahal) =
      (sosComps s.frame comps.length 0 ((comps.flatMap fun c => [c.id, c.tt]) ++ [ss, se, ahal])).bind fun l =>
        if ns.toNat ≠ s.frame.nf then .error .unsupportedFeature
        else if ss ≠ 0 ∨ se ≠ 63 ∨ ahal ≠ 0 then .error .unsupportedFeature
        else if (List.range s.frame.nf).all (fun j => s.tablesPresent j (l.getD j default)) then .ok l
        else .error .malformedContainer := by
  have hp0 : byteAt (sosPayload ns comps ss se ahal) 0 = ns := rfl
  have hplen : (sosPayload ns comps ss se ahal).length = 4 + 2 * ns.toNat := by
    simp [sosPayload, List.length_flatMap, ← hlen]
    omega
  have hdrop : (sosPayload ns comps ss se ahal).drop 1 = (comps.flatMap fun c => [c.id, c.tt]) ++ [ss, se, ahal] := rfl
  have hss : byteAt (sosPayload ns comps ss se ahal) (1 + 2 * ns.toNat) = ss := by
    rw [← hlen, Nat.add_comm]; exact byteAt_sosPayload ns comps ss se ahal 0
  have hse : byteAt (sosPayload ns comps ss se ahal) (2 + 2 * ns.toNat) = se := by
    rw [← hlen, Nat.add_comm]; exact byteAt_sosPayload ns comps ss se ahal 1
  have hahal : byteAt (sosPayload ns comps ss se ahal) (3 + 2 * ns.toNat) = ahal := by
    rw [← hlen, Nat.add_comm]; exact byteAt_sosPayload ns comps ss se ahal 2
  have ne_iff (a b : Byte) : a.toNat ≠ b.toNat ↔ a ≠ b := BitVec.toNat_ne_iff_ne
  have hbase : (ss.toNat ≠ 0 ∨ se.toNat ≠ 63 ∨ ahal.toNat ≠ 0) ↔ (ss ≠ 0 ∨ se ≠ 63 ∨ ahal ≠ 0) :=
    or_congr (ne_iff ss 0) (or_congr (ne_iff se 63) (ne_iff ahal 0))
  unfold sosParse
  simp only [hp0, hv, hplen, hdrop, hss, hse, hahal, hbase]
  rw [if_neg (by decide), if_neg (by omega), if_neg (by omega), if_neg (not_not_intro rfl), hlen]
  cases sosComps s.frame ns.toNat 0 ((comps.flatMap fun c => [c.id, c.tt]) ++ [ss, se, ahal]) <;> rfl

/-! What SOS does. -/

section
variable {s : State} {lh : Nat} (hp : s.phase = .parse .marker) (hs : s.HasSegment lh)
include hp hs

theorem exec_sos_error {kind : ErrKind} (h : sosParse s (s.segPayload lh) = .error kind) :
    exec .sos s = .next (s.failed (s.cur + 2) kind s.cur 0xFFDA) := by
  have h' : sosParse s.pastMarker (s.segPayload lh) = .error kind := h
  refine (atMarker_marker _ _ hp).trans ((congrArg _ (segment_good _ _ hs)).trans ?_)
  simp only [h']
  rfl

theorem exec_sos_ok {l : List ScanComp} (h : sosParse s (s.segPayload lh) = .ok l) :
    exec .sos s = .next (s.pastMarker.acceptScan l (s.cur + 2 + lh)) := by
  have h' : sosParse s.pastMarker (s.segPayload lh) = .ok l := h
  refine (atMarker_marker _ _ hp).trans ((congrArg _ (segment_good _ _ hs)).trans ?_)
  simp only [h']

end

theorem acceptScan_comp (s : State) (l : List ScanComp) (segend : Nat) {j : Nat} (hj : j < 3) :
    (s.acceptScan l segend).scan.comp j = if j < s.frame.nf then l.getD j default else s.scan.comp j := by
  simp only [State.acceptScan, ScanRegs.comp, getAt_tabulate, if_pos hj]

/-- The table check of 41 R123, component by component. -/
theorem all_tablesPresent_iff {s : State} {comps : List SosComp} (hlen : comps.length = s.frame.nf) :
    (List.range s.frame.nf).all (fun j => s.tablesPresent j ((comps.map SosComp.reg).getD j default)) = true ↔
      ∀ j, (h : j < comps.length) → s.tablesPresent j comps[j].reg = true := by
  simp only [List.all_eq_true, List.mem_range, ← hlen]
  exact forall_congr' fun j => ⟨fun h hj => by simpa [hj] using h hj, fun h hj => by simpa [hj] using h hj⟩

/-- Settles O20: the first check that fails decides (`sosParse_sosPayload`). -/
theorem sosChecks : Obligations.SosChecks := by
  intro s lh hp hs
  refine ⟨fun h => exec_sos_error hp hs (sosParse_malformed ?_), fun ns rest hv hpay h => ?_, ?_⟩
  · exact h.imp_right fun h2 => by simp [State.inBytes, h2]
  · exact exec_sos_error hp hs (by rw [hpay, sosParse_badCount h])
  intro ns ss se ahal comps hv hpay hlen h1 h4
  have hparse := sosParse_sosPayload (ss := ss) (se := se) (ahal := ahal) hv hlen h1 h4
  obtain ⟨hgood, hbad⟩ := sosComps_spec s comps 0 [ss, se, ahal]
  simp only [Nat.zero_add] at hgood hbad
  refine ⟨fun h => ?_, fun hg => ⟨fun h => ?_, fun hn h0 h63 ha hmiss => ?_⟩⟩
  all_goals refine exec_sos_error hp hs ?_
  · rw [hpay, hparse, hbad h]
    rfl
  · rw [hpay, hparse, hgood hg]
    by_cases hn : ns.toNat ≠ s.frame.nf
    · exact if_pos hn
    · exact (if_neg hn).trans (if_pos (h.resolve_left hn))
  · have htables : ¬ (List.range s.frame.nf).all
        (fun j => s.tablesPresent j ((comps.map SosComp.reg).getD j default)) = true := by
      rw [all_tablesPresent_iff (hlen.trans hn)]
      obtain ⟨j, hj, hf⟩ := hmiss
      exact fun h => Bool.false_ne_true (hf.symm.trans (h j hj))
    have hbase : ¬ (ss ≠ 0 ∨ se ≠ 63 ∨ ahal ≠ 0) := by simp [h0, h63, ha]
    rw [hpay, hparse, hgood hg]
    exact (if_neg (not_not_intro hn)).trans ((if_neg hbase).trans (if_neg htables))

/-- Settles O19: every check passes (`sosComps_spec`), and the acceptance writes what 41 R124 and R125 say. -/
theorem sosAccepts : Obligations.SosAccepts := by
  intro s lh ns comps hp hs hv hpay hlen h1 h3 hn hall
  have hgood := (sosComps_spec s comps 0 [0, 63, 0]).1 fun j hj => by rw [Nat.zero_add]; exact (hall j hj).1
  have htables := (all_tablesPresent_iff (hlen.trans hn)).2 fun j hj => (hall j hj).2
  have hparse : sosParse s (s.segPayload lh) = .ok (comps.map SosComp.reg) := by
    rw [hpay, sosParse_sosPayload hv hlen h1 (by omega), hgood]
    exact (if_neg (not_not_intro hn)).trans ((if_neg (by decide)).trans (if_pos htables))
  refine ⟨_, exec_sos_ok hp hs hparse, rfl, s.pastMarker.scanEnd_spec _, fun j hj => ?_⟩
  refine (acceptScan_comp s.pastMarker _ _ hj).trans ?_
  simp only [State.pastMarker_fields, ← hn, ← hlen, ite_getD_map]

end Sys2Proof.Machine
end

section
/-! SUPPORT. The bit reader and the bit-serial Huffman match (spec 42 R140 to R145): runs of bits as `readBits_succ`
takes them apart, the canonical codes, and the scan data that ends too early. -/

namespace Sys2Proof.Machine

/-! Bits. -/

/-- Settles O23: the four cases of a bit read, each by its own lemma. -/
theorem readBitRule : Obligations.ReadBitRule := fun rd lim _ =>
  ⟨BitReader.readBit_held rd lim, BitReader.readBit_plain, BitReader.readBit_stuffed, BitReader.readBit_fail⟩

/-- Settles O24: the first bit and the rest by `readBits_succ`, two runs by `readBits_add`. -/
theorem readBitsMsbFirst : Obligations.ReadBitsMsbFirst := by
  intro rd lim b
  refine ⟨b.readBits_zero rd lim, fun n b' h => ?_, fun n x b1 h => ⟨fun b2 h2 => ?_, fun w b2 h2 => ?_⟩,
    fun m n v w b1 b2 h1 h2 => ⟨BitReader.readBits_add h1 h2, BitReader.readBits_lt h1⟩⟩
  · rw [BitReader.readBits_succ, h]
  all_goals simp only [BitReader.readBits_succ, h, h2]

/-- A run of at least one bit depends on the reader through its first bit read only. -/
theorem BitReader.readBits_succ_congr {rd : Nat → Byte} {lim : Nat} {b c : BitReader}
    (h : b.readBit rd lim = c.readBit rd lim) (n : Nat) : b.readBits rd lim (n + 1) = c.readBits rd lim (n + 1) := by
  rw [readBits_succ, readBits_succ, h]

theorem BitReader.readBit_loadStuffed (b : BitReader) (rd : Nat → Byte) (lim : Nat) :
    b.loadStuffed.readBit rd lim = .ok 1 ⟨b.bpos + 2, 0xFF, 7⟩ := by
  have hmsb : b.loadStuffed.bbuf.getLsbD (b.loadStuffed.bcnt - 1) = true := by simp [loadStuffed]
  rw [readBit_held rd lim (show 0 < b.loadStuffed.bcnt from Nat.succ_pos 7), hmsb]
  rfl

theorem exec_stuff00_scan {s : State} (hp : s.phase = .decode .dc ∨ s.phase = .decode .ac) (hc : s.br.bcnt = 0) :
    exec .stuff00 s = .next { s with br := s.br.loadStuffed } := by
  obtain hp | hp := hp <;> simp only [exec, execStuff00, hp, if_pos hc]

/-- Settles O32: the pair read as a bit is the most significant bit of the byte FF held. -/
theorem stuffedPair : Obligations.StuffedPair := by
  intro s hp hc
  refine ⟨exec_stuff00_scan hp hc, fun hl h0 h1 n => BitReader.readBits_succ_congr ?_ n⟩
  exact (BitReader.readBit_stuffed hc hl h0 h1).trans (s.br.readBit_loadStuffed _ _).symm

/-! EXTEND. -/

theorem extend_succ (v k : Nat) : extend v (k + 1) = if v < 2 ^ k then (v : Int) - 2 ^ (k + 1) + 1 else v :=
  if_neg k.succ_ne_zero

/-- Settles O25: below half the range EXTEND is negative, from half on it is the raw value. -/
theorem extendRanges : Obligations.ExtendRanges := by
  intro n v w hn hv hw
  obtain ⟨k, rfl⟩ := Nat.exists_eq_add_of_le' hn
  have hz : (2 ^ k : Int) = (2 ^ k : Nat) := by norm_cast
  simp only [extend_succ, Nat.add_sub_cancel, pow_succ, hz] at *
  generalize 2 ^ k = p at *
  refine ⟨fun h => ?_, fun h => if_neg (by omega), fun h => ?_, rfl⟩
  · rw [if_pos h]
    omega
  · split_ifs at h <;> omega

/-! Canonical codes. -/

/-- The first code of length `k + m` lies past every code that continues one of length `k` (42 R133). -/
theorem startCode_add_ge (l : Nat → Nat) {k : Nat} (hk : 1 ≤ k) (m : Nat) :
    (startCode l k + l k) * 2 ^ (m + 1) ≤ startCode l (k + (m + 1)) := by
  induction m with
  | zero => exact (startCode_succ l k hk).ge
  | succ m ih =>
    calc (startCode l k + l k) * 2 ^ (m + 1 + 1)
        = (startCode l k + l k) * 2 ^ (m + 1) * 2 := by rw [pow_succ, mul_assoc]
      _ ≤ (startCode l (k + (m + 1)) + l (k + (m + 1))) * 2 := by omega
      _ = startCode l (k + (m + 1 + 1)) := (startCode_succ l _ (by omega)).symm

/-- No code of a shorter length `k` is a prefix of a code of length `n` (42 R133). -/
theorem HuffTable.Canonical.lookup_prefix {t : HuffTable} (ht : t.Canonical) {k n j : Nat} (hk : 1 ≤ k) (hkn : k < n)
    (hn : n ≤ 16) : t.lookup k (((getAt t.mincode (n - 1) 0).toNat + j) / 2 ^ (n - k)) = none := by
  obtain ⟨-, -, hmk, -⟩ := ht k hk (by omega)
  obtain ⟨-, -, hmn, -⟩ := ht n (by omega) hn
  obtain ⟨m, rfl⟩ : ∃ m, n = k + (m + 1) := ⟨n - k - 1, by omega⟩
  have hge := startCode_add_ge (fun n => (getAt t.counts (n - 1) 0).toNat) hk m
  rw [HuffTable.lookup_none, hmk, hmn, Nat.add_sub_cancel_left]
  exact fun h => (h.2.trans_le ((Nat.le_div_iff_mul_le (Nat.two_pow_pos _)).2 (hge.trans (Nat.le_add_right _ j)))).false

/-- The match of a whole code: past `m` bits no prefix of which is a code, it goes on at length `m + 1`. -/
theorem HuffTable.decodeSym_skip {t : HuffTable} {rd : Nat → Byte} {lim m rem v : Nat} {b b' : BitReader}
    (hm : m + rem = 16) (h : b.readBits rd lim m = .ok v b')
    (hn : ∀ k, 1 ≤ k → k ≤ m → t.lookup k (v / 2 ^ (m - k)) = none) :
    t.decodeSym rd lim b = t.decodeFrom rd lim rem (m + 1) v b' := by
  have hs := t.decodeFrom_skip rd lim rem 1 0 h fun k h1 h2 => by
    rw [Nat.add_sub_cancel_left, Nat.zero_mul, Nat.zero_add]
    exact hn k h1 h2
  rwa [hm, Nat.zero_mul, Nat.zero_add, Nat.add_comm 1 m] at hs

/-- A run of one bit is the bit. -/
theorem BitReader.readBit_of_readBits_one {rd : Nat → Byte} {lim w : Nat} {b b' : BitReader}
    (h : b.readBits rd lim 1 = .ok w b') : b.readBit rd lim = .ok w b' := by
  rw [readBits_succ] at h
  cases hb : b.readBit rd lim with
  | fail c => rw [hb] at h; cases h
  | ok x c =>
    rw [hb] at h
    cases h
    rw [pow_zero, Nat.mul_one, Nat.add_zero]

/-- Settles O26: shorter lengths match nothing (`lookup_prefix`), so the bits of a code are skipped up to its last,
which completes it; 16 bits that match nothing are skipped altogether. -/
theorem huffmanMatch : Obligations.HuffmanMatch := by
  intro t rd lim b b'
  refine ⟨fun n j ht hn hn16 hj h => ?_, fun v h hnone => ?_⟩
  · obtain ⟨m, rfl⟩ := Nat.exists_eq_add_of_le' hn
    obtain ⟨v, w, b1, hv, hw, he⟩ := BitReader.readBits_split h
    have hbit := BitReader.readBit_of_readBits_one hw
    have hw1 := BitReader.readBit_le_one hbit
    rw [pow_one] at he
    have hskip := HuffTable.decodeSym_skip (t := t) (rem := 15 - m + 1) (by omega) hv fun k h1 h2 => by
      have hp := ht.lookup_prefix (j := j) h1 (Nat.lt_succ_of_le h2) hn16
      have hdiv : (v * 2 + w) / 2 ^ (m + 1 - k) = v / 2 ^ (m - k) := by
        rw [Nat.succ_sub h2, pow_succ', ← Nat.div_div_eq_div_mul, show (v * 2 + w) / 2 = v by omega]
      rwa [he, hdiv] at hp
    have hlook := t.lookup_some (m + 1) j hj
    rw [he, Nat.mul_comm] at hlook
    rw [hskip]
    simp only [HuffTable.decodeFrom, hbit, hlook]
  · exact HuffTable.decodeSym_skip (rem := 0) rfl h fun k h1 h2 => (t.lookup_none k _).2 (hnone k h1 h2)

/-! Scan data that ends too early. -/

theorem fetchSymbol_of_fail {s : State} {t : HuffTable} {b : BitReader}
    (h : t.decodeSym s.inByte s.scan.stop s.br = .fail b) (dec : Byte → Instr) :
    s.fetchSymbol t dec = .plain (State.failScan { s with br := b } .malformedEntropyStream) := by
  rw [State.fetchSymbol, h]

theorem exec_dcDiff (size : BitVec 4) {s : State} (hp : s.phase = .decode .dc) :
    exec (.dcDiff size) s =
      .next (s.clearZz.withRaw size.toNat (fun v s' => s'.setDc (extend v size.toNat))) := by
  simp only [exec, execDcDiff, atDc_dc _ hp]

theorem acCoef_of_le {s : State} {run : Nat} (h : s.blk.k + run ≤ 63) (size : Nat) :
    s.acCoef run size =
      s.withRaw size (fun v s' => (s'.setZz (s.blk.k + run) (extend v size)).acAt (s.blk.k + run + 1)) :=
  if_neg (by omega)

/-- Settles O31: each of the four places fails by `failScan` on the state with the consumed bits. -/
theorem scanDataExhausted : Obligations.ScanDataExhausted := by
  intro s b
  refine ⟨fun hh hp hm => ⟨_, ?_, State.failScan_spec _ _⟩, fun hh hp hm => ⟨_, ?_, State.failScan_spec _ _⟩,
    fun size hp hr => ⟨_, ?_, State.failScan_spec _ _⟩, fun run size hp hk hr => ⟨_, ?_, State.failScan_spec _ _⟩⟩
  · exact step_of_plain hh ((fetch_dc hp).trans (fetchSymbol_of_fail (s := s.clearZz) hm _))
  · exact step_of_plain hh ((fetch_ac hp).trans (fetchSymbol_of_fail hm _))
  · exact (exec_dcDiff size hp).trans (congrArg _ (State.withRaw_fail (s := s.clearZz) _ hr))
  · exact (atAc_ac _ hp).trans (congrArg _ ((acCoef_of_le hk _).trans (State.withRaw_fail _ hr)))

end Sys2Proof.Machine
end

section
/-! SUPPORT. The DHT segment (spec 42 R130 to R134): what the marker does with its definitions, and that a stored table
is canonical. -/

namespace Sys2Proof.Machine

/-! The segment. -/

theorem exec_dht_marker {s : State} {lh : Nat} (hp : s.phase = .parse .marker) (hs : s.HasSegment lh) :
    exec .dht s = .next (afterDefs (s.cur + 2 + lh)
      (dhtDefs s.cur (s.segPayload lh).length (s.segPayload lh) s.pastMarker)) :=
  (atMarker_marker _ _ hp).trans (congrArg _ (segment_good _ _ hs))

theorem dhtDefs_nil (moff fuel : Nat) (s : State) : dhtDefs moff fuel [] s = .ok s := by
  cases fuel <;> rfl

theorem dhtDefs_bad (moff : Nat) {fuel : Nat} {h : Byte} {q : List Byte} {kind : ErrKind}
    (hb : dhtDef (h :: q) = .error kind) (hf : (h :: q).length ≤ fuel) (s : State) :
    dhtDefs moff fuel (h :: q) s = .error (s.raise kind moff 0xFFC4) := by
  obtain ⟨n, rfl⟩ := Nat.exists_eq_add_of_le' ((Nat.succ_pos _).trans_le hf)
  rw [dhtDefs, hb]

theorem storeDht_cur (s : State) (c : Nat) (d : DhtParts) :
    State.storeDht { s with cur := c } d = { s.storeDht d with cur := c } := by
  simp only [State.storeDht]
  split <;> rfl

/-- Storing tables and moving the cursor do not meet. -/
theorem foldl_storeDht_cur (defs : List DhtParts) (s : State) (c : Nat) :
    defs.foldl State.storeDht { s with cur := c } = { defs.foldl State.storeDht s with cur := c } := by
  induction defs generalizing s with
  | nil => rfl
  | cons d ds ih => rw [List.foldl_cons, List.foldl_cons, storeDht_cur, ih]

theorem exec_dht_good {s : State} {lh : Nat} {defs : List DhtParts} (hp : s.phase = .parse .marker)
    (hs : s.HasSegment lh) (hpay : s.segPayload lh = defs.flatMap DhtParts.bytes) (hg : ∀ d ∈ defs, GoodDht d) :
    exec .dht s = .next { defs.foldl State.storeDht s with cur := s.cur + 2 + lh } := by
  obtain ⟨fuel, -, he⟩ := dhtDefs_good s.cur defs [] _ s.pastMarker hg le_rfl
  rw [List.append_nil] at he
  rw [exec_dht_marker hp hs, hpay, he, dhtDefs_nil, State.pastMarker, foldl_storeDht_cur]
  rfl

theorem exec_dht_bad {s : State} {lh : Nat} {defs : List DhtParts} {h : Byte} {q : List Byte} {kind : ErrKind}
    (hp : s.phase = .parse .marker) (hs : s.HasSegment lh)
    (hpay : s.segPayload lh = defs.flatMap DhtParts.bytes ++ h :: q) (hg : ∀ d ∈ defs, GoodDht d)
    (hb : dhtDef (h :: q) = .error kind) :
    exec .dht s = .next (State.failed (defs.foldl State.storeDht s) (s.cur + 2) kind s.cur 0xFFC4) := by
  obtain ⟨fuel, hf, he⟩ := dhtDefs_good s.cur defs (h :: q) _ s.pastMarker hg le_rfl
  rw [exec_dht_marker hp hs, hpay, he, dhtDefs_bad _ hb hf, State.pastMarker, foldl_storeDht_cur]
  rfl

/-- Settles O15: the good definitions are stored, then the bad one fails with its kind. -/
theorem dhtBadDefinition : Obligations.DhtBadDefinition :=
  fun _ _ _ h q hp hs hpay hg =>
    ⟨fun hb => exec_dht_bad hp hs hpay hg (dhtDef_badSlot h q hb),
      fun h1 h2 hb => exec_dht_bad hp hs hpay hg (dhtDef_badTable h q h1 h2 hb)⟩

/-! The stored table. -/

theorem firstSymbol_mono (l : Nat → Nat) : Monotone (firstSymbol l) :=
  monotone_nat_of_le_succ fun n => by
    cases n with
    | zero => exact le_rfl
    | succ n => exact Nat.le_add_right _ _

/-- `ptr` past the lengths `1 .. n` is the number of their symbols (42 R133). -/
theorem firstSymbol_eq_sum (l : Nat → Nat) (n : Nat) : firstSymbol l (n + 1) = ((List.range' 1 n).map l).sum := by
  induction n with
  | zero => rfl
  | succ n ih =>
    rw [firstSymbol_succ l (n + 1) n.succ_pos, ih, List.range'_concat, List.map_append, List.sum_append]
    simp [Nat.add_comm]

/-- The symbols of each length are among the `ΣL` of the definition. -/
theorem GoodDht.firstSymbol_add_le {d : DhtParts} (hd : GoodDht d) {n : Nat} (h1 : 1 ≤ n) (hn : n ≤ 16) :
    firstSymbol (lengthCount d.counts) n + lengthCount d.counts n ≤ 256 := by
  obtain ⟨-, -, hlen, hsum, -, -⟩ := hd
  rw [counts_eq_range _ hlen, ← firstSymbol_eq_sum] at hsum
  rw [← firstSymbol_succ _ n h1]
  exact (firstSymbol_mono _ (by omega)).trans hsum

theorem GoodDht.startCode_add_le {d : DhtParts} (hd : GoodDht d) {n : Nat} (h1 : 1 ≤ n) (hn : n ≤ 16) :
    startCode (lengthCount d.counts) n + lengthCount d.counts n ≤ 2 ^ n := by
  obtain ⟨-, -, -, -, -, hcodes⟩ := hd
  exact hcodes n (by simp only [List.mem_range'_1]; omega)

/-- The counts register holds the counts of the definition, at every length. -/
theorem DhtParts.table_count {d : DhtParts} (hlen : d.counts.length = 16) (old : HuffTable) (n : Nat) :
    (getAt (d.table old).counts (n - 1) 0).toNat = lengthCount d.counts n := by
  simp only [DhtParts.table, getAt_tabulate, lengthCount]
  split
  · rfl
  · rw [List.getD_eq_default _ _ (by omega)]

theorem DhtParts.table_sym (d : DhtParts) (old : HuffTable) {j : Nat} (h : j < d.syms.length) (h256 : j < 256) :
    getAt (d.table old).syms j 0 = d.syms.getD j 0 := by
  simp only [DhtParts.table, getAt_tabulate, if_pos h256, if_pos h]

/-- The codes of a definition fit MINCODE and VALPTR (10 R35), so the registers hold them exactly. -/
theorem GoodDht.canonical_table {d : DhtParts} (hd : GoodDht d) (old : HuffTable) : (d.table old).Canonical := by
  have ⟨_, _, hlen, _⟩ := hd
  intro n h1 hn
  rw [funext (DhtParts.table_count hlen old)]
  have hcode := hd.startCode_add_le h1 hn
  have hsym := hd.firstSymbol_add_le h1 hn
  have hpow : 2 ^ n ≤ 2 ^ 16 := Nat.pow_le_pow_right (by decide) hn
  refine ⟨hcode, hsym, ?_, ?_⟩
  all_goals
    simp only [DhtParts.table, getAt_tabulate, if_pos (show n - 1 < 16 by omega), Nat.sub_add_cancel h1,
      BitVec.toNat_ofNat]
    exact Nat.mod_eq_of_lt (by omega)

/-- Settles O14: the definitions are stored in turn (`exec_dht_good`), each as a canonical table. -/
theorem dhtStores : Obligations.DhtStores := by
  refine ⟨fun _ _ _ hp hs hpay hg => exec_dht_good hp hs hpay hg, fun d old hd => ?_⟩
  have htable := GoodDht.canonical_table hd old
  obtain ⟨-, -, hlen, hsum, hsyms, -⟩ := hd
  exact ⟨htable, rfl, fun n _ _ => DhtParts.table_count hlen old n, fun j hj => d.table_sym old hj (by omega)⟩

end Sys2Proof.Machine
end

section
/-! SUPPORT. The block decoder (spec 43 R150 to R158): the start of phase 2, the DC and AC symbols, a finished block,
and the pixels of the MCUs. -/

namespace Sys2Proof.Machine

/-! A finished block. -/

theorem getAt_dequantize_zigzag (zz : Vector Int 64) (q : Vector (BitVec 16) 64) {k : Nat} (h : k < 64) :
    getAt (dequantize zz q) (zigzag k) 0 = getAt zz k 0 * ((getAt q (zigzag k) 0).toNat : Int) := by
  simp only [dequantize, getAt_tabulate, if_pos (zigzag_lt h), zigzagPos_zigzag h]

/-- A block covers the samples whose row and column divided by 8 are its own (43 R158). -/
theorem getAt_placeBlock (plane : Vector Byte 256) (row col : Nat) (smp : Vector Byte 64) {y x : Nat} (hy : y < 16)
    (hx : x < 16) :
    getAt (placeBlock plane row col smp) (16 * y + x) 0 =
      if y / 8 = row ∧ x / 8 = col then getAt smp (8 * (y % 8) + x % 8) 0 else getAt plane (16 * y + x) 0 := by
  have hrow : (16 * y + x) / 16 = y := by omega
  have hcol : (16 * y + x) % 16 = x := by omega
  simp only [placeBlock, getAt_tabulate, if_pos (show 16 * y + x < 256 by omega), hrow, hcol]
  by_cases hin : y / 8 = row ∧ x / 8 = col
  · obtain ⟨rfl, rfl⟩ := hin
    rw [if_pos (by omega), if_pos ⟨rfl, rfl⟩, show y - 8 * (y / 8) = y % 8 by omega,
      show x - 8 * (x / 8) = x % 8 by omega]
  · rw [if_neg (by omega), if_neg hin]

/-- The next state of a finished block, whole. -/
theorem State.finishBlock_eq (s : State) :
    s.finishBlock =
      { s with
        coef := s.finishBlock.coef
        plane := s.plane.set s.blk.comp.val
          (placeBlock s.plane[s.blk.comp.val] s.blk.row s.blk.col (idct s.params.idctGeneral s.finishBlock.coef))
        blk := (s.frame.nextBlock s.blk).getD s.blk
        phase := if (s.frame.nextBlock s.blk).isSome then .decode .dc else .decode .mcuDone } := by
  simp only [State.finishBlock]
  cases s.frame.nextBlock s.blk <;> rfl

theorem State.finishBlock_coef (s : State) :
    s.finishBlock.coef = dequantize s.zz (s.qt[(s.frame.comp s.blk.comp.val).tq.val]).vals := by
  simp only [State.finishBlock]
  cases s.frame.nextBlock s.blk <;> rfl

theorem State.finishBlock_planeAt (s : State) (j : Nat) {y x : Nat} (hy : y < 16) (hx : x < 16) :
    s.finishBlock.planeAt j y x =
      if j = s.blk.comp.val ∧ y / 8 = s.blk.row ∧ x / 8 = s.blk.col then
        getAt (idct s.params.idctGeneral s.finishBlock.coef) (8 * (y % 8) + x % 8) 0
      else s.planeAt j y x := by
  rw [s.finishBlock_eq]
  simp only [State.planeAt, getAt_set]
  by_cases hj : j = s.blk.comp.val
  · subst hj
    simp only [if_true, true_and, getAt_placeBlock _ _ _ _ hy hx, getAt_lt _ _ _ s.blk.comp.isLt]
  · simp only [hj, if_false, false_and]

theorem State.finishBlock_next {s : State} {b : BlockPos} (h : s.frame.nextBlock s.blk = some b) :
    s.finishBlock.phase = .decode .dc ∧ s.finishBlock.blk = b := by
  rw [s.finishBlock_eq]
  simp only [h, Option.isSome_some, Option.getD_some, if_true, and_self]

theorem State.finishBlock_last {s : State} (h : s.frame.nextBlock s.blk = none) :
    s.finishBlock.phase = .decode .mcuDone ∧ s.finishBlock.blk = s.blk := by
  rw [s.finishBlock_eq]
  simp only [h, Option.isSome_none, Option.getD_none, Bool.false_eq_true, if_false, and_self]

section
variable {f : FrameRegs} {b : BlockPos}

theorem FrameRegs.nextBlock_col (h : b.col + 1 < (f.comp b.comp.val).h) :
    f.nextBlock b = some { b with col := b.col + 1 } :=
  if_pos h

theorem FrameRegs.nextBlock_row (hc : b.col + 1 = (f.comp b.comp.val).h) (h : b.row + 1 < (f.comp b.comp.val).v) :
    f.nextBlock b = some { b with row := b.row + 1, col := 0 } := by
  rw [nextBlock, if_neg hc.not_lt, if_pos h]

theorem FrameRegs.nextBlock_comp (hc : b.col + 1 = (f.comp b.comp.val).h) (hr : b.row + 1 = (f.comp b.comp.val).v)
    (h : b.comp.val + 1 < f.nf) (h3 : b.comp.val + 1 < 3) :
    f.nextBlock b = some { b with comp := ⟨b.comp.val + 1, h3⟩, row := 0, col := 0 } := by
  rw [nextBlock, if_neg hc.not_lt, if_neg hr.not_lt, dif_pos h3, if_pos h]

theorem FrameRegs.nextBlock_none (hc : b.col + 1 = (f.comp b.comp.val).h) (hr : b.row + 1 = (f.comp b.comp.val).v)
    (h : b.comp.val + 1 = f.nf) : f.nextBlock b = none := by
  simp only [nextBlock, if_neg hc.not_lt, if_neg hr.not_lt, if_neg h.not_lt, dite_eq_ite, ite_self]

end

/-- Settles O33: the step is `finishBlock`; its coefficients, its plane and its next block each by their lemma. -/
theorem blockDone : Obligations.BlockDone := by
  intro s hh hp hf _
  have hnf : s.frame.nf ≤ 3 := by have := hf.nf; omega
  refine ⟨s.finishBlock, step_of_plain hh (fetch_blockDone hp), ?_, fun k hk => ?_,
    fun j y x _ hy hx => s.finishBlock_planeAt j hy hx, fun h => State.finishBlock_next (FrameRegs.nextBlock_col h),
    fun hc h => State.finishBlock_next (FrameRegs.nextBlock_row hc h), fun hc hr h => ?_,
    fun hc hr h => State.finishBlock_last (FrameRegs.nextBlock_none hc hr h)⟩
  · rw [s.finishBlock_eq]
  · rw [s.finishBlock_coef, getAt_dequantize_zigzag _ _ hk]
  · obtain ⟨hphase, hblk⟩ := State.finishBlock_next (FrameRegs.nextBlock_comp hc hr h (by omega))
    rw [hblk]
    exact ⟨hphase, rfl, rfl, rfl, rfl⟩

/-! The start of phase 2. -/

/-- Settles O27: the registers are those of `FrameRegs.mcuRegs`, whose bounds `FrameRegs.Ok.geometry` gives. -/
theorem phase2Start : Obligations.Phase2Start := by
  intro s hh hp hf
  obtain ⟨-, -, -, -, hx1, hy1, hxlo, hxhi, hylo, hyhi⟩ := hf.geometry
  have hnf : 0 < s.frame.nf := by have := hf.nf; omega
  have hmcus : s.frame.mcuRegs.idx < s.frame.mcuRegs.mcux * s.frame.mcuRegs.mcuy := Nat.mul_pos hx1 hy1
  have hmcu : s.phase2Start.mcu = s.frame.mcuRegs := rfl
  refine ⟨s.phase2Start, step_of_plain hh (fetch_start hp), ?_, ?_⟩
  · simp only [State.phase2Start, State.nextMcu, if_pos hmcus]
    rfl
  rw [hmcu]
  refine ⟨fun j hj =>
      ⟨le_maxOver _ (fun j => (s.frame.comp j).h) j hj, le_maxOver _ (fun j => (s.frame.comp j).v) j hj⟩,
    maxOver_eq _ _ hnf fun j hj => ?_, maxOver_eq _ _ hnf fun j hj => ?_, hxlo, hxhi, hylo, hyhi, fun j hj => ?_⟩
  · obtain ⟨hh1, -⟩ := hf.comps j hj
    exact hh1
  · obtain ⟨-, -, hv1, -⟩ := hf.comps j hj
    exact hv1
  · have h3 : j < 3 := by have := hf.nf; omega
    simp only [State.phase2Start_fields, getAt_tabulate, if_pos h3, if_pos hj]

/-! DC symbols. -/

theorem exec_dcBad (sym : BitVec 8) {s : State} (hp : s.phase = .decode .dc) :
    exec (.dcBad sym) s = .next (s.clearZz.failScan .corruptBlock) := by
  simp only [exec, execDcBad, atDc_dc _ hp]

/-- Settles O28, one symbol at a time. -/
theorem dcSymbols : Obligations.DcSymbols := by
  intro s hp
  refine ⟨?_, fun size v b hr => ?_, fun sym => ⟨_, exec_dcBad sym hp, State.failScan_spec _ _⟩⟩
  · have hpred : s.pred.set s.blk.comp.val s.pred[s.blk.comp.val] = s.pred := Vector.set_getElem_self _
    simp only [exec, execDcZero, atDc_dc _ hp, State.setDc, Int.add_zero, hpred]
  · rw [exec_dcDiff size hp, State.withRaw_ok (s := s.clearZz) _ hr]
    rfl

/-! AC symbols. -/

theorem acCoef_of_lt {s : State} {run : Nat} (h : 63 < s.blk.k + run) (size : Nat) :
    s.acCoef run size = s.failScan .corruptBlock :=
  if_pos h

/-- A coefficient whose raw bits can be read is placed, and ends the block at position 63 (43 R152). -/
theorem acCoef_of_read {s : State} {run size v : Nat} {b : BitReader} (h : s.blk.k + run ≤ 63)
    (hr : s.br.readBits s.inByte s.scan.stop size = .ok v b) :
    s.acCoef run size =
      { s with
        br := b
        zz := s.zz.setIfInBounds (s.blk.k + run) (extend v size)
        blk := { s.blk with k := s.blk.k + run + 1 }
        phase := if s.blk.k + run = 63 then .decode .blockDone else .decode .ac } := by
  rw [acCoef_of_le h, State.withRaw_ok _ hr]
  by_cases hlast : s.blk.k + run = 63
  · rw [State.acAt, if_neg (by omega), if_pos hlast]
    rfl
  · rw [State.acAt, if_pos (by omega), if_neg hlast]
    rfl

/-- Settles O30: both symbols are `acCoef`, AC_R0 with no raw bit. -/
theorem acCoefficients : Obligations.AcCoefficients := by
  intro s run size hp
  have hrs : exec (.acRs run size) s = .next (s.acCoef run.toNat size.toNat) := atAc_ac _ hp
  have hr0 : exec (.acR0 run) s = .next (s.acCoef run.toNat 0) := atAc_ac _ hp
  refine ⟨fun hk => ?_, fun hk => ⟨?_, fun v b hr => ?_⟩⟩
  · rw [hrs, hr0, acCoef_of_lt hk, acCoef_of_lt hk]
    exact ⟨⟨_, rfl, s.failScan_spec _⟩, ⟨_, rfl, s.failScan_spec _⟩⟩
  · rw [hr0, acCoef_of_read hk (s.br.readBits_zero _ _)]
    rfl
  · rw [hrs, acCoef_of_read hk hr]

theorem acAt_of_lt {s : State} {k : Nat} (hp : s.phase = .decode .ac) (h : k < 64) :
    s.acAt k = { s with blk := { s.blk with k := k } } := by
  rw [State.acAt, if_pos h, ← hp]

theorem exec_zrl {s : State} (hp : s.phase = .decode .ac) :
    exec .zrl s = .next (if 64 < s.blk.k + 16 then s.failScan .corruptBlock else s.acAt (s.blk.k + 16)) := by
  simp only [exec, execZrl, atAc_ac _ hp]

theorem exec_eob {s : State} (hp : s.phase = .decode .ac) :
    exec .eob s = .next { s with phase := .decode .blockDone } := by
  simp only [exec, execEob, atAc_ac _ hp]

/-- Settles O29: EOB, then ZRL below, at and past the last position it can reach. -/
theorem eobAndZrl : Obligations.EobAndZrl := by
  intro s hp
  refine ⟨exec_eob hp, fun hk => ?_, fun hk => ?_, fun hk => ⟨_, ?_, s.failScan_spec _⟩⟩
  · rw [exec_zrl hp, if_neg (by omega), acAt_of_lt hp (by omega)]
  · rw [exec_zrl hp, hk]
    rfl
  · rw [exec_zrl hp, if_pos (by omega)]

/-! The pixels of the MCUs. -/

/-- A coordinate lies in one tile of size `a`, at one place in it. -/
theorem tile_unique {a q r x : Nat} (hr : r < a) (h : x = a * q + r) : q = x / a ∧ r = x % a := by
  obtain ⟨hq, hm⟩ := (Nat.div_mod_unique (Nat.zero_lt_of_lt hr)).2 ⟨(Nat.add_comm r _).trans h.symm, hr⟩
  exact ⟨hq.symm, hm.symm⟩

/-- Settles O39: column and row determine the MCU's column and row and the place in it, and those the index. -/
theorem everyPixelInOneMcu : Obligations.EveryPixelInOneMcu := by
  intro f p hf x y hx hy
  obtain ⟨hh, -, hv, -, hmx, -, -, hX, -, hY⟩ := hf.geometry
  generalize f.mcuRegs = g at *
  have hcol : x / (8 * g.hmax) < g.mcux := Nat.div_lt_of_lt_mul (hx.trans_le hX)
  have hrow : y / (8 * g.vmax) < g.mcuy := Nat.div_lt_of_lt_mul (hy.trans_le hY)
  obtain ⟨hdiv, hmod⟩ := tile_unique (q := y / (8 * g.vmax)) hcol rfl
  refine ⟨g.mcux * (y / (8 * g.vmax)) + x / (8 * g.hmax), x % (8 * g.hmax), y % (8 * g.vmax),
    ⟨?_, Nat.mod_lt _ (by omega), Nat.mod_lt _ (by omega), ?_, ?_⟩, fun m px py _ hpx hpy hxm hym => ?_⟩
  · calc g.mcux * (y / (8 * g.vmax)) + x / (8 * g.hmax)
        < g.mcux * (y / (8 * g.vmax) + 1) := by rw [Nat.mul_succ]; omega
      _ ≤ g.mcux * g.mcuy := Nat.mul_le_mul_left _ hrow
  · rw [← hmod, Nat.div_add_mod]
  · rw [← hdiv, Nat.div_add_mod]
  · obtain ⟨hmc, hpx'⟩ := tile_unique hpx hxm
    obtain ⟨hmr, hpy'⟩ := tile_unique hpy hym
    exact ⟨by rw [← hmc, ← hmr, Nat.div_add_mod], hpx', hpy'⟩

end Sys2Proof.Machine
end

section
/-! SUPPORT. The inverse DCT (spec 44 R160 to R164): the clamp to a byte, the two passes and the choice between them. -/

namespace Sys2Proof.Machine

/-! Levels and bytes. -/

theorem clamp8_range (v : Int) : 0 ≤ clamp8 v ∧ clamp8 v ≤ 255 := by
  unfold clamp8
  omega

theorem clamp8_of_range {v : Int} (h : 0 ≤ v ∧ v ≤ 255) : clamp8 v = v := by
  unfold clamp8
  omega

@[simp] theorem clamp8_clamp8 (v : Int) : clamp8 (clamp8 v) = clamp8 v := clamp8_of_range (clamp8_range v)

/-- Clamping does not enlarge a difference of one level. -/
theorem clamp8_le_clamp8_add_one {v w : Int} (h : v ≤ w + 1) : clamp8 v ≤ clamp8 w + 1 := by
  unfold clamp8
  omega

/-- A byte holds every clamped level. -/
@[simp] theorem toNat_clampByte (v : Int) : ((clampByte v).toNat : Int) = clamp8 v := by
  obtain ⟨h0, h255⟩ := clamp8_range v
  rw [clampByte, BitVec.toNat_ofNat, Nat.mod_eq_of_lt (by omega), Int.toNat_of_nonneg h0]

/-! The choice of 44 R161. -/

theorem dcOnly_iff (coef : Vector Int 64) : dcOnly coef = true ↔ ∀ k, 1 ≤ k → k < 64 → getAt coef k 0 = 0 := by
  simp only [dcOnly, List.all_eq_true, List.mem_range, decide_eq_true_eq]
  refine ⟨fun h k h1 hk => ?_, fun h k hk => h (k + 1) (by omega) (by omega)⟩
  have hpred := h (k - 1) (by omega)
  rwa [Nat.sub_add_cancel h1] at hpred

theorem idct_of_ac_zero (g : IdctGeneral) {coef : Vector Int 64} (h : ∀ k, 1 ≤ k → k < 64 → getAt coef k 0 = 0) :
    idct g coef = Vector.replicate 64 (clampByte (idctDc (getAt coef 0 0))) :=
  if_pos ((dcOnly_iff coef).2 h)

theorem idct_of_ac_ne_zero (g : IdctGeneral) {coef : Vector Int 64} (h : ∃ k, 1 ≤ k ∧ k < 64 ∧ getAt coef k 0 ≠ 0) :
    idct g coef = idctGeneral g coef := by
  obtain ⟨k, h1, hk, hne⟩ := h
  exact if_neg fun hdc => hne ((dcOnly_iff coef).1 hdc k h1 hk)

/-! The two passes of 44 R163. -/

theorem sum8_eq_sum_range (f : Nat → Int) : sum8 f = ∑ i ∈ Finset.range 8, f i := by
  simp only [sum8, Finset.sum_range_succ, Finset.sum_range_zero, zero_add]

theorem getAt_idctRows (coef : Vector Int 64) {v x : Nat} (hv : v < 8) (hx : x < 8) :
    getAt (idctRows coef) (8 * v + x) 0 = ∑ u ∈ Finset.range 8, idctA u x * getAt coef (8 * v + u) 0 := by
  have hcol : (8 * v + x) % 8 = x := by omega
  have hrow : (8 * v + x) / 8 = v := by omega
  rw [idctRows, getAt_tabulate, if_pos (by omega), hcol, hrow, sum8_eq_sum_range]

/-- The column pass, over the rows the first pass gives. -/
theorem idctStandardAt_idctRows (coef : Vector Int 64) {y x : Nat} (hx : x < 8) :
    idctStandardAt (idctRows coef) (8 * y + x) =
      clamp8 (((∑ v ∈ Finset.range 8, idctA v y * ∑ u ∈ Finset.range 8, idctA u x * getAt coef (8 * v + u) 0) +
        2 ^ 25) / 2 ^ 26 + 128) := by
  have hcol : (8 * y + x) % 8 = x := by omega
  have hrow : (8 * y + x) / 8 = y := by omega
  rw [idctStandardAt, shr, hcol, hrow, sum8_eq_sum_range, Finset.sum_congr rfl fun v hv => by
    rw [getAt_idctRows coef (Finset.mem_range.1 hv) hx]]

/-! The samples of each realisation. -/

theorem clamp8_idctStandardAt (t : Vector Int 64) (n : Nat) : clamp8 (idctStandardAt t n) = idctStandardAt t n :=
  clamp8_clamp8 _

theorem idctGeneral_standard_toNat (coef : Vector Int 64) {n : Nat} (hn : n < 64) :
    ((getAt (idctGeneral .standard coef) n 0).toNat : Int) = idctStandardAt (idctRows coef) n := by
  simp only [idctGeneral, getAt_tabulate, if_pos hn, toNat_clampByte, clamp8_idctStandardAt]

/-- A sample of any realisation is a level within one of the default's (44 R164), clamped. -/
theorem idctGeneral_toNat_near (g : IdctGeneral) (coef : Vector Int 64) {n : Nat} (hn : n < 64) :
    ∃ level : Int, ((getAt (idctGeneral g coef) n 0).toNat : Int) = clamp8 level ∧
      level ≤ idctStandardAt (idctRows coef) n + 1 ∧ idctStandardAt (idctRows coef) n ≤ level + 1 := by
  cases g with
  | standard =>
    exact ⟨idctStandardAt (idctRows coef) n,
      by rw [idctGeneral_standard_toNat coef hn, clamp8_idctStandardAt], by omega, by omega⟩
  | variant r =>
    have hdev := (Config.idctDeviation r coef.toList n).isLt
    refine ⟨idctStandardAt (idctRows coef) n + ((Config.idctDeviation r coef.toList n).val : Int) - 1,
      ?_, by omega, by omega⟩
    simp only [idctGeneral, getAt_tabulate, if_pos hn, toNat_clampByte]

/-! The obligations. -/

/-- Settles O34: the block is a replicated byte, and that byte is the clamped level of 44 R162. -/
theorem idctDcOnly : Obligations.IdctDcOnly := by
  intro g coef n hn hac
  rw [idct_of_ac_zero g hac, getAt_replicate, if_pos hn, toNat_clampByte, idctDc, clamp8_clamp8]
  rfl

/-- Settles O35: the general transform applies, and its row and column pass are the double sum. -/
theorem idctDefault : Obligations.IdctDefault := by
  intro coef y x hy hx hac
  rw [idct_of_ac_ne_zero _ hac, idctGeneral_standard_toNat coef (by omega), idctStandardAt_idctRows coef hx]
  rfl

/-- Settles O36: the levels are within one of each other before the clamp, and the clamp keeps that. -/
theorem idctVariants : Obligations.IdctVariants := by
  intro g coef n hn hac
  obtain ⟨level, hlevel, hle, hge⟩ := idctGeneral_toNat_near g coef hn
  rw [idct_of_ac_ne_zero g hac, idct_of_ac_ne_zero .standard hac, hlevel, idctGeneral_standard_toNat coef hn,
    ← clamp8_idctStandardAt]
  exact ⟨clamp8_le_clamp8_add_one hle, clamp8_le_clamp8_add_one hge⟩

end Sys2Proof.Machine
end

section
/-! SUPPORT. The colour conversion and the bytes of a finished MCU (spec 45 R170 to R181): each integer of 45 R175 is
the nearest one, and each byte of a pixel inside the image is written at a raster index of its own. -/

namespace Sys2Proof.Machine

/-! The colour conversion. -/

/-- Over an even divisor `rhu` is the nearest integer, a tie rounded up (00 R12). -/
theorem rhu_nearest (n : Int) {d : Int} (hd : 0 < d) (heven : 2 ∣ d) :
    2 * (d * rhu n d) - d ≤ 2 * n ∧ 2 * n < 2 * (d * rhu n d) + d := by
  have hle : d * rhu n d ≤ n + d / 2 := Int.mul_ediv_self_le hd.ne'
  have hlt : n + d / 2 < d * rhu n d + d := Int.lt_mul_ediv_self_add hd
  omega

theorem clampByte_eq_ofInt (v : Int) : clampByte v = BitVec.ofInt 8 (min 255 (max 0 v)) := by
  have ⟨h0, _⟩ := clamp8_range v
  rw [clampByte, ← BitVec.ofInt_natCast, Int.toNat_of_nonneg h0, clamp8]

/-- Settles O37: the integers are the model's roundings of millionths, each the nearest one by `rhu_nearest`. -/
theorem colourConversion : Obligations.ColourConversion := by
  intro y cb cr
  have nearest (n : Int) := rhu_nearest n (d := 1000000) (by decide) (by decide)
  refine ⟨_, _, _, by simp only [ycc2rgb, clampByte_eq_ofInt]; rfl, ?_, ?_, ?_⟩
  · have := nearest (1000000 * y.toNat + 1402000 * ((cr.toNat : Int) - 128))
    omega
  · have := nearest (1000000 * y.toNat - 344136 * ((cb.toNat : Int) - 128) - 714136 * ((cr.toNat : Int) - 128))
    omega
  · have := nearest (1000000 * y.toNat + 1772000 * ((cb.toNat : Int) - 128))
    omega

/-! The bytes of a finished MCU. -/

/-- The bytes an MCU writes are those of its pixels inside the image (45 R180, R181). -/
theorem State.mem_mcuCells_iff_inFootprint (s : State) (i : Nat) (b : Byte) :
    (i, b) ∈ s.mcuCells ↔
      ∃ px py ch, s.InFootprint px py ∧ (s.pixel px py)[ch]? = some b ∧
        i = (s.pixelRow py * s.frame.x.toNat + s.pixelCol px) * s.frame.nf + ch := by
  simp only [mem_mcuCells, mem_pixelCells, Prod.mk.injEq, List.getElem?_eq_some_iff]
  constructor
  · rintro ⟨py, hpy, px, hpx, hcol, hrow, ch, hch, hi, rfl⟩
    exact ⟨px, py, ch, ⟨hpx, hpy, hcol, hrow⟩, ⟨hch, rfl⟩, hi⟩
  · rintro ⟨px, py, ch, ⟨hpx, hpy, hcol, hrow⟩, ⟨hch, rfl⟩, hi⟩
    exact ⟨py, hpy, px, hpx, hcol, hrow, ch, hch, hi, rfl⟩

theorem State.lt_nf_of_pixel_getElem? {s : State} (hnf : s.frame.nf = 1 ∨ s.frame.nf = 3) {px py ch : Nat} {b : Byte}
    (hb : (s.pixel px py)[ch]? = some b) : ch < s.frame.nf := by
  obtain ⟨hch, -⟩ := List.getElem?_eq_some_iff.1 hb
  rwa [s.pixel_length px py hnf] at hch

/-- An MCU lists one byte only for the index of a channel of a pixel: the index determines place and channel. -/
theorem State.mcuCells_unique {s : State} (hnf : s.frame.nf = 1 ∨ s.frame.nf = 3) {px py ch : Nat} {b b' : Byte}
    (hin : s.InFootprint px py) (hb : (s.pixel px py)[ch]? = some b)
    (hmem : ((s.pixelRow py * s.frame.x.toNat + s.pixelCol px) * s.frame.nf + ch, b') ∈ s.mcuCells) : b' = b := by
  obtain ⟨px', py', ch', hin', hb', hi⟩ := (s.mem_mcuCells_iff_inFootprint _ _).1 hmem
  obtain ⟨-, -, hcol, -⟩ := hin
  obtain ⟨-, -, hcol', -⟩ := hin'
  obtain ⟨hx, hy, rfl⟩ := raster_injective hcol hcol' (lt_nf_of_pixel_getElem? hnf hb)
    (lt_nf_of_pixel_getElem? hnf hb') hi
  obtain rfl : px = px' := Nat.add_left_cancel hx
  obtain rfl : py = py' := Nat.add_left_cancel hy
  exact Option.some.inj (hb'.symm.trans hb)

theorem State.emitMcu_outByte (s : State) (i : Nat) :
    s.emitMcu.outByte i = ((s.outBuf.writes s.mcuCells).read i).getD (Config.powerOnOut s.epoch i) := rfl

/-- A finished MCU leaves channel `ch` of a pixel inside the image at its raster index (45 R180, R181). -/
theorem State.emitMcu_outByte_pixel {s : State} (hnf : s.frame.nf = 1 ∨ s.frame.nf = 3) {px py ch : Nat} {b : Byte}
    (hin : s.InFootprint px py) (hb : (s.pixel px py)[ch]? = some b) :
    s.emitMcu.outByte ((s.pixelRow py * s.frame.x.toNat + s.pixelCol px) * s.frame.nf + ch) = b := by
  have hmem := (s.mem_mcuCells_iff_inFootprint _ b).2 ⟨px, py, ch, hin, hb, rfl⟩
  rw [emitMcu_outByte, Memory.read_writes_mem _ _ _ b hmem fun _ => mcuCells_unique hnf hin hb, Option.getD_some]

/-- A finished MCU keeps every byte but those of its pixels inside the image (45 R180). -/
theorem State.emitMcu_outByte_frame {s : State} (hnf : s.frame.nf = 1 ∨ s.frame.nf = 3) {i : Nat}
    (hi : ¬ ∃ px py ch, s.InFootprint px py ∧ ch < s.frame.nf ∧
      i = (s.pixelRow py * s.frame.x.toNat + s.pixelCol px) * s.frame.nf + ch) :
    s.emitMcu.outByte i = s.outByte i := by
  rw [emitMcu_outByte, Memory.read_writes, outByte]
  rintro ⟨_, b⟩ hmem rfl
  obtain ⟨px, py, ch, hin, hb, he⟩ := (s.mem_mcuCells_iff_inFootprint _ b).1 hmem
  exact hi ⟨px, py, ch, hin, lt_nf_of_pixel_getElem? hnf hb, he⟩

/-! The channels of a pixel (45 R173, R174). -/

theorem State.pixel_gray {s : State} (h : s.frame.nf = 1) (px py : Nat) : s.pixel px py = [s.samplePoint 0 px py] :=
  if_pos h

theorem State.pixel_colour {s : State} (h : s.frame.nf = 3) (px py : Nat) :
    s.pixel px py = ycc2rgb (s.samplePoint 0 px py) (s.samplePoint 1 px py) (s.samplePoint 2 px py) :=
  if_neg (by omega)

theorem ycc2rgb_length (y cb cr : Byte) : (ycc2rgb y cb cr).length = 3 := rfl

/-- Settles O38: the step is `emitMcu`, which writes the channels of each pixel inside the image, and no other byte. -/
theorem emitMcu : Obligations.EmitMcu := by
  intro s hh hp hnf
  refine ⟨s.emitMcu, step_of_plain hh (fetch_mcuDone hp), rfl,
    fun px py hin => ⟨fun h1 => ?_, fun h3 ch hch => ?_⟩, fun i => State.emitMcu_outByte_frame hnf⟩
  · have hgray := State.emitMcu_outByte_pixel hnf hin (ch := 0) (by rw [State.pixel_gray h1, List.getElem?_cons_zero])
    rwa [h1, Nat.mul_one] at hgray
  · have hcolour := State.emitMcu_outByte_pixel hnf hin (ch := ch) (by
      rw [State.pixel_colour h3, List.getElem?_eq_getElem (hch.trans_eq (ycc2rgb_length _ _ _).symm)])
    rwa [h3, ← List.getD_eq_getElem _ 0] at hcolour

end Sys2Proof.Machine
end

section
/-! SUPPORT. The host interface (spec 46 R190 to R197, 20 R58 to R65): which event is a step, what an aligned word
access of a CSR does, the fields of the words read, and the bytes a buffer access stores or answers. -/

namespace Sys2Proof.Machine

/-! Whose step it is. -/

theorem step_of_due {s : State} {e : HostEvent} {rest : List HostSlot} (h : s.host = ⟨0, e⟩ :: rest) :
    step s = hostStep e { s with host := rest } := by
  rw [step, h]

theorem step_of_wait {s : State} {n : Nat} {e : HostEvent} {rest : List HostSlot} (h : s.host = ⟨n + 1, e⟩ :: rest) :
    step s = coreStep { s with host := ⟨n, e⟩ :: rest } := by
  rw [step, h]

theorem decodeHost_of_decode {p : Params} {addr : Word} {a : Access} {i : Instr}
    (h : decode p .hostacc (encodeHost addr a) = .ok i) : decodeHost p addr a = i :=
  Except.ok.inj ((decode_encodeHost rfl).symm.trans h)

/-- Settles O49: a step is a core step or an event of the host, and both go on in every state (`coreStep_move`,
`hostStep_move`). -/
theorem everyStepGoesOn : Obligations.EveryStepGoesOn := by
  intro s
  have core (u : State) : ∃ t, coreStep u = .next t := (coreStep_move u).imp fun _ h => h.1
  match hh : s.host with
  | [] => rw [step_of_host_nil hh]; exact core s
  | ⟨0, e⟩ :: rest => rw [step_of_due hh]; exact (hostStep_move e _).imp fun _ h => h.1
  | ⟨n + 1, e⟩ :: rest => rw [step_of_wait hh]; exact core _

/-- Settles O4: the queue decides whose step it is, and the bytes of an access decode to what its address does. -/
theorem stepRunsHostAccess : Obligations.StepRunsHostAccess := by
  intro s rest
  refine ⟨fun r i hh hd => ?_, fun n e hh => step_of_wait hh, step_of_host_nil,
    fun hh hp => step_of_plain hh (fetch_idle hp)⟩
  rw [step_of_due hh, ← decodeHost_of_decode hd]
  rfl

/-! CSR writes. -/

section
variable (v : Word) (s : State)

theorem exec_csrCtrl_write : exec (.csrCtrl 0 ⟨.four, .write, v⟩) s = .next (s.writeCtrl v) := rfl

theorem exec_csrStatus_write : exec (.csrStatus 0 ⟨.four, .write, v⟩) s = .next (s.writeStatus v) := rfl

theorem exec_csrInLen_write : exec (.csrInLen 0 ⟨.four, .write, v⟩) s = .next (s.writeInLen v) := rfl

end

theorem writeCtrl_start {v : Word} {s : State} (hv : v.getLsbD 0 = true) (hb : s.busy = false) :
    s.writeCtrl v = State.startDecode { s with csr := { s.csr with irqEn := v.getLsbD 1 } } :=
  if_pos ⟨hv, hb⟩

theorem writeCtrl_no_start {v : Word} {s : State} (h : v.getLsbD 0 = false ∨ s.busy = true) :
    s.writeCtrl v = { s with csr := { s.csr with irqEn := v.getLsbD 1 } } := by
  refine if_neg fun ⟨hv, hb⟩ => ?_
  rw [hv, hb] at h
  exact h.elim Bool.noConfusion Bool.noConfusion

/-- Settles O41: START is `startDecode`, which keeps each table but its valid bit; any other write sets IRQ_EN. -/
theorem ctrlWrite : Obligations.CtrlWrite := by
  intro s v
  refine ⟨fun hv hb => ⟨_, by rw [exec_csrCtrl_write, writeCtrl_start hv hb], rfl, fun k hk => ⟨?_, ?_, ?_⟩⟩,
    fun h => by rw [exec_csrCtrl_write, writeCtrl_no_start h]⟩
  · exact getAt_map s.qt QuantTable.invalidate k .reset .reset hk
  · exact getAt_map s.htDc HuffTable.invalidate k .reset .reset hk
  · exact getAt_map s.htAc HuffTable.invalidate k .reset .reset hk

/-- Settles O42: the two write rules, the write-one-to-clear bits said as a choice. -/
theorem statusAndInLenWrites : Obligations.StatusAndInLenWrites := by
  intro s v
  have clear (a b : Bool) : (a && !b) = if b = true then false else a := by cases b <;> simp
  exact ⟨by rw [exec_csrStatus_write, State.writeStatus, Csr.ackStatus, clear, clear],
    by rw [exec_csrInLen_write, State.writeInLen]⟩

/-! CSR reads. -/

theorem ctrlWord_eq (s : State) : s.ctrlWord = if s.csr.irqEn = true then 2 else 0 := by
  rw [State.ctrlWord, bit]
  split <;> rfl

/-- The fields of STATUS at their bits (10 R25). -/
theorem packedStatus_fields : ∀ (busy done err : Bool) (code : BitVec 3),
    let r : Word := BitVec.ofNat 32 (bit busy 0 + bit done 1 + bit err 2 + 16 * code.toNat)
    r.getLsbD 0 = busy ∧ r.getLsbD 1 = done ∧ r.getLsbD 2 = err ∧ r.getLsbD 3 = false ∧
      r.extractLsb' 4 3 = code ∧ r.extractLsb' 7 25 = 0 := by
  decide

/-- A count that fits its register reads as itself (10 R26, R27, R32). -/
theorem countWord_toNat {w n : Nat} (hw : w ≤ 24) (hn : n ≤ 2 ^ w) : (countWord w n).toNat = n := by
  have hreg : n < 2 ^ (w + 1) := by rw [Nat.pow_succ]; have := Nat.two_pow_pos w; omega
  have hword : 2 ^ (w + 1) ≤ 2 ^ 32 := Nat.pow_le_pow_right (by decide) (by omega)
  rw [countWord, Nat.mod_eq_of_lt hreg, BitVec.toNat_ofNat, Nat.mod_eq_of_lt (by omega)]

/-- A register in the low bits of a word whose other bits are 0. -/
theorem setWidth_eq_zero_append {n : Nat} (m : Nat) (x : BitVec n) : x.setWidth (m + n) = 0#m ++ x := by
  rw [BitVec.setWidth_eq_append (Nat.le_add_left n m)]
  simp

/-- Settles O43, one CSR at a time: an aligned word read answers the CSR's word. -/
theorem csrReads : Obligations.CsrReads := by
  intro s d hp hin hoff hout
  obtain ⟨-, hinBits, -, houtBits⟩ := hp
  have answers {r r' : Word} (h : r = r') :
      (.next { s with rdata := r } : Host.Outcome State Fault Refusal) = .next { s with rdata := r' } := by rw [h]
  exact ⟨rfl, answers (ctrlWord_eq s), ⟨s.statusWord, rfl, packedStatus_fields ..⟩,
    ⟨s.inLenWord, rfl, countWord_toNat hinBits hin⟩, ⟨s.errOffsetWord, rfl, countWord_toNat hinBits hoff⟩,
    answers (setWidth_eq_zero_append 16 s.csr.errMarker), answers (setWidth_eq_zero_append 16 s.csr.imgWidth),
    answers (setWidth_eq_zero_append 16 s.csr.imgHeight), answers (setWidth_eq_zero_append 30 s.csr.imgChannels),
    ⟨s.outLenWord, rfl, countWord_toNat houtBits hout⟩⟩

/-! Buffer writes. -/

/-- What a run of `n` bytes written from index `i` on leaves at each index. -/
theorem Memory.read_writes_run (m : Memory) (i n : Nat) (f : Nat → Byte) (a : Nat) :
    (m.writes ((List.range n).map fun k => (i + k, f k))).read a =
      if i ≤ a ∧ a < i + n then some (f (a - i)) else m.read a := by
  have hcell (b : Byte) : (a, b) ∈ (List.range n).map (fun k => (i + k, f k)) ↔
      (i ≤ a ∧ a < i + n) ∧ f (a - i) = b := by
    simp only [List.mem_map, List.mem_range, Prod.mk.injEq]
    constructor
    · rintro ⟨k, hk, rfl, hb⟩
      exact ⟨by omega, by rwa [Nat.add_sub_cancel_left]⟩
    · rintro ⟨hin, hb⟩
      exact ⟨a - i, by omega, by omega, hb⟩
  split
  case isTrue hin =>
    exact read_writes_mem m _ a _ ((hcell _).2 ⟨hin, rfl⟩) fun b hb => ((hcell b).1 hb).2.symm
  case isFalse hout =>
    refine read_writes m _ a ?_
    rintro ⟨_, b⟩ hb rfl
    exact hout ((hcell b).1 hb).1

/-- The `n` bytes of a write in a form 20 R61 allows are the low lanes of its data. -/
theorem storedBytes_lanes {w : Width} {i n : Nat} (h : w = .one ∧ n = 1 ∨ w = .four ∧ n = 4 ∧ i % 4 = 0) (v : Word) :
    storedBytes i ⟨w, .write, v⟩ = (List.range n).map fun k => (i + k, laneOf v k) := by
  obtain ⟨rfl, rfl⟩ | ⟨rfl, rfl, hi⟩ := h
  · rfl
  · exact (if_neg Width.noConfusion).trans (if_pos ⟨rfl, hi⟩)

section
variable (i : BitVec 24) (w : Width) (v : Word) {s : State}

theorem exec_inbuf_write_busy (h : s.busy = true) : exec (.inbuf i ⟨w, .write, v⟩) s = .next s :=
  congrArg Host.Outcome.next (if_pos h)

theorem exec_outbuf_write_busy (h : s.busy = true) : exec (.outbuf i ⟨w, .write, v⟩) s = .next s :=
  congrArg Host.Outcome.next (if_pos h)

theorem exec_inbuf_write (h : s.busy = false) : exec (.inbuf i ⟨w, .write, v⟩) s =
    .next { s with inBuf := s.inBuf.writes (storedBytes i.toNat ⟨w, .write, v⟩) } :=
  congrArg Host.Outcome.next (if_neg (by rw [h]; exact Bool.false_ne_true))

theorem exec_outbuf_write (h : s.busy = false) : exec (.outbuf i ⟨w, .write, v⟩) s =
    .next { s with outBuf := s.outBuf.writes (storedBytes i.toNat ⟨w, .write, v⟩) } :=
  congrArg Host.Outcome.next (if_neg (by rw [h]; exact Bool.false_ne_true))

end

/-- What a write in a form 20 R61 allows leaves in a buffer whose unwritten bytes read as `free`: its lanes from index
`i` on, and every other byte as it was. -/
theorem Memory.getD_read_stored {w : Width} {i n : Nat} (h : w = .one ∧ n = 1 ∨ w = .four ∧ n = 4 ∧ i % 4 = 0)
    (v : Word) (m : Memory) (a : Nat) (free : Byte) :
    ((m.writes (storedBytes i ⟨w, .write, v⟩)).read a).getD free =
      if i ≤ a ∧ a < i + n then v.extractLsb' (8 * (a - i)) 8 else (m.read a).getD free := by
  rw [storedBytes_lanes h, read_writes_run, apply_ite (Option.getD · free), Option.getD_some, laneOf]

/-- Settles O45: a write while busy is dropped, any other stores its lanes (`Memory.getD_read_stored`). -/
theorem bufferWrites : Obligations.BufferWrites := by
  intro s i v
  refine ⟨fun hb w => ⟨exec_inbuf_write_busy i w v hb, exec_outbuf_write_busy i w v hb⟩, fun hb w n hform =>
    ⟨⟨_, exec_inbuf_write i w v hb, rfl, fun a => ?_⟩, ⟨_, exec_outbuf_write i w v hb, rfl, fun a => ?_⟩⟩⟩
  · exact Memory.getD_read_stored hform v s.inBuf a _
  · exact Memory.getD_read_stored hform v s.outBuf a _

/-! Buffer reads. -/

theorem loadedWord_byte (rd : Nat → Byte) (i : Nat) (d : Word) :
    loadedWord rd i ⟨.one, .read, d⟩ = 0#24 ++ rd i :=
  setWidth_eq_zero_append 24 (rd i)

theorem loadedWord_word (rd : Nat → Byte) {i : Nat} (hi : i % 4 = 0) (d : Word) :
    loadedWord rd i ⟨.four, .read, d⟩ = rd (i + 3) ++ rd (i + 2) ++ rd (i + 1) ++ rd i :=
  (if_neg Width.noConfusion).trans (if_pos ⟨rfl, hi⟩)

/-- Lane `k` of the word at index `i` is the byte at index `i + k` (20 R60). -/
theorem extractLsb'_lane (rd : Nat → Byte) (i : Nat) {k : Nat} (hk : k < 4) :
    (rd (i + 3) ++ rd (i + 2) ++ rd (i + 1) ++ rd i).extractLsb' (8 * k) 8 = rd (i + k) := by
  have hlanes := bytesOfWord_wordOfBytes (rd i) (rd (i + 1)) (rd (i + 2)) (rd (i + 3))
  simp only [bytesOfWord, wordOfBytes, List.cons.injEq, and_true] at hlanes
  obtain ⟨h0, h1, h2, h3⟩ := hlanes
  match k, hk with
  | 0, _ => exact (BitVec.setWidth_eq_extractLsb' (by decide)).symm.trans h0
  | 1, _ => exact h1
  | 2, _ => exact h2
  | 3, _ => exact h3

theorem outSeen_of_not_busy {s : State} (h : s.busy = false) : s.outSeen = s.outByte :=
  funext fun _ => if_neg fun hold => Bool.false_ne_true (h.symm.trans hold.1)

/-- A byte of OUT_BUF is seen as it is now or as it was before the decode (20 R65(c)). -/
theorem outSeen_cases (s : State) (i : Nat) : s.outSeen i = s.outByte i ∨ s.outSeen i = s.outByteOld i := by
  rw [State.outSeen]
  split
  · exact .inr rfl
  · exact .inl rfl

theorem exec_inbuf_read (s : State) (i : BitVec 24) (w : Width) (d : Word) :
    exec (.inbuf i ⟨w, .read, d⟩) s = .next { s with rdata := loadedWord s.inByte i.toNat ⟨w, .read, d⟩ } := rfl

theorem exec_outbuf_read {s : State} (h : s.busy = false) (i : BitVec 24) (w : Width) (d : Word) :
    exec (.outbuf i ⟨w, .read, d⟩) s = .next { s with rdata := loadedWord s.outByte i.toNat ⟨w, .read, d⟩ } := by
  simp only [exec, execOutbuf, outSeen_of_not_busy h, State.answer, h, Bool.false_eq_true, false_and, if_false]

/-- While busy a read in a form 20 R61 allows uses up one free draw (log 7). -/
theorem exec_outbuf_read_busy {s : State} (h : s.busy = true) {i : BitVec 24} {w : Width} (d : Word)
    (hw : w = .one ∨ w = .four ∧ i.toNat % 4 = 0) :
    exec (.outbuf i ⟨w, .read, d⟩) s =
      .next { s with rdata := loadedWord s.outSeen i.toNat ⟨w, .read, d⟩, freeIdx := s.freeIdx + 1 } := by
  have hdraw : s.busy = true ∧ (byteForm ⟨w, .read, d⟩ ∨ wordForm i.toNat ⟨w, .read, d⟩) := ⟨h, hw⟩
  simp only [exec, execOutbuf, State.answer, if_pos hdraw]

/-- Settles O46: what a read answers is `loadedWord` of the bytes seen, which while busy are of `outSeen_cases`. -/
theorem bufferReads : Obligations.BufferReads := by
  intro s i d
  refine ⟨by rw [exec_inbuf_read, loadedWord_byte], fun hi => by rw [exec_inbuf_read, loadedWord_word _ hi],
    fun hb => ⟨by rw [exec_outbuf_read hb, loadedWord_byte],
      fun hi => by rw [exec_outbuf_read hb, loadedWord_word _ hi]⟩,
    fun hb => ⟨⟨_, exec_outbuf_read_busy hb d (.inl rfl), ?_⟩,
      fun hi => ⟨_, exec_outbuf_read_busy hb d (.inr ⟨rfl, hi⟩), fun k hk => ?_⟩⟩⟩
  · rw [loadedWord_byte, BitVec.extractLsb'_append_eq_left, BitVec.extractLsb'_append_eq_right]
    exact ⟨rfl, outSeen_cases s _⟩
  · rw [loadedWord_word _ hi, extractLsb'_lane _ _ hk]
    exact outSeen_cases s _

end Sys2Proof.Machine
end

section
/-! SUPPORT. The ends of a decode (spec 60 R210 to R219): what sets ERR in phase 2, and what the core leaves of
IRQ_EN. -/

namespace Sys2Proof.Machine

/-- In phase 2 the core leaves ERR as it is but for a failure on the scan data (60 R215). -/
theorem CoreMove.err_or_failScan {s t : State} {d : DecodeAt} (m : CoreMove s t) (hp : s.phase = .decode d) :
    t.csr.err = s.csr.err ∨
      ∃ br zz kind, (kind = .malformedEntropyStream ∨ kind = .corruptBlock) ∧
        t = State.failScan { s with br := br, zz := zz } kind := by
  cases m with
  | failScan br zz kind _ _ hk => exact .inr ⟨br, zz, kind, hk, rfl⟩
  | blockDone => obtain ⟨_, _, ⟨_, -, e⟩ | ⟨-, e⟩⟩ := s.finishBlock_cases <;> rw [e] <;> exact .inl rfl
  | idle | phase2Start | dc | eob | ac | mcuDone | finish => exact .inl rfl
  | failParse _ _ _ _ _ _ _ _ h | soi h | advance _ _ _ _ h | frame _ _ h | scan _ h | fill h | endPhase1 h =>
    rw [hp] at h; cases h

/-- Settles O57: ERR newly set in phase 2 is a failure on the scan data (`CoreMove.err_or_failScan`). -/
theorem phase2FailureKinds : Obligations.Phase2FailureKinds := by
  intro s t d hh hp hs h ht
  rw [step_of_host_nil hh] at h
  obtain he | ⟨_, _, _, hk, rfl⟩ := (coreStep_cases h).err_or_failScan hp
  · rw [he, hs] at ht
    cases ht
  · exact ⟨hk, rfl, rfl, rfl⟩

/-- IRQ_EN is the host's alone (10 R24). -/
theorem CoreMove.irqEn {s t : State} (m : CoreMove s t) : t.csr.irqEn = s.csr.irqEn := by
  cases m with
  | blockDone => obtain ⟨_, _, ⟨_, -, e⟩ | ⟨-, e⟩⟩ := s.finishBlock_cases <;> rw [e]
  | _ => rfl

/-- A core step that ends a decode sets DONE or ERR (60 R214, R218). -/
theorem CoreStatus.done_or_err {s t : State} (m : CoreStatus s t) (hb : s.busy = true) (hb' : t.busy = false) :
    (t.csr.done || t.csr.err) = true := by
  cases m with
  | same h => rw [hb, hb'] at h; cases h
  | failed _ _ _ _ _ _ h =>
    obtain ⟨-, herr, -⟩ := (Csr.status_eq_iff _ _ _ _ _ _).1 h
    rw [herr, Bool.or_true]
  | completed _ _ h =>
    obtain ⟨hdone, -⟩ := (Csr.status_eq_iff _ _ _ _ _ _).1 h
    rw [hdone, Bool.true_or]

/-- Settles O40: the step after the last MCU is `complete`; any end of a decode sets DONE or ERR and leaves IRQ_EN. -/
theorem completion : Obligations.Completion := by
  intro s hh
  refine ⟨fun hp => step_of_plain hh (fetch_finish hp), fun t hb hirq h hb' => ?_⟩
  rw [step_of_host_nil hh] at h
  have m := coreStep_cases h
  rw [State.irq, m.irqEn, hirq, m.status.done_or_err hb hb', Bool.and_true]

end Sys2Proof.Machine
end

section
/-! SUPPORT. Hardware reset in any phase (spec 70 R230, 10 R44), and the end of every decode (60 R221, 70 R241): a rank
that each move of a busy core makes smaller. -/

namespace Sys2Proof.Machine

/-- Settles O47: a reset that is due is `hardReset`, whose fields are those of the state after reset. -/
theorem hardwareReset : Obligations.HardwareReset := by
  intro s rest hh
  refine ⟨_, step_of_due hh, rfl, rfl, rfl, rfl, rfl, rfl, rfl, rfl, rfl, rfl, rfl, rfl, rfl, rfl, fun k hk => ?_⟩
  have slot {α : Type} (a : α) : getAt (Vector.replicate 4 a) k a = a := by rw [getAt_replicate, if_pos hk]
  exact ⟨congrArg QuantTable.valid (slot _), congrArg HuffTable.valid (slot _), congrArg HuffTable.valid (slot _)⟩

/-! The rank of a state. -/

/-- The stages a decode goes through, counted down to IDLE (41 R100, R126, 43 R157, R158). -/
def Phase.stage : Phase → Nat
  | .parse .soi => 5
  | .parse .marker => 4
  | .parse .term => 3
  | .decode .start => 2
  | .decode _ => 1
  | .idle => 0

theorem Phase.stage_pos : ∀ {p : Phase}, p ≠ .idle → 0 < p.stage
  | .idle, h => absurd rfl h
  | .parse pt, _ => by cases pt <;> decide
  | .decode d, _ => by cases d <;> decide

/-- The MCUs still to finish (43 R158). -/
def State.mcusLeft (s : State) : Nat := s.mcu.mcux * s.mcu.mcuy - s.mcu.idx

/-- The place of a block in an MCU of three components of two by two blocks each, the largest there is (10 R36). -/
def BlockPos.place (b : BlockPos) : Nat := 4 * b.comp.val + 2 * b.row + b.col

/-- The places of blocks still to come in the MCU. -/
def State.blocksLeft (s : State) : Nat :=
  match s.phase with
  | .decode .mcuDone => 0
  | _ => 12 - s.blk.place

/-- What is still to come before the stage or the block ends: the bytes of the stream in PARSE (41 R101), the
coefficients of the block in DECODE (43 R150, R152). -/
def State.itemsLeft (s : State) : Nat :=
  match s.phase with
  | .parse _ => s.csr.inLen - s.cur
  | .decode .dc => 64
  | .decode .ac => 64 - s.blk.k
  | _ => 0

/-- The work left to a decode, compared from the outermost loop inwards. -/
def State.rank (s : State) : ℕ ×ₗ ℕ ×ₗ ℕ ×ₗ ℕ :=
  toLex (s.phase.stage, toLex (s.mcusLeft, toLex (s.blocksLeft, s.itemsLeft)))

theorem State.rank_lt_iff (t s : State) :
    t.rank < s.rank ↔ t.phase.stage < s.phase.stage ∨ t.phase.stage = s.phase.stage ∧
      (t.mcusLeft < s.mcusLeft ∨ t.mcusLeft = s.mcusLeft ∧
        (t.blocksLeft < s.blocksLeft ∨ t.blocksLeft = s.blocksLeft ∧ t.itemsLeft < s.itemsLeft)) := by
  simp only [State.rank, Prod.Lex.toLex_lt_toLex]

section
variable {s t : State}

theorem State.rank_lt_of_stage {p : Phase} (hs : s.phase = p) (h : t.phase.stage < p.stage) : t.rank < s.rank :=
  (rank_lt_iff t s).2 (.inl (hs ▸ h))

/-- A move that ends the decode. -/
theorem State.rank_lt_of_ended (hs : s.phase ≠ .idle) (ht : t.phase = .idle) : t.rank < s.rank :=
  rank_lt_of_stage rfl (ht ▸ Phase.stage_pos hs)

theorem State.rank_lt_of_mcus (hp : t.phase.stage = s.phase.stage) (h : t.mcusLeft < s.mcusLeft) : t.rank < s.rank :=
  (rank_lt_iff t s).2 (.inr ⟨hp, .inl h⟩)

theorem State.rank_lt_of_blocks (hp : t.phase.stage = s.phase.stage) (hm : t.mcu = s.mcu)
    (h : t.blocksLeft < s.blocksLeft) : t.rank < s.rank :=
  (rank_lt_iff t s).2 (.inr ⟨hp, .inr ⟨by rw [mcusLeft, mcusLeft, hm], .inl h⟩⟩)

theorem State.rank_lt_of_items (hp : t.phase.stage = s.phase.stage) (hm : t.mcu = s.mcu)
    (hb : t.blocksLeft = s.blocksLeft) (h : t.itemsLeft < s.itemsLeft) : t.rank < s.rank :=
  (rank_lt_iff t s).2 (.inr ⟨hp, .inr ⟨by rw [mcusLeft, mcusLeft, hm], .inr ⟨hb, h⟩⟩⟩)

end

/-! Every move of a busy core makes the rank smaller. -/

/-- A step forward in the stream inside one stage of PARSE (41 R101, R126). -/
theorem State.rank_lt_of_cursor {s t : State} {pt : ParseAt} (hs : s.phase = .parse pt) (ht : t.phase = .parse pt)
    (hm : t.mcu = s.mcu) (hb : t.blk = s.blk) (hl : t.csr.inLen = s.csr.inLen) (hc : s.cur < t.cur)
    (hi : t.cur ≤ t.csr.inLen) : t.rank < s.rank := by
  refine rank_lt_of_items (by rw [hs, ht]) hm ?_ ?_
  · simp only [blocksLeft, hs, ht, hb]
  · simp only [itemsLeft, hs, ht]
    omega

/-- Whether another MCU follows or not, the head of the MCU loop is at the last stage (43 R158). -/
theorem State.nextMcu_stage (s : State) : s.nextMcu.phase.stage = 1 := by
  simp only [nextMcu_fields]
  split <;> rfl

/-- A block of a component of at most two by two blocks is at one of the twelve places. -/
theorem BlockPos.place_lt {b : BlockPos} (hr : b.row < 2) (hc : b.col < 2) : b.place < 12 := by
  have := b.comp.isLt
  rw [place]
  omega

/-- The next block stands at a later place (43 R158). -/
theorem FrameRegs.nextBlock_place_lt {f : FrameRegs} {b b' : BlockPos} (h : f.nextBlock b = some b')
    (hr : b.row < 2) (hc : b.col < 2) : b.place < b'.place := by
  unfold nextBlock at h
  split at h
  case isTrue => cases h; simp only [BlockPos.place]; omega
  split at h
  case isTrue => cases h; simp only [BlockPos.place]; omega
  split at h
  case isFalse => cases h
  split at h
  case isFalse => cases h
  cases h
  simp only [BlockPos.place]
  omega

theorem State.finishBlock_rank_lt {s : State} (h : s.StreamOk) (hp : s.phase = .decode .blockDone) :
    s.finishBlock.rank < s.rank := by
  obtain ⟨hv, -, -, -, hc, hrow, hcol⟩ := (State.placeOk_blockDone hp).1 h.place
  obtain ⟨-, hh, -, hvv⟩ := (h.frame (h.scan hv).1).1.comps _ hc
  have hr2 : s.blk.row < 2 := hrow.trans_le hvv
  have hc2 : s.blk.col < 2 := hcol.trans_le hh
  have hlt := BlockPos.place_lt hr2 hc2
  obtain ⟨_, _, ⟨b, hb, e⟩ | ⟨-, e⟩⟩ := s.finishBlock_cases <;> rw [e] <;>
    refine rank_lt_of_blocks (by rw [hp]; rfl) rfl ?_ <;> simp only [blocksLeft, hp]
  · have := FrameRegs.nextBlock_place_lt hb hr2 hc2
    omega
  · omega

theorem State.emitMcu_rank_lt {s : State} (h : s.StreamOk) (hp : s.phase = .decode .mcuDone) :
    s.emitMcu.rank < s.rank := by
  obtain ⟨-, -, -, hidx⟩ := (State.placeOk_mcuDone hp).1 h.place
  refine rank_lt_of_mcus ((nextMcu_stage _).trans (by rw [hp]; rfl)) ?_
  simp only [mcusLeft, emitMcu_fields]
  omega

/-- The AC loop at its next position has fewer coefficients to come (43 R152). -/
theorem State.acAt_rank_lt {s : State} {k : Nat} (hp : s.phase = .decode .ac) (hk : s.blk.k < k)
    (h64 : s.blk.k < 64) : (s.acAt k).rank < s.rank := by
  by_cases hlt : k < 64
  · have ht : (s.acAt k).phase = .decode .ac := if_pos hlt
    refine rank_lt_of_items (by rw [hp, ht]) rfl (by simp only [blocksLeft, hp, ht]; rfl) ?_
    simp only [itemsLeft, hp, ht, acAt_fields]
    omega
  · have ht : (s.acAt k).phase = .decode .blockDone := if_neg hlt
    refine rank_lt_of_items (by rw [hp, ht]; rfl) rfl (by simp only [blocksLeft, hp, ht]; rfl) ?_
    simp only [itemsLeft, hp, ht]
    omega

theorem CoreMove.rank_lt {s t : State} (m : CoreMove s t) (h : s.StreamOk) (hb : s.phase ≠ .idle) :
    t.rank < s.rank := by
  cases m with
  | idle hp => exact absurd hp hb
  | failParse | failScan | finish => exact State.rank_lt_of_ended hb rfl
  | soi hp => exact State.rank_lt_of_stage hp (Nat.lt_succ_self 4)
  | advance _ _ _ _ hp hc hl => exact State.rank_lt_of_cursor hp hp rfl rfl rfl hc hl
  | frame _ _ hp hc hl => exact State.rank_lt_of_cursor hp hp rfl rfl rfl hc hl
  | scan _ hp => exact State.rank_lt_of_stage hp (Nat.lt_succ_self 3)
  | fill hp hl => exact State.rank_lt_of_cursor hp hp rfl rfl rfl (Nat.lt_succ_self _) hl.le
  | endPhase1 hp => exact State.rank_lt_of_stage hp (Nat.lt_succ_self 2)
  | phase2Start hp => exact State.rank_lt_of_stage hp ((State.nextMcu_stage _).trans_lt (Nat.lt_succ_self 1))
  | dc _ _ _ hp =>
    refine State.rank_lt_of_items (by rw [hp]; rfl) rfl (by simp only [State.blocksLeft, hp]; rfl) ?_
    simp only [State.itemsLeft, hp]
    decide
  | eob _ hp =>
    obtain ⟨-, -, -, -, -, h64⟩ := (State.placeOk_ac hp).1 h.place
    refine State.rank_lt_of_items (by rw [hp]; rfl) rfl (by simp only [State.blocksLeft, hp]) ?_
    simp only [State.itemsLeft, hp]
    omega
  | ac br zz _ hp _ hk =>
    obtain ⟨-, -, -, -, -, h64⟩ := (State.placeOk_ac hp).1 h.place
    exact State.acAt_rank_lt (s := { s with br := br, zz := zz }) hp hk h64
  | blockDone hp => exact State.finishBlock_rank_lt h hp
  | mcuDone hp => exact State.emitMcu_rank_lt h hp

/-! The whole run. -/

/-- The core leaves the host's queue alone. -/
theorem CoreMove.host {s t : State} (m : CoreMove s t) : t.host = s.host := by
  cases m with
  | blockDone => obtain ⟨_, _, ⟨_, -, e⟩ | ⟨-, e⟩⟩ := s.finishBlock_cases <;> rw [e]
  | _ => rfl

/-- Settles O54, by induction on the rank, which each step of a busy machine makes smaller (`CoreMove.rank_lt`). -/
theorem decodeTerminates : Obligations.DecodeTerminates := by
  intro s hs hh
  induction hr : s.rank using WellFoundedLT.induction generalizing s with
  | _ r ih =>
    by_cases hp : s.phase = .idle
    · exact ⟨0, s, rfl, hp⟩
    obtain ⟨t, ht⟩ := everyStepGoesOn s
    have m : CoreMove s t := coreStep_cases ((step_of_host_nil hh).symm.trans ht)
    obtain ⟨n, u, hrun, hu⟩ := ih t.rank (hr ▸ m.rank_lt hs hp) t (m.streamOk hs) (m.host.trans hh) rfl
    exact ⟨n + 1, u, (run_succ ht).trans hrun, hu⟩

end Sys2Proof.Machine
end
